-- ==== Sys2Proof/Word.lean ====
section
/-! DEFINITION. The two bit-vector types of the HCB: the 32-bit word of the host bus and of every register,
and the 8-bit byte of the byte memories (spec/00_scope.md R8, spec/20_memory.md R60). -/

namespace Sys2Proof

/-- A 32-bit word: host bus data, a register, a count, a command word (R8, R20, R60). -/
abbrev Word := BitVec 32

/-- An 8-bit byte: a symbol, a byte of `BUFA`, `BUFB`, `BITS` or `RLIST` (R42, R45–R47). -/
abbrev Byte := BitVec 8

end Sys2Proof
end

