-- ==== Sys2Proof/Syntax.lean ====
section
/-! DEFINITION. The commands of the HCB as syntax: one constructor for each row of spec/opcode_table.json
(spec/30_encoding.md R81). -/

namespace Sys2Proof

/-- The data buffer that the `S` bit of a command word selects: `BUF(0)` is `BUFA`, `BUF(1)` is `BUFB` (R10, R82). -/
inductive Buf where
  | A
  | B
  deriving DecidableEq, Repr

/-- One command word's content (R80, R81).  Operands that are not in the word (`ARG0`, `ARG1`) are state. -/
inductive Instr where
  /-- `NOP`, R103. -/
  | nop
  /-- `FREQ_COUNT`, R160; `src` is the source buffer. -/
  | freqCount (src : Buf)
  /-- `HUF_BUILD`, R161. -/
  | hufBuild
  /-- `HUF_CODES`, R162. -/
  | hufCodes
  /-- `HUF_ENCODE`, R163; `src` is the source buffer. -/
  | hufEncode (src : Buf)
  /-- `HUF_DECODE`, R164; `dst` is the destination buffer. -/
  | hufDecode (dst : Buf)
  /-- `BW_INIT`, R122. -/
  | bwInit
  /-- `BW_PUT cnt`, R123; `cnt = CNTM1 + 1` (R83). -/
  | bwPut (cnt : Nat)
  /-- `BW_FLUSH`, R124. -/
  | bwFlush
  /-- `BR_INIT`, R125. -/
  | brInit
  /-- `BR_GET cnt`, R126; `cnt = CNTM1 + 1` (R83). -/
  | brGet (cnt : Nat)
  /-- `MTF_FWD`, R142; `src` is the source buffer, the other one the destination. -/
  | mtfFwd (src : Buf)
  /-- `MTF_INV`, R143; `src` is the source buffer, the other one the destination. -/
  | mtfInv (src : Buf)
  /-- `BWT_INV`, R141; `src` is the source buffer, the other one the destination. -/
  | bwtInv (src : Buf)
  deriving DecidableEq, Repr

end Sys2Proof
end

