-- ==== Sys2Proof/WellFormed.lean ====
section
/-! DEFINITION. Which commands a command word can hold: a bit count lies in 1..32 (spec/30_encoding.md R83). -/

namespace Sys2Proof

/-- R83: `cnt = CNTM1 + 1` for a 5-bit `CNTM1`, so `1 ≤ cnt ≤ 32`. -/
def countOk (cnt : Nat) : Bool := decide (1 ≤ cnt ∧ cnt ≤ 32)

/-- The check on a command: its bit count, for the two commands that hold one; every other command is well formed. -/
def Instr.wellFormed : Instr → Bool
  | .nop => true
  | .freqCount _ => true
  | .hufBuild => true
  | .hufCodes => true
  | .hufEncode _ => true
  | .hufDecode _ => true
  | .bwInit => true
  | .bwPut cnt => countOk cnt
  | .bwFlush => true
  | .brInit => true
  | .brGet cnt => countOk cnt
  | .mtfFwd _ => true
  | .mtfInv _ => true
  | .bwtInv _ => true

end Sys2Proof
end

