-- ==== Sys2Proof/Decode.lean ====
section
/-! DEFINITION. The command word: decoder, encoder and the opcode table's masks
(spec/30_encoding.md R80–R83, R86, R87, R91; spec/opcode_table.json). -/

namespace Sys2Proof

/-- Why a word is illegal (R86), in the order of R87. -/
inductive DecodeError where
  /-- `OPC` is not in the map of R81. -/
  | unlistedOpcode
  /-- A bit of [15:9] or [31:21] is 1. -/
  | reservedBits
  /-- `S = 1` and the opcode does not use `S`. -/
  | selectUnused
  /-- `CNTM1 ≠ 0` and the opcode does not use `CNTM1`. -/
  | countUnused
  deriving DecidableEq, Repr

/-- Field `OPC`, bits [7:0] (R80). -/
def opcField (w : Word) : Nat := (w.extractLsb' 0 8).toNat
/-- Field `S`, bit 8 (R80). -/
def sField (w : Word) : Bool := w.getLsbD 8
/-- The reserved field, bits [15:9] (R80). -/
def reservedLow (w : Word) : Nat := (w.extractLsb' 9 7).toNat
/-- Field `CNTM1`, bits [20:16] (R80). -/
def cntm1Field (w : Word) : Nat := (w.extractLsb' 16 5).toNat
/-- The reserved field, bits [31:21] (R80). -/
def reservedHigh (w : Word) : Nat := (w.extractLsb' 21 11).toNat

/-- R82: `S = 0` selects `BUFA` and `S = 1` selects `BUFB`. -/
def bufOfS : Bool → Buf
  | false => .A
  | true => .B

/-- The `S` bit that selects a buffer (R82). -/
def sOfBuf : Buf → Bool
  | .A => false
  | .B => true

/-- R81: the command of an opcode, given the decoded `S` and `cnt = CNTM1 + 1`; `none` for an unlisted opcode. -/
def commandOf (opc : Nat) (b : Buf) (cnt : Nat) : Option Instr :=
  match opc with
  | 0x00 => some .nop
  | 0x01 => some (.freqCount b)
  | 0x02 => some .hufBuild
  | 0x03 => some .hufCodes
  | 0x04 => some (.hufEncode b)
  | 0x05 => some (.hufDecode b)
  | 0x10 => some .bwInit
  | 0x11 => some (.bwPut cnt)
  | 0x12 => some .bwFlush
  | 0x13 => some .brInit
  | 0x14 => some (.brGet cnt)
  | 0x20 => some (.mtfFwd b)
  | 0x21 => some (.mtfInv b)
  | 0x22 => some (.bwtInv b)
  | _ => none

/-- R81, column "uses S" (and R87's set). -/
def Instr.usesS : Instr → Bool
  | .nop => false
  | .freqCount _ => true
  | .hufBuild => false
  | .hufCodes => false
  | .hufEncode _ => true
  | .hufDecode _ => true
  | .bwInit => false
  | .bwPut _ => false
  | .bwFlush => false
  | .brInit => false
  | .brGet _ => false
  | .mtfFwd _ => true
  | .mtfInv _ => true
  | .bwtInv _ => true

/-- R81, column "uses CNTM1" (and R87's set). -/
def Instr.usesCount : Instr → Bool
  | .nop => false
  | .freqCount _ => false
  | .hufBuild => false
  | .hufCodes => false
  | .hufEncode _ => false
  | .hufDecode _ => false
  | .bwInit => false
  | .bwPut _ => true
  | .bwFlush => false
  | .brInit => false
  | .brGet _ => true
  | .mtfFwd _ => false
  | .mtfInv _ => false
  | .bwtInv _ => false

/-- R87: decoding, total over all `2^32` words, with R87's checks in R87's order. -/
def decode (w : Word) : Except DecodeError Instr :=
  match commandOf (opcField w) (bufOfS (sField w)) (cntm1Field w + 1) with
  | none => .error .unlistedOpcode
  | some i =>
    if reservedLow w ≠ 0 ∨ reservedHigh w ≠ 0 then .error .reservedBits
    else if sField w = true ∧ i.usesS = false then .error .selectUnused
    else if cntm1Field w ≠ 0 ∧ i.usesCount = false then .error .countUnused
    else .ok i

/-- R81: the opcode of a command. -/
def Instr.opc : Instr → Nat
  | .nop => 0x00
  | .freqCount _ => 0x01
  | .hufBuild => 0x02
  | .hufCodes => 0x03
  | .hufEncode _ => 0x04
  | .hufDecode _ => 0x05
  | .bwInit => 0x10
  | .bwPut _ => 0x11
  | .bwFlush => 0x12
  | .brInit => 0x13
  | .brGet _ => 0x14
  | .mtfFwd _ => 0x20
  | .mtfInv _ => 0x21
  | .bwtInv _ => 0x22

/-- The `S` field of a command's word: 0 where the command does not use it (R82). -/
def Instr.s : Instr → Bool
  | .nop => false
  | .freqCount b => sOfBuf b
  | .hufBuild => false
  | .hufCodes => false
  | .hufEncode b => sOfBuf b
  | .hufDecode b => sOfBuf b
  | .bwInit => false
  | .bwPut _ => false
  | .bwFlush => false
  | .brInit => false
  | .brGet _ => false
  | .mtfFwd b => sOfBuf b
  | .mtfInv b => sOfBuf b
  | .bwtInv b => sOfBuf b

/-- The `CNTM1` field of a command's word: `cnt − 1`, and 0 where the command does not use it (R83). -/
def Instr.cntm1 : Instr → Nat
  | .nop => 0
  | .freqCount _ => 0
  | .hufBuild => 0
  | .hufCodes => 0
  | .hufEncode _ => 0
  | .hufDecode _ => 0
  | .bwInit => 0
  | .bwPut cnt => cnt - 1
  | .bwFlush => 0
  | .brInit => 0
  | .brGet cnt => cnt - 1
  | .mtfFwd _ => 0
  | .mtfInv _ => 0
  | .bwtInv _ => 0

/-- R80: the command word, from bit 31 down: reserved [31:21], `CNTM1` [20:16], reserved [15:9], `S` [8], `OPC` [7:0]. -/
def encode (i : Instr) : Word :=
  0#11 ++ BitVec.ofNat 5 i.cntm1 ++ 0#7 ++ BitVec.ofBool i.s ++ BitVec.ofNat 8 i.opc

/-- `match` of a command's row in spec/opcode_table.json. -/
def Instr.tableMatch (i : Instr) : Word := BitVec.ofNat 32 i.opc

/-- `mask` of a command's row in spec/opcode_table.json. -/
def Instr.tableMask (i : Instr) : Word :=
  if i.usesS then 0xFFFFFEFF#32 else if i.usesCount then 0xFFE0FFFF#32 else 0xFFFFFFFF#32

/-- One representative command for each of the fourteen rows of spec/opcode_table.json, in the table's order. -/
def tableRows : List Instr :=
  [.nop, .freqCount .A, .hufBuild, .hufCodes, .hufEncode .A, .hufDecode .A, .bwInit, .bwPut 1, .bwFlush, .brInit,
    .brGet 1, .mtfFwd .A, .mtfInv .A, .bwtInv .A]

/-- The command of a word numbered as spec/opcode_table.json numbers it: every HCB command is one 32-bit word (R80),
so bits of `w` above bit 31 belong to no command. -/
def decodeTableWord (_nbits w : Nat) : Option Instr :=
  if w < 2 ^ 32 then
    match decode (BitVec.ofNat 32 w) with
    | .ok i => some i
    | .error _ => none
  else none

end Sys2Proof
end

