-- ==== Sys2Proof/Config.lean ====
section
/-! DEFINITION. What an implementation of the HCB fixes (the OPEN parameters of spec/00_scope.md R6) and the free
values of spec/93_implementation_defined.md item 7. -/

namespace Sys2Proof

/-- The parameters of R6.  A `Config` is a field of `State`, so a statement about every state is a statement about
every capacity; only `State.reset` names one (notes/assumptions/1.md). -/
structure Config where
  /-- `NBUF`: byte capacity of `BUFA` and `BUFB`, entry count of `RANK`. -/
  nbuf : Nat
  /-- `BITCAP`: byte capacity of `BITS`. -/
  bitcap : Nat
  /-- `BASE`: host address of byte offset 0 of the window. -/
  base : Nat
  deriving DecidableEq, Repr

/-- R6: the legal values, `1 ≤ NBUF ≤ 2^20`, `1 ≤ BITCAP ≤ 2^20`, `BASE` a multiple of `2^24`. -/
abbrev Config.legal (c : Config) : Prop :=
  1 ≤ c.nbuf ∧ c.nbuf ≤ 2 ^ 20 ∧ 1 ≤ c.bitcap ∧ c.bitcap ≤ 2 ^ 20 ∧ c.base % 2 ^ 24 = 0

/-- The capacities `State.reset` names: those of the test vectors' start state (spec/95_test_vectors.md section 0).
DESIGN CHOICE, notes/assumptions/1.md. -/
def Config.vectors : Config := { nbuf := 64, bitcap := 64, base := 0 }

/-- A free byte: what a host read gives for a byte lane of a memory entry never written since power-on
(93_implementation_defined.md item 7: any value).  It has no body, so nothing can be proved of its value;
the step applies it to `State.freeCount`, which it advances (notes/assumptions/3.md). -/
opaque Config.freeByte : Nat → Byte

end Sys2Proof
end

