-- ==== Sys2Proof/Machine/State.lean ====
section
/-! DEFINITION. The state of the HCB as plain data (spec/10_state.md R20–R52), the events that move it
(spec/20_memory.md R70, R71; spec/70_reset_and_hazards.md R230), the reasons a step can stop, and the state after
power-on reset. -/

namespace Sys2Proof.Machine

/-- The nine local memories (R40–R48) and their windows (R61). -/
inductive Window where
  | freq
  | first
  | rlist
  | tree
  | code
  | bufA
  | bufB
  | bits
  | rank
  deriving DecidableEq, Repr

/-- Why a step stops in a fault. -/
inductive Fault where
  /-- A command read an entry of memory `w` that nothing has written since power-on: raised by every meaning that
  reads a memory.  The spec says a model faults there (R11, R49, R235; 93_implementation_defined.md item 6).  Safe:
  the model stops where the hardware goes on with a value the spec does not define. -/
  | unwritten (w : Window)
  /-- The stored tree is deeper than its 512 slots, so that the walk of HUF_CODES has no end: raised by `execHufCodes`
  only, in a state whose TREE no HUF_BUILD can have left (R107: a walk visits at most 255 internal nodes).  Safe. -/
  | treeTooDeep
  deriving DecidableEq, Repr

/-- Why a step is refused. -/
inductive Refusal where
  /-- Raised by `exec` alone, for an instruction that has no meaning yet (none is left).  Safe. -/
  | notModelled (mnemonic : String)
  /-- A host access while `rst_n` is low, raised by `busEvent`: "no access is defined then"
  (93_implementation_defined.md item 11, treatment "refuse").  Safe. -/
  | accessInReset
  deriving DecidableEq, Repr

/-- The error kinds a command can raise (R200, codes 1 to 7). -/
inductive ErrorKind where
  | illegalCmd
  | badArg
  | sequence
  | malformedHeader
  | streamExhausted
  | bufferOverflow
  | noCode
  deriving DecidableEq, Repr

/-- One event of the total order of host accesses and command completions (R71, R213), and the edges of `rst_n`. -/
inductive Event where
  /-- `MemRead(a, 4)`: a host bus read at byte offset `a` (R60). -/
  | read (a : BitVec 24)
  /-- `MemWrite(a, 4, v)`: a host bus write (R60). -/
  | write (a : BitVec 24) (v : Word)
  /-- The engine's turn: it executes and completes the accepted command in one step (R102); nothing when idle. -/
  | engine
  /-- `rst_n` falls (R230). -/
  | rstFall
  /-- `rst_n` rises (R230). -/
  | rstRise
  deriving DecidableEq, Repr

/-- `STATUS` (R24), field by field; its reserved bits read 0, so they are no state.  `Status.word` (Flags.lean) is the
word the host reads.  `busy` is the engine phase of R50, held once (DEDUCED, notes/assumptions/13.md). -/
structure Status where
  busy : Bool
  done : Bool
  err : Bool
  treev : Bool
  codev : Bool
  lone : Bool
  accv : Bool
  ovr : Bool
  errcode : BitVec 4
  deriving DecidableEq, Repr

/-- The command word and operands latched at acceptance (R50, R100). -/
structure Latch where
  w : Word
  a0 : Word
  a1 : Word
  deriving DecidableEq, Repr

/-- A local memory: the bytes written since power-on, at byte offsets from the memory's start, addresses strictly
rising.  An unlisted offset has no value (R49).  DESIGN CHOICE, notes/assumptions/2.md. -/
abbrev Memory := List Host.Cell

/-- The nine local memories (R40–R48). -/
structure Memories where
  freq : Memory
  first : Memory
  rlist : Memory
  tree : Memory
  code : Memory
  bufA : Memory
  bufB : Memory
  bits : Memory
  rank : Memory
  deriving DecidableEq, Repr

/-- Everything the HCB holds (R20), and, at the end, the model's own fields. -/
structure State where
  /-- The parameters of R6; `CAPBUF` and `CAPBITS` read two of them (R36, R37).  Nothing writes them. -/
  cfg : Config
  /-- `CTRL.IE` (R23); the other bits of `CTRL` read 0. -/
  ie : Bool
  /-- `STATUS` (R24). -/
  status : Status
  /-- `CMD` read-back (R25). -/
  cmd : Word
  /-- `ARG0` (R26). -/
  arg0 : Word
  /-- `ARG1` (R27). -/
  arg1 : Word
  /-- `RES0` (R28). -/
  res0 : Word
  /-- `RES1` (R29). -/
  res1 : Word
  /-- `WBITS` (R30). -/
  wbits : Word
  /-- `RCUR` (R31). -/
  rcur : Word
  /-- `RLIM` (R32). -/
  rlim : Word
  /-- `NLEAF` (R33). -/
  nleaf : Word
  /-- `NNODE` (R34). -/
  nnode : Word
  /-- `ROOT` (R35): bits [8:0]; bits [31:9] read 0. -/
  root : BitVec 9
  /-- The latched command (R50). -/
  latch : Latch
  /-- `SRSTPEND` (R50). -/
  srstPend : Bool
  /-- The local memories (R40–R48). -/
  mem : Memories
  /-- Whether the `rst_n` input is low (R21, R230); `notes/assumptions/9.md`. -/
  rstLow : Bool
  /-- The bus port's read data (R21): what the last host read returned; `notes/assumptions/8.md`. -/
  rdata : Word
  /-- The model's own: the events to come, in their total order (R71); `notes/assumptions/4.md`. -/
  schedule : List Event
  /-- The model's own: how many free bytes have been taken; `notes/assumptions/3.md`. -/
  freeCount : Nat
  deriving DecidableEq, Repr

/-- `STATUS` at reset: every field 0 (R24). -/
def Status.cleared : Status :=
  { busy := false, done := false, err := false, treev := false, codev := false, lone := false, accv := false,
    ovr := false, errcode := 0#4 }

/-- Every memory with no entry written (R49, R230). -/
def Memories.unwritten : Memories :=
  { freq := [], first := [], rlist := [], tree := [], code := [], bufA := [], bufB := [], bits := [], rank := [] }

/-- R230: the state when `rst_n` has risen, for an HCB with the parameters `c`.  The spec gives no reset value for the
latched command, for the bus port's read data or for the model's own two fields: zeros and the empty schedule, DESIGN
CHOICE (notes/assumptions/3.md, 4.md, 7.md, 8.md). -/
def State.powerOn (c : Config) : State :=
  { cfg := c
    ie := false
    status := Status.cleared
    cmd := 0#32
    arg0 := 0#32
    arg1 := 0#32
    res0 := 0#32
    res1 := 0#32
    wbits := 0#32
    rcur := 0#32
    rlim := 0#32
    nleaf := 0#32
    nnode := 0#32
    root := 0x1FF#9
    latch := { w := 0#32, a0 := 0#32, a1 := 0#32 }
    srstPend := false
    mem := Memories.unwritten
    rstLow := false
    rdata := 0#32
    schedule := []
    freeCount := 0 }

/-- The machine right after power-on reset, with nothing scheduled.  The capacities are a DESIGN CHOICE
(notes/assumptions/1.md). -/
def State.reset : State := State.powerOn Config.vectors

end Sys2Proof.Machine
end

