-- ==== Sys2Proof/Machine/Flags.lean ====
section
/-! DEFINITION. `STATUS`, `CTRL` and the interrupt output: the words the host reads and every way a flag changes
(spec/10_state.md R23, R24, R52; spec/40_command_engine.md R100, R102; spec/60_exceptions.md R200, R210). -/

namespace Sys2Proof.Machine

/-- The error codes of R200. -/
def ErrorKind.errcode : ErrorKind → BitVec 4
  | .illegalCmd => 1#4
  | .badArg => 2#4
  | .sequence => 3#4
  | .malformedHeader => 4#4
  | .streamExhausted => 5#4
  | .bufferOverflow => 6#4
  | .noCode => 7#4

/-- `ERRCODE` at a completion: 0 (`NONE`) after a success (R200). -/
def errcodeOf : Option ErrorKind → BitVec 4
  | none => 0#4
  | some e => e.errcode

/-- R24: `STATUS` as the host reads it, from bit 31 down: reserved [31:20], `ERRCODE` [19:16], reserved [15:8],
`OVR`, `ACCV`, `LONE`, `CODEV`, `TREEV`, `ERR`, `DONE`, `BUSY`. -/
def Status.word (t : Status) : Word :=
  0#12 ++ t.errcode ++ 0#8 ++ BitVec.ofBool t.ovr ++ BitVec.ofBool t.accv ++ BitVec.ofBool t.lone ++
    BitVec.ofBool t.codev ++ BitVec.ofBool t.treev ++ BitVec.ofBool t.err ++ BitVec.ofBool t.done ++
    BitVec.ofBool t.busy

/-- R23: `CTRL` as the host reads it: `IE` in bit 0, `SRST` and the reserved bits 0. -/
def ctrlWord (ie : Bool) : Word := 0#31 ++ BitVec.ofBool ie

/-- R100: the flags at acceptance. -/
def Status.accepted (t : Status) : Status :=
  { t with busy := true, done := false, err := false, errcode := 0#4 }

/-- R102, R205: the flags at completion, with the error the command raised, if any; a success writes `ERR = 0` and
`ERRCODE = 0` (DEDUCED, notes/assumptions/14.md). -/
def Status.completed (o : Option ErrorKind) (t : Status) : Status :=
  { t with busy := false, done := true, err := o.isSome, errcode := errcodeOf o }

/-- R24: a host write of `v` to `STATUS` clears `DONE` (bit 1), `ACCV` (bit 6) and `OVR` (bit 7) where `v` has a 1,
and changes nothing else. -/
def Status.writeOneToClear (v : Word) (t : Status) : Status :=
  { t with
    done := t.done && !v.getLsbD 1
    accv := t.accv && !v.getLsbD 6
    ovr := t.ovr && !v.getLsbD 7 }

/-- R51: the validity flags HUF_BUILD leaves for a tree of `k` leaves. -/
def Status.treeBuilt (k : Nat) (t : Status) : Status :=
  { t with treev := true, lone := decide (k = 1), codev := false }

/-- R51: the validity flag HUF_CODES sets. -/
def Status.codesBuilt (t : Status) : Status := { t with codev := true }

/-- R210: the `irq` output, `CTRL.IE AND STATUS.DONE`, a level at every moment. -/
def State.irq (s : State) : Bool := s.ie && s.status.done

end Sys2Proof.Machine
end

