-- ==== Sys2Proof/Machine/Ops.lean ====
section
/-! DEFINITION. The named operations over memories and registers, acceptance and completion of a command (the HCB's
whole trap mechanism, spec/60_exceptions.md), the resets and the bit-stream primitives.
The word memories hold a word's most significant byte at the lowest offset; no access can show that order
(spec/20_memory.md R62, notes/assumptions/2.md). -/

namespace Sys2Proof.Machine

/-! ### One memory -/

/-- The byte at offset `a`, or `none` where nothing has been written since power-on (R49). -/
def Memory.get? : Memory → Nat → Option Byte
  | [], _ => none
  | (k, v) :: m, a => bif Nat.beq k a then some v else Memory.get? m a

/-- The bytes `bs` as cells from offset `a` on. -/
def cellsFrom (a : Nat) : List Byte → Memory
  | [] => []
  | b :: bs => (a, b) :: cellsFrom (a + 1) bs

/-- Writes the bytes `bs` at offsets `a`, `a + 1`, …; every other offset keeps its cell. -/
def Memory.store (m : Memory) (a : Nat) (bs : List Byte) : Memory :=
  m.filter (fun c => Nat.blt c.1 a) ++ (cellsFrom a bs ++ m.filter (fun c => Nat.ble (a + bs.length) c.1))

/-- The `n` bytes from offset `a` on, or `none` where one of them has never been written. -/
def Memory.read (m : Memory) (a : Nat) : Nat → Option (List Byte)
  | 0 => some []
  | n + 1 =>
    match m.get? a with
    | none => none
    | some b =>
      match Memory.read m (a + 1) n with
      | none => none
      | some bs => some (b :: bs)

/-- The canonical form: offsets strictly rising (so no offset is listed twice).  An unlisted offset has no value, so
no listed cell can equal what an unlisted one reads as. -/
abbrev Memory.wf (m : Memory) : Prop := List.Pairwise (fun x y : Host.Cell => x.1 < y.1) m

/-! ### Words and their bytes -/

/-- The four bytes of a word, the most significant first (R62). -/
def wordBytes (w : Word) : List Byte :=
  [w.extractLsb' 24 8, w.extractLsb' 16 8, w.extractLsb' 8 8, w.extractLsb' 0 8]

/-- The word of four bytes, the most significant first (R62). -/
def bytesWord (b0 b1 b2 b3 : Byte) : Word := b0 ++ b1 ++ b2 ++ b3

/-- A 32-bit register value; R15: every value written to a register is below `2^32`. -/
def wordOf (n : Nat) : Word := BitVec.ofNat 32 n

/-! ### The nine memories of the state -/

/-- The memory of a window. -/
def Memories.sel (ms : Memories) : Window → Memory
  | .freq => ms.freq
  | .first => ms.first
  | .rlist => ms.rlist
  | .tree => ms.tree
  | .code => ms.code
  | .bufA => ms.bufA
  | .bufB => ms.bufB
  | .bits => ms.bits
  | .rank => ms.rank

/-- Replaces the memory of a window. -/
def Memories.put (ms : Memories) (w : Window) (m : Memory) : Memories :=
  match w with
  | .freq => { ms with freq := m }
  | .first => { ms with first := m }
  | .rlist => { ms with rlist := m }
  | .tree => { ms with tree := m }
  | .code => { ms with code := m }
  | .bufA => { ms with bufA := m }
  | .bufB => { ms with bufB := m }
  | .bits => { ms with bits := m }
  | .rank => { ms with rank := m }

/-- The model's read of one byte: the byte at offset `o` of memory `w`, `none` where nothing has written it. -/
def State.byteAt (s : State) (w : Window) (o : Nat) : Option Byte := (s.mem.sel w).get? o

/-- The `n` bytes of memory `w` from offset `o` on. -/
def State.bytesAt (s : State) (w : Window) (o n : Nat) : Option (List Byte) := (s.mem.sel w).read o n

/-- Stores bytes into memory `w` from offset `o` on. -/
def State.storeBytes (s : State) (w : Window) (o : Nat) (bs : List Byte) : State :=
  { s with mem := s.mem.put w ((s.mem.sel w).store o bs) }

/-- Entry `i` of a word memory (`FREQ`, `FIRST`, `RANK`: entry `i`; `TREE`, `CODE`: word `i` of the window, R61). -/
def State.wordAt (s : State) (w : Window) (i : Nat) : Option Word :=
  match s.bytesAt w (4 * i) 4 with
  | some [b0, b1, b2, b3] => some (bytesWord b0 b1 b2 b3)
  | _ => none

/-- The `n` words of a word memory from entry `i` on. -/
def State.wordsAt (s : State) (w : Window) (i : Nat) : Nat → Option (List Word)
  | 0 => some []
  | n + 1 =>
    match s.wordAt w i with
    | none => none
    | some v =>
      match s.wordsAt w (i + 1) n with
      | none => none
      | some vs => some (v :: vs)

/-- Stores words into a word memory from entry `i` on. -/
def State.storeWords (s : State) (w : Window) (i : Nat) (vs : List Word) : State :=
  s.storeBytes w (4 * i) (vs.flatMap wordBytes)

/-! ### Registers -/

/-- Writes the scalar results `RES0` and `RES1`. -/
def State.setRes (s : State) (r0 r1 : Nat) : State := { s with res0 := wordOf r0, res1 := wordOf r1 }

/-- Moves the bit writer. -/
def State.setWbits (s : State) (p : Nat) : State := { s with wbits := wordOf p }

/-- Moves the bit reader. -/
def State.setRcur (s : State) (p : Nat) : State := { s with rcur := wordOf p }

/-! ### Resets -/

/-- R231 `soft_reset()`: every register of R23–R35 takes its reset value, `SRSTPEND` and the phase are cleared, the
memories stay. -/
def softReset (s : State) : State :=
  { s with
    ie := false
    status := Status.cleared
    cmd := 0#32
    arg0 := 0#32
    arg1 := 0#32
    res0 := 0#32
    res1 := 0#32
    wbits := 0#32
    rcur := 0#32
    rlim := 0#32
    nleaf := 0#32
    nnode := 0#32
    root := 0x1FF#9
    srstPend := false }

/-- R230: power-on reset.  The parameters stay, and so do the model's own fields and the last read data. -/
def powerOnReset (s : State) : State :=
  { State.powerOn s.cfg with
    rstLow := s.rstLow, rdata := s.rdata, schedule := s.schedule, freeCount := s.freeCount }

/-! ### Acceptance and completion -/

/-- R100 `accept(v)`. -/
def accept (v : Word) (s : State) : State :=
  { s with latch := { w := v, a0 := s.arg0, a1 := s.arg1 }, cmd := v, status := s.status.accepted }

/-- R102, first line of `execute`: the pending registers of a command start with `RES0` and `RES1` cleared.
The command and its completion are one step (R102), so the pending copy is the state the meaning works on
(notes/assumptions/5.md). -/
def begin (s : State) : State := { s with res0 := 0#32, res1 := 0#32 }

/-- R102 `complete`, R203, R205: the registers of the command are committed, `ERR` and `ERRCODE` report the error it
raised, if any, `BUSY` falls, `DONE` rises, and a pending soft reset happens (R231). -/
def complete (o : Option ErrorKind) (s : State) : State :=
  let t := { s with status := s.status.completed o }
  if s.srstPend then softReset t else t

/-- How a command's rule ends: it finishes with a value, it raises an error in the state reached so far (R203), or it
reads an entry never written (R11). -/
inductive Result (α : Type) where
  | done (a : α) (s : State)
  | raised (e : ErrorKind) (s : State)
  | stuck (f : Fault)
  deriving DecidableEq, Repr

/-- The outcome of a command: completion after success or after a raise; a fault stops the machine. -/
def Result.commit : Result Unit → Host.Outcome State Fault Refusal
  | .done _ s => .next (complete none s)
  | .raised e s => .next (complete (some e) s)
  | .stuck f => .fault f

/-- R86, R102, R201: the completion of an illegal command word. -/
def completeIllegal (s : State) : State := complete (some .illegalCmd) (begin s)

/-- The command of the latched word (R102 `decode-and-run`, R87). -/
def fetch (s : State) : Except DecodeError Instr := decode s.latch.w

/-! ### The schedule of the two agents -/

/-- The next event of the total order; with nothing scheduled it is the engine's turn, so that an accepted command
completes (R107) and an idle HCB stays idle (R220). -/
def nextEvent (s : State) : Event := s.schedule.headD .engine

/-- The state with the next event taken off the schedule. -/
def popEvent (s : State) : State := { s with schedule := s.schedule.tail }

/-! ### Bit-stream primitives -/

/-- Bit `7 − (p mod 8)` of a byte: stream bit `p` in its byte, most significant first (R63). -/
def streamBit (b : Byte) (p : Nat) : Bool := b.getLsbD (7 - p % 8)

/-- The byte that holds only stream bit `p`, of value `v` (R120: `b << (7 − (p mod 8))`). -/
def streamMask (v : Bool) (p : Nat) : Byte := (BitVec.ofBool v).setWidth 8 <<< (7 - p % 8)

/-- R120 `PutBit(b)`. -/
def putBit (v : Bool) (s : State) : Result Unit :=
  let p := s.wbits.toNat
  if p % 8 = 0 then
    .done () ((s.storeBytes .bits (p / 8) [0x00#8 ||| streamMask v p]).setWbits (p + 1))
  else
    match s.byteAt .bits (p / 8) with
    | none => .stuck (.unwritten .bits)
    | some b => .done () ((s.storeBytes .bits (p / 8) [b ||| streamMask v p]).setWbits (p + 1))

/-- `PutBit` of each bit in turn. -/
def putBits : List Bool → State → Result Unit
  | [], s => .done () s
  | v :: vs, s =>
    match putBit v s with
    | .done _ s' => putBits vs s'
    | .raised e s' => .raised e s'
    | .stuck f => .stuck f

/-- R121 `GetBit()`. -/
def getBit (s : State) : Result Bool :=
  let p := s.rcur.toNat
  if s.rlim.toNat ≤ p then .raised .streamExhausted s
  else
    match s.byteAt .bits (p / 8) with
    | none => .stuck (.unwritten .bits)
    | some b => .done (streamBit b p) (s.setRcur (p + 1))

/-- `cnt` calls of `GetBit`, gathered as R126 does: `v <- (v << 1) OR GetBit()`, from `v`. -/
def getBits : Nat → Nat → State → Result Nat
  | 0, v, s => .done v s
  | cnt + 1, v, s =>
    match getBit s with
    | .done b s' => getBits cnt (2 * v + b.toNat) s'
    | .raised e s' => .raised e s'
    | .stuck f => .stuck f

end Sys2Proof.Machine
end

