-- ==== Sys2Proof/Machine/Operands.lean ====
section
/-! DEFINITION. The operands of the commands: the latched argument registers (spec/30_encoding.md R85), the data
buffers that `S` selects (R82), the slots of `TREE` and the entries of `CODE` (spec/10_state.md R43, R44). -/

namespace Sys2Proof.Machine

/-! ### Argument registers -/

/-- `L.a0` as an unsigned integer: `n`, or BR_INIT's start bit (R85). -/
def State.argN (s : State) : Nat := s.latch.a0.toNat

/-- `L.a1` as an unsigned integer: the primary index, or BR_INIT's byte length (R85). -/
def State.argP (s : State) : Nat := s.latch.a1.toNat

/-! ### Data buffers -/

/-- `BUF(S)`: the window of a buffer (R10, R82). -/
def bufWindow : Buf → Window
  | .A => .bufA
  | .B => .bufB

/-- `BUF(1 − S)`: the destination of the two-buffer commands (R82). -/
def otherBuf : Buf → Buf
  | .A => .B
  | .B => .A

/-- `BUF(S)[0..n−1]`, `none` where one of these bytes has never been written. -/
def State.source (s : State) (b : Buf) (n : Nat) : Option (List Byte) := s.bytesAt (bufWindow b) 0 n

/-! ### Slots of the tree -/

/-- A node of a tree: "tagged variant: `Leaf(symbol)` vs `Internal(left, right)`, both carrying a frequency" (R43).
An internal node also has a tiebreak key (90_conflicts.md C6); a leaf's key is its symbol. -/
inductive Node where
  | leaf (sym : Byte) (freq : Nat)
  | internal (key left right : Nat) (freq : Nat)
  deriving DecidableEq, Repr

/-- A node's frequency, an exact sum (R7). -/
def Node.freq : Node → Nat
  | .leaf _ f => f
  | .internal _ _ _ f => f

/-- A node's tiebreak key (R43). -/
def Node.key : Node → Nat
  | .leaf s _ => s.toNat
  | .internal k _ _ _ => k

/-- Words 2 and 3 of a slot: the 40-bit frequency (R43). -/
def freqWords (f : Nat) : List Word := [BitVec.ofNat 32 f, (BitVec.ofNat 8 (f / 2 ^ 32)).setWidth 32]

/-- R43: the four words of a slot that holds a node. -/
def packNode : Node → List Word
  | .leaf s f => (0#24 ++ s) :: 0#32 :: freqWords f
  | .internal k l r f =>
    (1#1 ++ 0#22 ++ BitVec.ofNat 9 k) :: (0#7 ++ BitVec.ofNat 9 r ++ 0#7 ++ BitVec.ofNat 9 l) :: freqWords f

/-- R161: slots `NNODE..511` are all zero. -/
def emptySlot : List Word := [0#32, 0#32, 0#32, 0#32]

/-- R43: the node that the four words of a slot hold. -/
def unpackNode (w0 w1 w2 w3 : Word) : Node :=
  let f := w2.toNat + 2 ^ 32 * (w3.extractLsb' 0 8).toNat
  if w0.getLsbD 31 then
    .internal (w0.extractLsb' 0 9).toNat (w1.extractLsb' 0 9).toNat (w1.extractLsb' 16 9).toNat f
  else .leaf (w0.extractLsb' 0 8) f

/-- `TREE[i]`, `none` where the slot has never been written. -/
def State.slotAt (s : State) (i : Nat) : Option Node :=
  match s.wordsAt .tree (4 * i) 4 with
  | some [w0, w1, w2, w3] => some (unpackNode w0 w1 w2 w3)
  | _ => none

/-! ### Entries of the code table -/

/-- Word `1 + k` of a code entry (R44): code bit `j` at bit `31 − (j mod 32)` of word `1 + floor(j/32)`, and 0 past
the code's end. -/
def codeWord (bits : List Bool) (k : Nat) : Word :=
  BitVec.ofNat 32 ((List.range 32).foldl (fun v j => 2 * v + (bits.getD (32 * k + j) false).toNat) 0)

/-- R44: the sixteen words of a code entry: `LEN`, the code's bits, zeros. -/
def packCode (bits : List Bool) : List Word :=
  (BitVec.ofNat 8 bits.length).setWidth 32 :: (List.range 8).map (codeWord bits) ++ List.replicate 7 0#32

/-- `CODE[c].LEN`, bits [7:0] of word 0 (R44). -/
def State.codeLen (s : State) (c : Byte) : Option Nat :=
  (s.wordAt .code (16 * c.toNat)).map fun w => (w.extractLsb' 0 8).toNat

/-- `CODE[c].bits[j]` (R44). -/
def State.codeBit (s : State) (c : Byte) (j : Nat) : Option Bool :=
  (s.wordAt .code (16 * c.toNat + 1 + j / 32)).map fun w => w.getLsbD (31 - j % 32)

/-- Bits `j`, `j + 1`, … (`n` of them) of the code of symbol `c`. -/
def State.codeBits (s : State) (c : Byte) (j : Nat) : Nat → Option (List Bool)
  | 0 => some []
  | n + 1 =>
    match s.codeBit c j with
    | none => none
    | some b =>
      match s.codeBits c (j + 1) n with
      | none => none
      | some bs => some (b :: bs)

end Sys2Proof.Machine
end

