-- ==== Sys2Proof/Machine/Bus.lean ====
section
/-! DEFINITION. The host bus: the register map, the address map of the window, host reads and writes, idle and busy
(spec/10_state.md R22–R38, spec/20_memory.md R60–R68, spec/40_command_engine.md R101), and the `rst_n` input
(spec/70_reset_and_hazards.md R230). -/

namespace Sys2Proof.Machine

/-! ### Registers -/

/-- The sixteen registers (spec/10_state.md section 2). -/
inductive Reg where
  | id
  | ctrl
  | status
  | cmd
  | arg0
  | arg1
  | res0
  | res1
  | wbits
  | rcur
  | rlim
  | nleaf
  | nnode
  | root
  | capbuf
  | capbits
  deriving DecidableEq, Repr

/-- The registers in the order of their offsets. -/
def Reg.all : List Reg :=
  [.id, .ctrl, .status, .cmd, .arg0, .arg1, .res0, .res1, .wbits, .rcur, .rlim, .nleaf, .nnode, .root, .capbuf,
    .capbits]

/-- A register's byte offset (spec/10_state.md section 2). -/
def Reg.offset : Reg → Nat
  | .id => 0x000
  | .ctrl => 0x004
  | .status => 0x008
  | .cmd => 0x00C
  | .arg0 => 0x010
  | .arg1 => 0x014
  | .res0 => 0x018
  | .res1 => 0x01C
  | .wbits => 0x020
  | .rcur => 0x024
  | .rlim => 0x028
  | .nleaf => 0x02C
  | .nnode => 0x030
  | .root => 0x034
  | .capbuf => 0x038
  | .capbits => 0x03C

/-- The register at a word offset; `none` at a reserved offset (R38). -/
def regAt (off : Nat) : Option Reg := Reg.all.find? fun r => Nat.beq r.offset off

/-- R22: what `ID` reads. -/
def idWord : Word := 0x48434201#32

/-- R22–R37: what a host read of a register returns, idle or busy (R101: the registers keep their values from
acceptance to completion). -/
def State.regRead (s : State) : Reg → Word
  | .id => idWord
  | .ctrl => ctrlWord s.ie
  | .status => s.status.word
  | .cmd => s.cmd
  | .arg0 => s.arg0
  | .arg1 => s.arg1
  | .res0 => s.res0
  | .res1 => s.res1
  | .wbits => s.wbits
  | .rcur => s.rcur
  | .rlim => s.rlim
  | .nleaf => s.nleaf
  | .nnode => s.nnode
  | .root => s.root.setWidth 32
  | .capbuf => wordOf s.cfg.nbuf
  | .capbits => wordOf s.cfg.bitcap

/-- R101: a dropped write of `CMD`, `ARG0` or `ARG1` sets `OVR`. -/
def dropWrite (s : State) : State := { s with status := { s.status with ovr := true } }

/-- R23, R101, R231: a write to `CTRL`.  Idle, `SRST = 1` resets at once and leaves `IE = 0`; busy, it is remembered
in `SRSTPEND` and `IE` is set at once. -/
def writeCtrl (v : Word) (s : State) : State :=
  if s.status.busy then { s with ie := v.getLsbD 0, srstPend := s.srstPend || v.getLsbD 1 }
  else if v.getLsbD 1 then softReset s
  else { s with ie := v.getLsbD 0 }

/-- R22–R37, R101: a host write to a register.  A write to a read-only register is ignored. -/
def State.regWrite (s : State) (r : Reg) (v : Word) : State :=
  match r with
  | .ctrl => writeCtrl v s
  | .status => { s with status := s.status.writeOneToClear v }
  | .cmd => if s.status.busy then dropWrite s else accept v s
  | .arg0 => if s.status.busy then dropWrite s else { s with arg0 := v }
  | .arg1 => if s.status.busy then dropWrite s else { s with arg1 := v }
  | .id => s
  | .res0 => s
  | .res1 => s
  | .wbits => s
  | .rcur => s
  | .rlim => s
  | .nleaf => s
  | .nnode => s
  | .root => s
  | .capbuf => s
  | .capbits => s

/-! ### The address map -/

/-- The windows, in the order of their offsets (R61). -/
def Window.all : List Window := [.freq, .first, .rlist, .tree, .code, .bufA, .bufB, .bits, .rank]

/-- The first offset of a window (R61). -/
def Window.base : Window → Nat
  | .freq => 0x000400
  | .first => 0x000800
  | .rlist => 0x000C00
  | .tree => 0x001000
  | .code => 0x004000
  | .bufA => 0x100000
  | .bufB => 0x200000
  | .bits => 0x300000
  | .rank => 0x400000

/-- The number of offsets of a window (R61). -/
def Window.span : Window → Nat
  | .freq => 0x400
  | .first => 0x400
  | .rlist => 0x100
  | .tree => 0x2000
  | .code => 0x4000
  | .bufA => 0x100000
  | .bufB => 0x100000
  | .bits => 0x100000
  | .rank => 0x400000

/-- The number of bytes of a window that hold storage (R61 "cap"). -/
def Window.cap (c : Config) : Window → Nat
  | .freq => 0x400
  | .first => 0x400
  | .rlist => 0x100
  | .tree => 0x2000
  | .code => 0x4000
  | .bufA => c.nbuf
  | .bufB => c.nbuf
  | .bits => c.bitcap
  | .rank => 4 * c.nbuf

/-- R61, last column: whether the host may write the window. -/
def Window.hostWritable : Window → Bool
  | .freq => true
  | .first => false
  | .rlist => false
  | .tree => false
  | .code => false
  | .bufA => true
  | .bufB => true
  | .bits => true
  | .rank => false

/-- The window that holds offset `a`; `none` in `REG` and in the reserved ranges (R61). -/
def windowAt (a : Nat) : Option Window := Window.all.find? fun w => Nat.ble w.base a && Nat.blt a (w.base + w.span)

/-- Whether a byte of window `w` at byte offset `o` has storage that nothing has written: a host read of it has no
defined value (R49). -/
def State.laneFree (s : State) (w : Window) (o : Nat) : Bool :=
  Nat.blt o (w.cap s.cfg) && (s.byteAt w o).isNone

/-- What lane `j` of a host read returns from byte offset `o` of window `w`: 0 past the cap, the byte where it has
been written, a free byte where it has not. -/
def State.laneByte (s : State) (w : Window) (o j : Nat) : Byte :=
  bif Nat.blt o (w.cap s.cfg) then (s.byteAt w o).getD (Config.freeByte (s.freeCount + j)) else 0#8

/-- R61, R62: the word of a host read at byte offset `o` (a multiple of 4) of a window, byte `o` in the most
significant lane. -/
def State.windowWord (s : State) (w : Window) (o : Nat) : Word :=
  bytesWord (s.laneByte w o 0) (s.laneByte w (o + 1) 1) (s.laneByte w (o + 2) 2) (s.laneByte w (o + 3) 3)

/-- Whether a host read at byte offset `o` of a window takes a free byte. -/
def State.takesFree (s : State) (w : Window) (o : Nat) : Bool :=
  s.laneFree w o || s.laneFree w (o + 1) || s.laneFree w (o + 2) || s.laneFree w (o + 3)

/-! ### Host accesses -/

/-- R60: the word offset of an access: address bits [1:0] are ignored. -/
def wordOffset (a : BitVec 24) : Nat := 4 * (a.toNat / 4)

/-- Whether an offset lies in the register window, 0x00_0000–0x00_03FF (R61). -/
def inRegWindow (o : Nat) : Bool := Nat.blt o 0x400

/-- R66: a blocked access sets `ACCV`. -/
def blockAccess (s : State) : State := { s with status := { s.status with accv := true } }

/-- The state after a host read that returns `v`. -/
def State.answer (s : State) (v : Word) : State := { s with rdata := v }

/-- R60, R61, R66, R68: a host read at byte offset `a`. -/
def hostRead (a : BitVec 24) (s : State) : State :=
  let o := wordOffset a
  if inRegWindow o then
    match regAt o with
    | some r => s.answer (s.regRead r)
    | none => s.answer 0#32
  else if s.status.busy then (blockAccess s).answer 0#32
  else
    match windowAt o with
    | none => s.answer 0#32
    | some w =>
      let t := s.answer (s.windowWord w (o - w.base))
      if s.takesFree w (o - w.base) then { t with freeCount := s.freeCount + 4 } else t

/-- R61, R65: a host write of a word at byte offset `o` of a window: its bytes below the cap. -/
def State.windowWrite (s : State) (w : Window) (o : Nat) (v : Word) : State :=
  if w.hostWritable then s.storeBytes w o ((wordBytes v).take (w.cap s.cfg - o)) else s

/-- R60, R61, R65, R66, R68: a host write of `v` at byte offset `a`. -/
def hostWrite (a : BitVec 24) (v : Word) (s : State) : State :=
  let o := wordOffset a
  if inRegWindow o then
    match regAt o with
    | some r => s.regWrite r v
    | none => s
  else if s.status.busy then blockAccess s
  else
    match windowAt o with
    | none => s
    | some w => s.windowWrite w (o - w.base) v

/-- One event other than the engine's turn (for which it leaves the state as it is): a host access, refused while
`rst_n` is low (93_implementation_defined.md item 11), or an edge of `rst_n` (R230). -/
def busEvent (e : Event) (s : State) : Host.Outcome State Fault Refusal :=
  match e with
  | .read a => if s.rstLow then .refused .accessInReset else .next (hostRead a s)
  | .write a v => if s.rstLow then .refused .accessInReset else .next (hostWrite a v s)
  | .engine => .next s
  | .rstFall => .next { powerOnReset s with rstLow := true }
  | .rstRise => .next { s with rstLow := false }

/-- Whether the next step runs the accepted command: it is the engine's turn and a command is running (R102). -/
def engineRuns (s : State) : Bool := decide (nextEvent s = .engine) && s.status.busy

/-- R100: the state in which the word `w` has just been accepted and the engine moves next. -/
def placeCommand (w : Word) (s : State) : State := { accept w s with schedule := .engine :: s.schedule }

end Sys2Proof.Machine
end

