-- ==== Sys2Proof/Machine/BitStream.lean ====
section
/-! DEFINITION. The bit-stream packer and unpacker (spec/41_bitstream.md R122–R126). -/

namespace Sys2Proof.Machine

/-- R122: BW_INIT. -/
def runBwInit (s : State) : Result Unit := .done () (s.setWbits 0)

/-- BW_INIT (R122). -/
def execBwInit (s : State) : Host.Outcome State Fault Refusal := (runBwInit (begin s)).commit

/-- The low `cnt` bits of `v`, bit `cnt − 1` first (R123). -/
def lowBits (v : Word) : Nat → List Bool
  | 0 => []
  | j + 1 => v.getLsbD j :: lowBits v j

/-- R123: BW_PUT. -/
def runBwPut (cnt : Nat) (s : State) : Result Unit :=
  if 8 * s.cfg.bitcap < s.wbits.toNat + cnt then .raised .bufferOverflow (s.setRes s.wbits.toNat 0)
  else
    match putBits (lowBits s.latch.a0 cnt) s with
    | .done _ s' => .done () (s'.setRes s'.wbits.toNat 0)
    | .raised e s' => .raised e s'
    | .stuck f => .stuck f

/-- BW_PUT (R123). -/
def execBwPut (cnt : Nat) (s : State) : Host.Outcome State Fault Refusal := (runBwPut cnt (begin s)).commit

/-- R124: the pad bits of a flush. -/
def padOf (p : Nat) : Nat := (8 - p % 8) % 8

/-- R124: BW_FLUSH. -/
def runBwFlush (s : State) : Result Unit :=
  let pad := padOf s.wbits.toNat
  let p := s.wbits.toNat + pad
  .done () ((s.setWbits p).setRes (p / 8) pad)

/-- BW_FLUSH (R124). -/
def execBwFlush (s : State) : Host.Outcome State Fault Refusal := (runBwFlush (begin s)).commit

/-- R125: BR_INIT; `start = L.a0`, `len = L.a1`. -/
def runBrInit (s : State) : Result Unit :=
  let start := s.argN
  let len := s.argP
  if s.cfg.bitcap < len then .raised .badArg s
  else if 8 * len < start then .raised .badArg s
  else .done () ({ s with rcur := wordOf start, rlim := wordOf (8 * len) }.setRes (8 * len - start) 0)

/-- BR_INIT (R125). -/
def execBrInit (s : State) : Host.Outcome State Fault Refusal := (runBrInit (begin s)).commit

/-- R126: BR_GET. -/
def runBrGet (cnt : Nat) (s : State) : Result Unit :=
  if s.rlim.toNat < s.rcur.toNat + cnt then .raised .streamExhausted s
  else
    match getBits cnt 0 s with
    | .done v s' => .done () (s'.setRes v s'.rcur.toNat)
    | .raised e s' => .raised e s'
    | .stuck f => .stuck f

/-- BR_GET (R126). -/
def execBrGet (cnt : Nat) (s : State) : Host.Outcome State Fault Refusal := (runBrGet cnt (begin s)).commit

end Sys2Proof.Machine
end

