-- ==== Sys2Proof/Machine/Engine.lean ====
section
/-! DEFINITION. The command engine's own command, NOP (spec/40_command_engine.md R103). -/

namespace Sys2Proof.Machine

/-- R103: NOP does nothing and completes. -/
def runNop (s : State) : Result Unit := .done () s

/-- NOP (R103). -/
def execNop (s : State) : Host.Outcome State Fault Refusal := (runNop (begin s)).commit

end Sys2Proof.Machine
end

