-- ==== Sys2Proof/Machine/Huffman.lean ====
section
/-! DEFINITION. The Huffman unit: frequency count, tree builder, prefix-code generator, encoder and decoder
(spec/43_huffman.md R160–R164). -/

namespace Sys2Proof.Machine

/-! ### Frequency count -/

/-- R160: `#{ i : src[i] = s }` for every symbol `s` in 0..255. -/
def frequencies (src : List Byte) : List Nat := (List.range 256).map fun c => src.count (BitVec.ofNat 8 c)

/-- R160: the number of symbols with a non-zero count. -/
def distinct (fs : List Nat) : Nat := fs.countP fun f => decide (0 < f)

/-- R160: FREQ_COUNT; `n = L.a0`. -/
def runFreqCount (b : Buf) (s : State) : Result Unit :=
  let n := s.argN
  if s.cfg.nbuf < n then .raised .badArg s
  else
    match s.source b n with
    | none => .stuck (.unwritten (bufWindow b))
    | some src =>
      let fs := frequencies src
      .done () ((s.storeWords .freq 0 (fs.map wordOf)).setRes n (distinct fs))

/-- FREQ_COUNT (R160). -/
def execFreqCount (b : Buf) (s : State) : Host.Outcome State Fault Refusal := (runFreqCount b (begin s)).commit

/-! ### Tree construction -/

/-- R161: the leaves, in ascending symbol order; `c` is the symbol of the list's first count. -/
def leavesFrom (c : Nat) : List Nat → List Node
  | [] => []
  | f :: fs => if 0 < f then .leaf (BitVec.ofNat 8 c) f :: leavesFrom (c + 1) fs else leavesFrom (c + 1) fs

/-- R161: the order of extraction, `(FREQ, KEY)` compared lexicographically. -/
def Node.before (a b : Node) : Bool :=
  Nat.blt a.freq b.freq || (Nat.beq a.freq b.freq && Nat.blt a.key b.key)

/-- The least node, by `Node.before`, among `x` and a list of slots with their nodes. -/
def leastOf (x : Nat × Node) : List (Nat × Node) → Nat × Node
  | [] => x
  | y :: ys => if y.2.before x.2 then leastOf y ys else leastOf x ys

/-- R161: takes the least node out of the pool. -/
def takeLeast : List (Nat × Node) → Option ((Nat × Node) × List (Nat × Node))
  | [] => none
  | x :: xs =>
    let a := leastOf x xs
    some (a, (x :: xs).filter fun y => !Nat.beq y.1 a.1)

/-- R161: the node of merge `m`: key `256 + m`, the first node taken on the left and the second on the right. -/
def mergeNode (m : Nat) (a b : Nat × Node) : Node := .internal (256 + m) a.1 b.1 (a.2.freq + b.2.freq)

/-- R161, the merge loop: `r` merges, from merge `m` on, over a pool whose new nodes take the slots `k + m`, …; the
internal nodes in creation order. -/
def mergeFrom (k : Nat) : Nat → Nat → List (Nat × Node) → List Node
  | 0, _, _ => []
  | r + 1, m, pool =>
    match takeLeast pool with
    | none => []
    | some (a, pool1) =>
      match takeLeast pool1 with
      | none => []
      | some (b, pool2) => mergeNode m a b :: mergeFrom k r (m + 1) ((k + m, mergeNode m a b) :: pool2)

/-- The nodes with their slots, from slot `i` on. -/
def slotsFrom (i : Nat) : List Node → List (Nat × Node)
  | [] => []
  | x :: xs => (i, x) :: slotsFrom (i + 1) xs

/-- R161: all nodes of the tree of a frequency table, by slot: the leaves, then the `k − 1` internal nodes. -/
def buildNodes (fs : List Nat) : List Node :=
  let ls := leavesFrom 0 fs
  ls ++ mergeFrom ls.length (ls.length - 1) 0 (slotsFrom 0 ls)

/-- `NNODE` of a tree with `k` leaves (R34, R161). -/
def nnodeOf (k : Nat) : Nat := if k = 0 then 0 else 2 * k - 1

/-- `ROOT` of a tree with `k` leaves (R35, R161). -/
def rootOf (k : Nat) : Nat := if k = 0 then 0x1FF else 2 * k - 2

/-- R161: the contents of all 512 slots, as words: the nodes, then zero slots. -/
def treeWords (nodes : List Node) : List Word :=
  nodes.flatMap packNode ++ (List.replicate (512 - nodes.length) emptySlot).flatten

/-- R161: HUF_BUILD. -/
def runHufBuild (s : State) : Result Unit :=
  match s.wordsAt .freq 0 256 with
  | none => .stuck (.unwritten .freq)
  | some ws =>
    let fs := ws.map BitVec.toNat
    let k := (leavesFrom 0 fs).length
    let t := s.storeWords .tree 0 (treeWords (buildNodes fs))
    .done ()
      ({ t with
          nleaf := wordOf k
          nnode := wordOf (nnodeOf k)
          root := BitVec.ofNat 9 (rootOf k)
          status := t.status.treeBuilt k }.setRes k (nnodeOf k))

/-- HUF_BUILD (R161). -/
def execHufBuild (s : State) : Host.Outcome State Fault Refusal := (runHufBuild (begin s)).commit

/-! ### Code generation -/

/-- R162 `walk(i, c)`: the symbols met below slot `i`, each with its path, `c` the path so far.  The first argument
bounds the depth; a tree of HUF_BUILD has depth at most 255 (R7), and a stored tree whose children lie in lower slots
at most 511.  DESIGN CHOICE, notes/assumptions/10.md. -/
def walkCodes (s : State) : Nat → Nat → List Bool → Except Fault (List (Byte × List Bool))
  | 0, _, _ => .error .treeTooDeep
  | d + 1, i, c =>
    match s.slotAt i with
    | none => .error (.unwritten .tree)
    | some (.leaf sym _) => .ok [(sym, c)]
    | some (.internal _ l r _) =>
      match walkCodes s d l (c ++ [false]) with
      | .error f => .error f
      | .ok left =>
        match walkCodes s d r (c ++ [true]) with
        | .error f => .error f
        | .ok right => .ok (left ++ right)

/-- R162: the codes that HUF_CODES assigns, in the order of its walk: none without a leaf, the one bit 0 for a lone
leaf, the leaves' paths otherwise. -/
def assignedCodes (s : State) : Except Fault (List (Byte × List Bool)) :=
  if s.nleaf.toNat = 0 then .ok []
  else if s.nleaf.toNat = 1 then
    match s.slotAt s.root.toNat with
    | none => .error (.unwritten .tree)
    | some nd => .ok [(BitVec.ofNat 8 nd.key, [false])]
  else walkCodes s 512 s.root.toNat []

/-- The code of a symbol: the last one assigned to it, the empty string where none was (`LEN = 0`). -/
def codeIn (codes : List (Byte × List Bool)) (c : Byte) : List Bool := (codes.reverse.lookup c).getD []

/-- R162 `maxlen`. -/
def maxLen (codes : List (Byte × List Bool)) : Nat := codes.foldl (fun m x => max m x.2.length) 0

/-- R162: the contents of all 256 entries of `CODE`, as words. -/
def codeWords (codes : List (Byte × List Bool)) : List Word :=
  (List.range 256).flatMap fun c => packCode (codeIn codes (BitVec.ofNat 8 c))

/-- R162: HUF_CODES. -/
def runHufCodes (s : State) : Result Unit :=
  if s.status.treev = false then .raised .sequence s
  else
    match assignedCodes s with
    | .error f => .stuck f
    | .ok codes =>
      let t := s.storeWords .code 0 (codeWords codes)
      .done () ({ t with status := t.status.codesBuilt }.setRes (maxLen codes) s.nleaf.toNat)

/-- HUF_CODES (R162). -/
def execHufCodes (s : State) : Host.Outcome State Fault Refusal := (runHufCodes (begin s)).commit

/-! ### Encoding -/

/-- R163, the loop: `k` symbols from `src[i]` on. -/
def encodeFrom (b : Buf) (i : Nat) : Nat → State → Result Unit
  | 0, s => .done () (s.setRes i s.wbits.toNat)
  | k + 1, s =>
    match s.byteAt (bufWindow b) i with
    | none => .stuck (.unwritten (bufWindow b))
    | some c =>
      match s.codeLen c with
      | none => .stuck (.unwritten .code)
      | some len =>
        if len = 0 then .raised .noCode (s.setRes i s.wbits.toNat)
        else if 8 * s.cfg.bitcap < s.wbits.toNat + len then .raised .bufferOverflow (s.setRes i s.wbits.toNat)
        else
          match s.codeBits c 0 len with
          | none => .stuck (.unwritten .code)
          | some bits =>
            match putBits bits s with
            | .done _ s' => encodeFrom b (i + 1) k s'
            | .raised e s' => .raised e s'
            | .stuck f => .stuck f

/-- R163: HUF_ENCODE; `n = L.a0`. -/
def runHufEncode (b : Buf) (s : State) : Result Unit :=
  if s.status.codev = false then .raised .sequence s
  else if s.cfg.nbuf < s.argN then .raised .badArg s
  else encodeFrom b 0 s.argN s

/-- HUF_ENCODE (R163). -/
def execHufEncode (b : Buf) (s : State) : Host.Outcome State Fault Refusal := (runHufEncode b (begin s)).commit

/-! ### Decoding -/

/-- R164, the inner loop: from slot `node` down to a leaf, one bit a step, to the leaf's symbol.  The first argument
is the number of bits left before `RLIM`: each step consumes one, and with none left the next bit is
`STREAM_EXHAUSTED`, with `RES0 = i` and `RES1` the bits consumed since `start`. -/
def walkDown (i start : Nat) : Nat → Nat → State → Result Byte
  | 0, node, s =>
    match s.slotAt node with
    | none => .stuck (.unwritten .tree)
    | some (.leaf sym _) => .done sym s
    | some (.internal _ _ _ _) => .raised .streamExhausted (s.setRes i (s.rcur.toNat - start))
  | left + 1, node, s =>
    match s.slotAt node with
    | none => .stuck (.unwritten .tree)
    | some (.leaf sym _) => .done sym s
    | some (.internal _ l r _) =>
      match getBit s with
      | .done b s' => walkDown i start left (bif b then r else l) s'
      | .raised e s' => .raised e s'
      | .stuck f => .stuck f

/-- R164, the outer loop: `k` symbols into `dst[i]`, `dst[i+1]`, …, with the bits from `RCUR` on. -/
def decodeFrom (b : Buf) (start i : Nat) : Nat → State → Result Unit
  | 0, s => .done () (s.setRes i (s.rcur.toNat - start))
  | k + 1, s =>
    match walkDown i start (s.rlim.toNat - s.rcur.toNat) s.root.toNat s with
    | .done sym s' => decodeFrom b start (i + 1) k (s'.storeBytes (bufWindow b) i [sym])
    | .raised e s' => .raised e s'
    | .stuck f => .stuck f

/-- R164, the lone leaf: `n` copies of its symbol, no bit consumed. -/
def decodeLone (b : Buf) (n : Nat) (s : State) : Result Unit :=
  if n = 0 then .done () (s.setRes 0 0)
  else
    match s.slotAt s.root.toNat with
    | none => .stuck (.unwritten .tree)
    | some nd =>
      .done () ((s.storeBytes (bufWindow b) 0 (List.replicate n (BitVec.ofNat 8 nd.key))).setRes n 0)

/-- R164: HUF_DECODE; `n = L.a0`. -/
def runHufDecode (b : Buf) (s : State) : Result Unit :=
  let n := s.argN
  let k := s.nleaf.toNat
  if s.status.treev = false then .raised .sequence s
  else if s.cfg.nbuf < n then .raised .badArg s
  else if 0 < n ∧ k = 0 then .raised .malformedHeader s
  else if 2 ≤ k ∧ s.rlim.toNat - s.rcur.toNat < n then .raised .malformedHeader s
  else if k = 1 then decodeLone b n s
  else decodeFrom b s.rcur.toNat 0 n s

/-- HUF_DECODE (R164). -/
def execHufDecode (b : Buf) (s : State) : Host.Outcome State Fault Refusal := (runHufDecode b (begin s)).commit

end Sys2Proof.Machine
end

