-- ==== Sys2Proof/Machine/RankMap.lean ====
section
/-! DEFINITION. The rank-mapper: the inverse block transform and the rank-list transform
(spec/42_rankmap.md R140–R143). -/

namespace Sys2Proof.Machine

/-! ### Rank-list transform -/

/-- The identity order `[0, 1, ..., 255]` (R140). -/
def identityOrder : List Byte := (List.range 256).map (BitVec.ofNat 8)

/-- R140 `MoveToFront(W, r)`: the entry of rank `r` is removed and reinserted at the front.  Defaults of list reads in
this file are never taken (DEDUCED, notes/assumptions/12.md). -/
def moveToFront (w : List Byte) (r : Nat) : List Byte := w.getD r 0#8 :: w.eraseIdx r

/-- R142: the rank of `c`, the unique `r` with `W[r] = c`. -/
def rankIn (w : List Byte) (c : Byte) : Nat := w.idxOf c

/-- R142, the loop over the source: the ranks emitted, and the list after the last byte. -/
def mtfForward : List Byte → List Byte → List Byte × List Byte
  | w, [] => ([], w)
  | w, c :: cs =>
    let r := rankIn w c
    let rest := mtfForward (moveToFront w r) cs
    (BitVec.ofNat 8 r :: rest.1, rest.2)

/-- R143, the loop over the source: the bytes emitted, and the list after the last rank. -/
def mtfInverse : List Byte → List Byte → List Byte × List Byte
  | w, [] => ([], w)
  | w, r :: rs =>
    let c := w.getD r.toNat 0#8
    let rest := mtfInverse (moveToFront w r.toNat) rs
    (c :: rest.1, rest.2)

/-- The shape R142 and R143 share: check `n`, read the source, transform it from the identity order, write the
destination and `RLIST`. -/
def runRankList (transform : List Byte → List Byte → List Byte × List Byte) (b : Buf) (s : State) : Result Unit :=
  let n := s.argN
  if s.cfg.nbuf < n then .raised .badArg s
  else
    match s.source b n with
    | none => .stuck (.unwritten (bufWindow b))
    | some src =>
      let out := transform identityOrder src
      .done () (((s.storeBytes (bufWindow (otherBuf b)) 0 out.1).storeBytes .rlist 0 out.2).setRes n 0)

/-- R142: MTF_FWD. -/
def runMtfFwd (b : Buf) (s : State) : Result Unit := runRankList mtfForward b s

/-- MTF_FWD (R142). -/
def execMtfFwd (b : Buf) (s : State) : Host.Outcome State Fault Refusal := (runMtfFwd b (begin s)).commit

/-- R143: MTF_INV. -/
def runMtfInv (b : Buf) (s : State) : Result Unit := runRankList mtfInverse b s

/-- MTF_INV (R143). -/
def execMtfInv (b : Buf) (s : State) : Host.Outcome State Fault Refusal := (runMtfInv b (begin s)).commit

/-! ### Inverse block transform -/

/-- The working counts at their start: `cnt[c] <- 0 for every c in 0..255` (R141). -/
def zeroCounts : List Nat := List.replicate 256 0

/-- R141, first loop: `RANK[i] <- cnt[c]; cnt[c] <- cnt[c] + 1` along the source; the ranks and the final counts. -/
def rankPass : List Nat → List Byte → List Nat × List Nat
  | cnt, [] => ([], cnt)
  | cnt, c :: cs =>
    let k := cnt.getD c.toNat 0
    let rest := rankPass (cnt.set c.toNat (k + 1)) cs
    (k :: rest.1, rest.2)

/-- R141, second loop: `FIRST[c] <- acc; acc <- acc + cnt[c]`. -/
def firstPass : Nat → List Nat → List Nat
  | _, [] => []
  | acc, k :: cnt => acc :: firstPass (acc + k) cnt

/-- `rankOf[i]`, for every position of a sequence (00_scope.md section 7). -/
def rankTable (src : List Byte) : List Nat := (rankPass zeroCounts src).1

/-- `firstOccurrence[c]`, for every byte value (00_scope.md section 7). -/
def firstTable (src : List Byte) : List Nat := firstPass 0 (rankPass zeroCounts src).2

/-- R141, R145: `LF(i) = FIRST[src[i]] + RANK[i]`.  `first` and `rank` are the two tables of `src`. -/
def lfMap (src : List Byte) (first rank : List Nat) (i : Nat) : Nat :=
  first.getD (src.getD i 0#8).toNat 0 + rank.getD i 0

/-- R141, third loop: `steps` steps of the walk from `idx`, filling the output back to front; `out` holds what the
earlier steps placed behind.  The output and the index after the last step.  Every index met is below the sequence's
length (R141), so no default is read. -/
def bwtWalk (src : List Byte) (first rank : List Nat) : Nat → Nat → List Byte → List Byte × Nat
  | 0, idx, out => (out, idx)
  | steps + 1, idx, out => bwtWalk src first rank steps (lfMap src first rank idx) (src.getD idx 0#8 :: out)

/-- R141: BWT_INV; `n = L.a0`, `p = L.a1`. -/
def runBwtInv (b : Buf) (s : State) : Result Unit :=
  let n := s.argN
  let p := s.argP
  if n = 0 ∨ s.cfg.nbuf < n then .raised .badArg s
  else if n ≤ p then .raised .malformedHeader s
  else
    match s.source b n with
    | none => .stuck (.unwritten (bufWindow b))
    | some src =>
      let rank := rankTable src
      let first := firstTable src
      let walk := bwtWalk src first rank n p []
      .done ()
        ((((s.storeWords .rank 0 (rank.map wordOf)).storeWords .first 0 (first.map wordOf)).storeBytes
          (bufWindow (otherBuf b)) 0 walk.1).setRes (n - 1) walk.2)

/-- BWT_INV (R141). -/
def execBwtInv (b : Buf) (s : State) : Host.Outcome State Fault Refusal := (runBwtInv b (begin s)).commit

end Sys2Proof.Machine
end

