-- ==== Sys2Proof/Machine/Dispatch.lean ====
section
/-! DEFINITION. One arm per command (spec/30_encoding.md R81). -/

namespace Sys2Proof.Machine

def exec (i : Instr) (s : State) : Host.Outcome State Fault Refusal :=
  match i with
  | .nop => Sys2Proof.Machine.execNop s
  | .freqCount b => Sys2Proof.Machine.execFreqCount b s
  | .hufBuild => Sys2Proof.Machine.execHufBuild s
  | .hufCodes => Sys2Proof.Machine.execHufCodes s
  | .hufEncode b => Sys2Proof.Machine.execHufEncode b s
  | .hufDecode b => Sys2Proof.Machine.execHufDecode b s
  | .bwInit => Sys2Proof.Machine.execBwInit s
  | .bwPut cnt => Sys2Proof.Machine.execBwPut cnt s
  | .bwFlush => Sys2Proof.Machine.execBwFlush s
  | .brInit => Sys2Proof.Machine.execBrInit s
  | .brGet cnt => Sys2Proof.Machine.execBrGet cnt s
  | .mtfFwd b => Sys2Proof.Machine.execMtfFwd b s
  | .mtfInv b => Sys2Proof.Machine.execMtfInv b s
  | .bwtInv b => Sys2Proof.Machine.execBwtInv b s

end Sys2Proof.Machine
end

