-- ==== Sys2Proof/Machine/Step.lean ====
section
/-! DEFINITION. One step: the next event of the total order of host accesses and command completions
(spec/20_memory.md R70, R71; spec/40_command_engine.md R102). -/

namespace Sys2Proof.Machine

/-- One event; cycles are left out (notes/assumptions/15.md).  The engine's turn runs and completes the latched command in one step (R102); a latched word that is no
command completes with `ILLEGAL_CMD` (R86). -/
def step (s : State) : Host.Outcome State Fault Refusal :=
  if engineRuns s then
    match fetch s with
    | .ok i => exec i (popEvent s)
    | .error _ => .next (completeIllegal (popEvent s))
  else busEvent (nextEvent s) (popEvent s)

/-- The host has written the command word `w` to `CMD`, with the operands now in `ARG0` and `ARG1`, and the engine
moves next, so that the next step runs that command (notes/assumptions/6.md). -/
def State.withFetchWord (s : State) (_nbits w : Nat) : State := placeCommand (wordOf w) s

end Sys2Proof.Machine
end

