-- ==== Sys2Proof/Machine/HostProgram.lean ====
section
/-! DEFINITION. Host programs: the command syntax, the host statements and the pseudo-instructions, each as the bus
accesses it stands for (spec/30_encoding.md R88–R90, spec/20_memory.md R60). -/

namespace Sys2Proof.Machine

/-! ### Host bus addresses -/

/-- The host bus address of a byte offset: `BASE + off` (R6, R88). -/
def busAddress (c : Config) (off : BitVec 24) : Nat := c.base + off.toNat

/-- The byte offset that a host bus address names in the window, `none` outside the window (R60). -/
def offsetOf (c : Config) (addr : Nat) : Option (BitVec 24) :=
  if c.base ≤ addr ∧ addr < c.base + 2 ^ 24 then some (BitVec.ofNat 24 (addr - c.base)) else none

/-- The event of `MemRead(addr, 4)` on the host bus; an address outside the window does not reach the HCB. -/
def memRead (c : Config) (addr : Nat) : List Event :=
  match offsetOf c addr with
  | some a => [.read a]
  | none => []

/-- The event of `MemWrite(addr, 4, v)` on the host bus; an address outside the window does not reach the HCB. -/
def memWrite (c : Config) (addr : Nat) (v : Word) : List Event :=
  match offsetOf c addr with
  | some a => [.write a v]
  | none => []

/-! ### Host statements -/

/-- A register name as an offset (R89). -/
def Reg.byteOffset (r : Reg) : BitVec 24 := BitVec.ofNat 24 r.offset

/-- `W off, v` (R89). -/
def stmtW (off : BitVec 24) (v : Word) : List Event := [.write off v]

/-- `R off` (R89). -/
def stmtR (off : BitVec 24) : List Event := [.read off]

/-- `WAIT` (R89): the host reads `STATUS` until `BUSY` reads 0.  One completed wait: the engine's turn, then the read
that returns `BUSY = 0` (notes/assumptions/4.md). -/
def stmtWait : List Event := .engine :: stmtR Reg.status.byteOffset

/-- The words of a byte list in the lane order of R62, the last one padded with 0x00 (R89 `LOAD`). -/
def packWords : List Byte → List Word
  | [] => []
  | [b0] => [bytesWord b0 0#8 0#8 0#8]
  | [b0, b1] => [bytesWord b0 b1 0#8 0#8]
  | [b0, b1, b2] => [bytesWord b0 b1 b2 0#8]
  | b0 :: b1 :: b2 :: b3 :: bs => bytesWord b0 b1 b2 b3 :: packWords bs

/-- Writes of words at offsets `off`, `off + 4`, …. -/
def writeWords (off : Nat) : List Word → List Event
  | [] => []
  | v :: vs => .write (BitVec.ofNat 24 off) v :: writeWords (off + 4) vs

/-- `LOAD window, off, b0 b1 ...` (R89). -/
def stmtLoad (w : Window) (off : Nat) (bs : List Byte) : List Event := writeWords (w.base + off) (packWords bs)

/-- `LOADW window, i, v0 v1 ...` (R89). -/
def stmtLoadW (w : Window) (i : Nat) (vs : List Word) : List Event := writeWords (w.base + 4 * i) vs

/-! ### Commands -/

/-- The accesses of a command line (R88): `ARG0` and `ARG1` if the line gives them, then the command word, then
`WAIT`. -/
def issue (i : Instr) (a0 a1 : Option Word) : List Event :=
  (match a0 with | some v => stmtW Reg.arg0.byteOffset v | none => []) ++
    (match a1 with | some v => stmtW Reg.arg1.byteOffset v | none => []) ++
    stmtW Reg.cmd.byteOffset (encode i) ++ stmtWait

/-- A command line (R88): the mnemonic, the suffix, the operands. -/
structure CmdLine where
  mnemonic : String
  suffix : Option Buf
  operands : List Nat
  deriving DecidableEq, Repr

/-- R88: an absent suffix means `.A`. -/
def CmdLine.buf (l : CmdLine) : Buf := l.suffix.getD .A

/-- R88: the command of a line with its `ARG0` and `ARG1` operands; `none` for a line that R88 does not allow (an
unknown mnemonic, a suffix on a command without `S`, a wrong number of operands). -/
def CmdLine.command (l : CmdLine) : Option (Instr × Option Nat × Option Nat) :=
  match l.mnemonic, l.operands with
  | "FREQ_COUNT", [n] => some (.freqCount l.buf, some n, none)
  | "HUF_ENCODE", [n] => some (.hufEncode l.buf, some n, none)
  | "HUF_DECODE", [n] => some (.hufDecode l.buf, some n, none)
  | "MTF_FWD", [n] => some (.mtfFwd l.buf, some n, none)
  | "MTF_INV", [n] => some (.mtfInv l.buf, some n, none)
  | "BWT_INV", [n, p] => some (.bwtInv l.buf, some n, some p)
  | "BW_PUT", [cnt, v] => if l.suffix.isNone then some (.bwPut cnt, some v, none) else none
  | "BR_INIT", [start, len] => if l.suffix.isNone then some (.brInit, some start, some len) else none
  | "BR_GET", [cnt] => if l.suffix.isNone then some (.brGet cnt, none, none) else none
  | "NOP", [] => if l.suffix.isNone then some (.nop, none, none) else none
  | "HUF_BUILD", [] => if l.suffix.isNone then some (.hufBuild, none, none) else none
  | "HUF_CODES", [] => if l.suffix.isNone then some (.hufCodes, none, none) else none
  | "BW_INIT", [] => if l.suffix.isNone then some (.bwInit, none, none) else none
  | "BW_FLUSH", [] => if l.suffix.isNone then some (.bwFlush, none, none) else none
  | _, _ => none

/-- Whether an operand, if there is one, fits its 32-bit register. -/
def fitsWord : Option Nat → Bool
  | none => true
  | some n => Nat.blt n (2 ^ 32)

/-- R88: the bus accesses of a command line, `none` for a line that is no command (a bit count outside 1..32 or a value
of more than 32 bits among the reasons). -/
def CmdLine.events (l : CmdLine) : Option (List Event) :=
  match l.command with
  | none => none
  | some (i, a0, a1) =>
    if i.wellFormed && fitsWord a0 && fitsWord a1 then some (issue i (a0.map wordOf) (a1.map wordOf)) else none

/-! ### The text of a command line -/

/-- The value of a digit, of either case. -/
def digitOf (c : Char) : Option Nat :=
  if '0' ≤ c ∧ c ≤ '9' then some (c.toNat - 48)
  else if 'a' ≤ c ∧ c ≤ 'f' then some (c.toNat - 87)
  else if 'A' ≤ c ∧ c ≤ 'F' then some (c.toNat - 55)
  else none

/-- The number that digits spell in a base, after the digits of value `v`. -/
def parseDigits (base v : Nat) : List Char → Option Nat
  | [] => some v
  | c :: cs =>
    match digitOf c with
    | none => none
    | some d => if d < base then parseDigits base (base * v + d) cs else none

/-- R88: a number, decimal, or hexadecimal after `0x`. -/
def parseNumber : List Char → Option Nat
  | [] => none
  | '0' :: 'x' :: [] => none
  | '0' :: 'x' :: cs => parseDigits 16 0 cs
  | cs => parseDigits 10 0 cs

/-- Splits a text at each separator. -/
def splitChars (sep : Char) : List Char → List (List Char)
  | [] => [[]]
  | c :: cs =>
    match splitChars sep cs with
    | [] => [[c]]
    | t :: ts => if c = sep then [] :: t :: ts else (c :: t) :: ts

/-- A text without the blanks at its two ends. -/
def trimChars (cs : List Char) : List Char :=
  ((cs.dropWhile (· = ' ')).reverse.dropWhile (· = ' ')).reverse

/-- The operands of a text, separated by commas; no text is no operand. -/
def parseOperands (cs : List Char) : Option (List Nat) :=
  match trimChars cs with
  | [] => some []
  | t => (splitChars ',' t).mapM fun o => parseNumber (trimChars o)

/-- The suffix of a mnemonic: `.A`, `.B` or none (R88). -/
def parseSuffix : List (List Char) → Option (List Char × Option Buf)
  | [m] => some (m, none)
  | [m, ['A']] => some (m, some .A)
  | [m, ['B']] => some (m, some .B)
  | _ => none

/-- R88: a line's text, `MNEMONIC[.A|.B] [operand {, operand}]`; its details are DEDUCED, notes/assumptions/11.md. -/
def parseLine (cs : List Char) : Option CmdLine :=
  let t := trimChars cs
  let head := t.takeWhile (· ≠ ' ')
  match parseSuffix (splitChars '.' head), parseOperands (t.drop head.length) with
  | some (m, suf), some ops => some { mnemonic := String.ofList m, suffix := suf, operands := ops }
  | _, _ => none

/-! ### Pseudo-instructions -/

/-- The pseudo-instructions of R90. -/
inductive Pseudo where
  | bwPutBit (b : Bool)
  | brGetBit
  | hufMake
  | hufFrom (x : Buf) (n : Word)
  | pack (x : Buf) (n : Word)
  | unpack (x : Buf) (n len : Word)
  | clrDone
  | softReset
  deriving DecidableEq, Repr

/-- R90: the expansion of a pseudo-instruction, each command followed by its `WAIT`. -/
def Pseudo.events : Pseudo → List Event
  | .bwPutBit b => issue (.bwPut 1) (some ((BitVec.ofBool b).setWidth 32)) none
  | .brGetBit => issue (.brGet 1) none none
  | .hufMake => issue .hufBuild none none ++ issue .hufCodes none none
  | .hufFrom x n => issue (.freqCount x) (some n) none ++ issue .hufBuild none none ++ issue .hufCodes none none
  | .pack x n => issue .bwInit none none ++ issue (.hufEncode x) (some n) none ++ issue .bwFlush none none
  | .unpack x n len => issue .brInit (some 0#32) (some len) ++ issue (.hufDecode x) (some n) none
  | .clrDone => stmtW Reg.status.byteOffset 0x00000002#32
  | .softReset => stmtW Reg.ctrl.byteOffset 0x00000002#32 ++ stmtWait

end Sys2Proof.Machine
end

