-- ==== Sys2Proof/Safety.lean ====
section
/-! DEFINITION. The terms in which claims are made: what a command reports, what it leaves alone, what bits it
appends, what a stored tree says, and the invariants of the machine. -/

namespace Sys2Proof.Machine

/-! ### Reports -/

/-- The flags after a success (R102, R205): `BUSY = 0`, `DONE = 1`, `ERR = 0`, `ERRCODE = 0`; the others unchanged. -/
def Status.succeeded (t : Status) : Status := { t with busy := false, done := true, err := false, errcode := 0#4 }

/-- The flags after an error of the given code (R102, R200): `BUSY = 0`, `DONE = 1`, `ERR = 1`; the others
unchanged. -/
def Status.failed (code : BitVec 4) (t : Status) : Status :=
  { t with busy := false, done := true, err := true, errcode := code }

/-! ### Memory -/

/-- Memory `w` holds the bytes `bs` from offset `o` on. -/
abbrev State.holds (s : State) (w : Window) (o : Nat) (bs : List Byte) : Prop :=
  ∀ i, i < bs.length → s.byteAt w (o + i) = bs[i]?

/-- Word memory `w` holds the words `vs` from entry `i` on. -/
abbrev State.holdsWords (s : State) (w : Window) (i : Nat) (vs : List Word) : Prop :=
  ∀ j, j < vs.length → s.wordAt w (i + j) = vs[j]?

/-- Every byte of every memory but those named reads in `t` as in `s`. -/
def SameBut (ws : List Window) (s t : State) : Prop := ∀ w, w ∉ ws → ∀ o, t.byteAt w o = s.byteAt w o

/-- Memory `w` holds `bs` from its start, and every later byte of it reads as in `s`. -/
def Overwritten (w : Window) (bs : List Byte) (s t : State) : Prop :=
  ∀ o, t.byteAt w o = if o < bs.length then bs[o]? else s.byteAt w o

/-! ### The bit stream -/

/-- Stream bit `q` as R63 places it: bit `7 − (q mod 8)` of `BITS[floor(q/8)]`; `none` where that byte has never been
written. -/
def State.streamAt (s : State) (q : Nat) : Option Bool :=
  (s.byteAt .bits (q / 8)).map fun b => b.getLsbD (7 - q % 8)

/-- The byte the writer is in the middle of, if it is in the middle of one, has been written (R120: the byte it ORs
into "was written by PutBit in the same stream"). -/
abbrev State.partialByteWritten (s : State) : Prop :=
  s.wbits.toNat % 8 ≠ 0 → (s.byteAt .bits (s.wbits.toNat / 8)).isSome

/-- What R120 makes of a stream when `bits` are appended at the writer's position `p`: `WBITS` moves past them; in
the bytes they reach, each bit is the appended bit there (0 before and past them) ORed with the bit that was there,
if the byte is the partial byte the writer was in; every other byte reads as before. -/
def BitsAppended (s : State) (bits : List Bool) (t : State) : Prop :=
  t.wbits = BitVec.ofNat 32 (s.wbits.toNat + bits.length) ∧
  ∀ q, t.streamAt q =
    if 0 < bits.length ∧ s.wbits.toNat / 8 ≤ q / 8 ∧ 8 * (q / 8) < s.wbits.toNat + bits.length then
      some ((decide (s.wbits.toNat ≤ q) && bits.getD (q - s.wbits.toNat) false) ||
        (decide (s.wbits.toNat % 8 ≠ 0 ∧ q / 8 = s.wbits.toNat / 8) && (s.streamAt q).getD false))
    else s.streamAt q

/-- The `cnt` low bits of a word, bit `cnt − 1` first (R123). -/
def lowBitList (v : Word) (cnt : Nat) : List Bool := (List.range cnt).map fun j => v.getLsbD (cnt - 1 - j)

/-- The stream of `s` holds `bits` from position `p` on. -/
abbrev State.streamHolds (s : State) (p : Nat) (bits : List Bool) : Prop :=
  ∀ j, j < bits.length → s.streamAt (p + j) = bits[j]?

/-! ### Sequences of bytes -/

/-- The recency list after a sequence: its distinct bytes, the most recent first, then every other byte value in
ascending order (R140). -/
def recencyList (xs : List Byte) : List Byte :=
  xs.dedup.reverse ++ ((List.range 256).map (BitVec.ofNat 8)).filter fun c => c ∉ xs

/-- `LF(i)` of a sequence, from the glossary's words for `firstOccurrence` and `rankOf`: the number of bytes smaller
than the one at `i`, plus the number of equal ones before `i`. -/
def lfOf (xs : List Byte) (i : Nat) : Nat :=
  xs.countP (fun b => b < xs.getD i 0#8) + (xs.take i).count (xs.getD i 0#8)

/-- R144: `ts` is the forward block transform of `xs` with primary index `p`, and the last byte of `xs` occurs nowhere
else in it.  `sa` is the suffix array: the positions in the lexicographic order of their suffixes. -/
def IsForwardTransform (xs ts : List Byte) (p : Nat) : Prop :=
  (∃ init last, xs = init ++ [last] ∧ last ∉ init) ∧
  ∃ sa : List Nat, sa.Perm (List.range xs.length) ∧ sa.Pairwise (fun i j => xs.drop i < xs.drop j) ∧
    ts = sa.map (fun j => xs.getD ((j + xs.length - 1) % xs.length) 0#8) ∧ sa[p]? = some 0

/-! ### Trees -/

/-- `TREE` holds these nodes, by slot. -/
abbrev TreeStored (s : State) (nodes : List Node) : Prop :=
  ∀ i, i < nodes.length → s.slotAt i = nodes[i]?

/-- Where a bit string leads in a tree, from slot `i`: left on 0, right on 1 (R164); `none` if it meets a leaf too
early. -/
def descend (nodes : List Node) : Nat → List Bool → Option Nat
  | i, [] => some i
  | i, b :: bs =>
    match nodes[i]? with
    | some (.internal _ l r _) => descend nodes (if b then r else l) bs
    | _ => none

/-- A bit string leads from slot `root` to a leaf of symbol `c`. -/
def LeadsTo (nodes : List Node) (root : Nat) (bits : List Bool) (c : Byte) : Prop :=
  ∃ i f, descend nodes root bits = some i ∧ nodes[i]? = some (.leaf c f)

/-- Slot `i` is in the pool before merge `m` of a tree with `k` leaves: it exists by then and no earlier merge took
it (R161). -/
def InPool (nodes : List Node) (k m i : Nat) : Prop :=
  i < k + m ∧ ∀ m', m' < m → ∀ key l r f, nodes[k + m']? = some (.internal key l r f) → i ≠ l ∧ i ≠ r

/-- R161's order of extraction: `(FREQ, KEY)`, compared lexicographically. -/
def ComesBefore (a b : Node) : Prop := a.freq < b.freq ∨ (a.freq = b.freq ∧ a.key < b.key)

/-- The symbols with a non-zero count, in ascending order (R161). -/
def codedSymbols (fs : List Nat) : List Nat := (List.range 256).filter fun c => 0 < fs.getD c 0

/-- R161: `nodes` is the tree of the frequency table `fs`: the leaves in ascending symbol order; then, for each merge
`m`, the node with key `256 + m` whose left child is the least node of the pool, whose right child is the least of
the rest, and whose frequency is their sum. -/
def IsHuffmanTree (fs : List Nat) (nodes : List Node) : Prop :=
  let k := (codedSymbols fs).length
  nodes.length = (if k = 0 then 0 else 2 * k - 1) ∧
  (∀ i, i < k → ∀ c, (codedSymbols fs)[i]? = some c →
    nodes[i]? = some (.leaf (BitVec.ofNat 8 c) (fs.getD c 0))) ∧
  ∀ m, m + 1 < k → ∃ a b na nb,
    nodes[k + m]? = some (.internal (256 + m) a b (na.freq + nb.freq)) ∧
    nodes[a]? = some na ∧ nodes[b]? = some nb ∧
    InPool nodes k m a ∧ InPool nodes k m b ∧ a ≠ b ∧
    (∀ j nj, InPool nodes k m j → nodes[j]? = some nj → j ≠ a → ComesBefore na nj) ∧
    (∀ j nj, InPool nodes k m j → nodes[j]? = some nj → j ≠ a → j ≠ b → ComesBefore nb nj)

/-- A frequency table as `FREQ` can hold it (R40): 256 counts of 32 bits. -/
abbrev IsFreqTable (fs : List Nat) : Prop := fs.length = 256 ∧ ∀ f ∈ fs, f < 2 ^ 32

/-- `TREE`, `NLEAF` and `ROOT` hold the tree that HUF_BUILD makes of the table `fs`. -/
def HoldsTreeOf (s : State) (fs : List Nat) : Prop :=
  TreeStored s (buildNodes fs) ∧
  s.nleaf.toNat = (codedSymbols fs).length ∧
  s.root.toNat = (if (codedSymbols fs).length = 0 then 0x1FF else 2 * (codedSymbols fs).length - 2)

/-- `CODE[c]` holds the code `bits` in the format of R44: `LEN`, the bits from the most significant bit of word 1 on,
zeros. -/
abbrev State.codeIs (s : State) (c : Byte) (bits : List Bool) : Prop :=
  s.holdsWords .code (16 * c.toNat) (packCode bits)

/-! ### Commands one after another -/

/-- An outcome that is a next state goes on; a fault or a refusal ends. -/
def andThen (o : Host.Outcome State Fault Refusal) (k : State → Host.Outcome State Fault Refusal) :
    Host.Outcome State Fault Refusal :=
  match o with
  | .next s => k s
  | .fault f => .fault f
  | .refused r => .refused r

/-- The state in which an idle HCB has accepted command `i` with operands `a0`, `a1` (R88, R100). -/
def issued (i : Instr) (a0 a1 : Word) (s : State) : State := accept (encode i) { s with arg0 := a0, arg1 := a1 }

/-- A command line run to its completion: acceptance, then the command's step. -/
def command (i : Instr) (a0 a1 : Word) (s : State) : Host.Outcome State Fault Refusal := exec i (issued i a0 a1 s)

/-- Command lines run one after another. -/
def commands : List (Instr × Word × Word) → State → Host.Outcome State Fault Refusal
  | [], s => .next s
  | (i, a0, a1) :: cs, s => andThen (command i a0 a1 s) (commands cs)

/-! ### Register values at reset -/

/-- Every register of R23–R35 reads its reset value (spec/10_state.md section 2). -/
def AtReset (s : State) : Prop :=
  s.regRead .ctrl = 0x00000000#32 ∧ s.regRead .status = 0x00000000#32 ∧ s.regRead .cmd = 0x00000000#32 ∧
  s.regRead .arg0 = 0x00000000#32 ∧ s.regRead .arg1 = 0x00000000#32 ∧ s.regRead .res0 = 0x00000000#32 ∧
  s.regRead .res1 = 0x00000000#32 ∧ s.regRead .wbits = 0x00000000#32 ∧ s.regRead .rcur = 0x00000000#32 ∧
  s.regRead .rlim = 0x00000000#32 ∧ s.regRead .nleaf = 0x00000000#32 ∧ s.regRead .nnode = 0x00000000#32 ∧
  s.regRead .root = 0x000001FF#32

/-- R230: while `rst_n` is low, every register has its reset value, no soft reset is pending and no memory entry counts
as written. -/
def HeldInReset (s : State) : Prop :=
  s.rstLow = true → AtReset s ∧ s.srstPend = false ∧ ∀ w o, s.byteAt w o = none

/-! ### Invariants -/

/-- Every memory is in its canonical form. -/
def MemoriesCanonical (s : State) : Prop := ∀ w, (s.mem.sel w).wf

/-- The parameters are legal (R6), and no byte is held past a memory's cap (R61). -/
def EntriesInStorage (s : State) : Prop :=
  s.cfg.legal ∧ ∀ w o, (s.byteAt w o).isSome → o < w.cap s.cfg

/-- R30–R32: the ranges of the stream registers; `RLIM` is a multiple of 8; the writer's partial byte is written. -/
def StreamInRange (s : State) : Prop :=
  s.cfg.legal ∧ s.wbits.toNat ≤ 8 * s.cfg.bitcap ∧ s.rcur.toNat ≤ s.rlim.toNat ∧
  s.rlim.toNat ≤ 8 * s.cfg.bitcap ∧ s.rlim.toNat % 8 = 0 ∧ s.partialByteWritten

/-- R24, R50, R51, R200: the flags agree with each other: `DONE`, `ERR` and `ERRCODE` are 0 while busy, `ERR` says
whether `ERRCODE` is 0, reserved codes are never raised, a soft reset is pending only while busy, `CODEV` needs
`TREEV`, and `LONE` is 1 exactly for a valid tree of one leaf. -/
def FlagsAgree (s : State) : Prop :=
  (s.status.busy = true → s.status.done = false ∧ s.status.errcode = 0#4) ∧
  (s.status.err = true ↔ s.status.errcode ≠ 0#4) ∧ s.status.errcode.toNat ≤ 7 ∧
  (s.srstPend = true → s.status.busy = true) ∧
  (s.status.codev = true → s.status.treev = true) ∧
  (s.status.lone = true ↔ s.status.treev = true ∧ s.nleaf.toNat = 1)

/-- R33–R35: `NLEAF`, `NNODE` and `ROOT` agree. -/
def TreeRegistersAgree (s : State) : Prop :=
  s.nleaf.toNat ≤ 256 ∧
  s.nnode.toNat = (if s.nleaf.toNat = 0 then 0 else 2 * s.nleaf.toNat - 1) ∧
  s.root.toNat = (if s.nleaf.toNat = 0 then 0x1FF else 2 * s.nleaf.toNat - 2)

/-- R24: `TREEV = 1` only when `TREE` and the tree registers hold a tree built by HUF_BUILD, and `CODEV = 1` only when
`CODE` holds the code table of that tree. -/
def TreeAndCodeValid (s : State) : Prop :=
  (s.status.codev = true → s.status.treev = true) ∧
  (s.status.treev = true → ∃ fs, IsFreqTable fs ∧ HoldsTreeOf s fs) ∧
  (s.status.codev = true → ∃ codes, assignedCodes s = .ok codes ∧
    ∀ c : Byte, s.codeIs c (codeIn codes c))

/-- R42: `RLIST` is as power-on left it, or holds a permutation of 0..255. -/
def RlistPermutation (s : State) : Prop :=
  (∀ o, s.byteAt .rlist o = none) ∨
  ∃ w : List Byte, w.Perm ((List.range 256).map (BitVec.ofNat 8)) ∧ Overwritten .rlist w (State.powerOn s.cfg) s

end Sys2Proof.Machine
end

