-- ==== Sys2Proof/Certificates/Slice0/Obligations.lean ====
section
/-! DEFINITION. The statements for the provers.  A statement about `exec` in a state with no pending soft reset
(`s.srstPend = false`) is completed by `SoftResetClearsRegistersAndKeepsMemories`, which says what a pending one adds
to every command. -/

open Sys2Proof Sys2Proof.Machine

/-! ### Command words -/

/-- R91, R81: the reference words, written out from R80's fields, encode and decode to their commands. -/
def Obligations.ReferenceWordsEncodeAndDecode : Prop :=
  (∀ p ∈ [(Instr.nop, 0x00000000#32), (.freqCount .A, 0x00000001#32), (.freqCount .B, 0x00000101#32),
      (.hufBuild, 0x00000002#32), (.hufCodes, 0x00000003#32), (.hufEncode .A, 0x00000004#32),
      (.hufEncode .B, 0x00000104#32), (.hufDecode .A, 0x00000005#32), (.hufDecode .B, 0x00000105#32),
      (.bwInit, 0x00000010#32), (.bwPut 1, 0x00000011#32), (.bwPut 8, 0x00070011#32), (.bwPut 32, 0x001F0011#32),
      (.bwFlush, 0x00000012#32), (.brInit, 0x00000013#32), (.brGet 1, 0x00000014#32), (.brGet 16, 0x000F0014#32),
      (.mtfFwd .A, 0x00000020#32), (.mtfFwd .B, 0x00000120#32), (.mtfInv .A, 0x00000021#32),
      (.mtfInv .B, 0x00000121#32), (.bwtInv .A, 0x00000022#32), (.bwtInv .B, 0x00000122#32)],
    encode p.1 = p.2 ∧ decode p.2 = .ok p.1) ∧
  ∀ cnt, 1 ≤ cnt → cnt ≤ 32 →
    encode (.bwPut cnt) = 0x00000011#32 ||| BitVec.ofNat 32 (cnt - 1) <<< 16 ∧
    encode (.brGet cnt) = 0x00000014#32 ||| BitVec.ofNat 32 (cnt - 1) <<< 16

/-- R80–R83: no bit of an encoding is dropped; every well-formed command is what its word decodes to. -/
def Obligations.DecodeOfEncodeIsTheCommand : Prop :=
  ∀ i : Instr, i.wellFormed = true → decode (encode i) = .ok i

/-- R87 (decoding is total, and one word has one meaning): a word that decodes is the word of its command, which is
well formed. -/
def Obligations.EncodeOfDecodeIsTheWord : Prop :=
  ∀ (w : Word) (i : Instr), decode w = .ok i → encode i = w ∧ i.wellFormed = true

/-- R87: the words that are illegal, the command of a legal word, and the equivalence with the opcode table, whose
rows no word matches twice. -/
def Obligations.DecodingIsTheTables : Prop :=
  ∀ w : Word,
    ((∃ e, decode w = .error e) ↔
      (w.extractLsb' 0 8).toNat ∉ [0x00, 0x01, 0x02, 0x03, 0x04, 0x05, 0x10, 0x11, 0x12, 0x13, 0x14, 0x20, 0x21, 0x22] ∨
      w.extractLsb' 9 7 ≠ 0#7 ∨ w.extractLsb' 21 11 ≠ 0#11 ∨
      (w.getLsbD 8 = true ∧ (w.extractLsb' 0 8).toNat ∉ [0x01, 0x04, 0x05, 0x20, 0x21, 0x22]) ∨
      (w.extractLsb' 16 5 ≠ 0#5 ∧ (w.extractLsb' 0 8).toNat ∉ [0x11, 0x14])) ∧
    (∀ i, decode w = .ok i →
      i.opc = (w.extractLsb' 0 8).toNat ∧ i.s = w.getLsbD 8 ∧ i.cntm1 = (w.extractLsb' 16 5).toNat ∧
      ∀ cnt, i = .bwPut cnt ∨ i = .brGet cnt → cnt = (w.extractLsb' 16 5).toNat + 1) ∧
    ((∃ i, decode w = .ok i) ↔ ∃ r ∈ tableRows, w &&& r.tableMask = r.tableMatch) ∧
    ∀ r ∈ tableRows, ∀ r' ∈ tableRows,
      w &&& r.tableMask = r.tableMatch → w &&& r'.tableMask = r'.tableMatch → r = r'

/-! ### The step -/

/-- A step runs the decoded command: on the engine's turn, with a command accepted (R102), the step is `exec` of the
command its latched word decodes to, in the state with the event taken off the schedule; any other step is a host
access, an edge of `rst_n`, or an idle HCB staying as it is (R220).  That the order of the events is a schedule in
State, and the engine's turn when it is empty, is the model's choice (log entry 4). -/
def Obligations.StepRunsTheDecodedCommand : Prop :=
  ∀ s : State,
    (∀ i, nextEvent s = .engine → s.status.busy = true → decode s.latch.w = .ok i →
      step s = exec i { s with schedule := s.schedule.tail }) ∧
    (∀ a, nextEvent s = .read a → s.rstLow = false →
      step s = .next (hostRead a { s with schedule := s.schedule.tail })) ∧
    (∀ a v, nextEvent s = .write a v → s.rstLow = false →
      step s = .next (hostWrite a v { s with schedule := s.schedule.tail })) ∧
    (∀ e, nextEvent s = e → ((∃ a, e = .read a) ∨ ∃ a v, e = .write a v) → s.rstLow = true →
      step s = .refused .accessInReset) ∧
    (s.status.busy = false → s.schedule = [] → step s = .next s)

/-- R201, R86: an illegal word written to `CMD` is accepted and completes with `ILLEGAL_CMD`, and changes only the
`CMD` read-back, `RES0`, `RES1` and `STATUS` (and the latched copy of the word, which is hidden state). -/
def Obligations.IllegalWordChangesOnlyItsReport : Prop :=
  ∀ (s : State) (a : BitVec 24) (v : Word) (e : DecodeError) (rest : List Event),
    s.status.busy = false → s.rstLow = false → s.srstPend = false → a.toNat / 4 = 3 → decode v = .error e →
    s.schedule = .write a v :: .engine :: rest →
    ∃ u, step s = .next u ∧ step u = .next
      { s with
        cmd := v
        latch := { w := v, a0 := s.arg0, a1 := s.arg1 }
        res0 := 0#32
        res1 := 0#32
        status := { s.status with busy := false, done := true, err := true, errcode := 1#4 }
        schedule := rest }

/-- R100: acceptance of a command word, legal or not, and the interrupt output falling with `DONE`; a command reads
`ARG0` and `ARG1` only through the latched copies. -/
def Obligations.AcceptanceLatchesTheCommand : Prop :=
  (∀ (s : State) (a : BitVec 24) (v : Word), s.status.busy = false → a.toNat / 4 = 3 →
    hostWrite a v s =
      { s with
        latch := { w := v, a0 := s.arg0, a1 := s.arg1 }
        cmd := v
        status := { s.status with busy := true, done := false, err := false, errcode := 0#4 } } ∧
    (hostWrite a v s).irq = false) ∧
  ∀ (i : Instr) (s t : State) (x y : Word), s.srstPend = false → exec i s = .next t →
    exec i { s with arg0 := x, arg1 := y } = .next { t with arg0 := x, arg1 := y }

/-- R101: register accesses while busy.  Word offsets 3, 4, 5 are `CMD`, `ARG0`, `ARG1`; 1 is `CTRL`; 2 is
`STATUS`.  No access changes what another register reads, and a read returns it: the value it had at acceptance;
`STATUS` reads `BUSY = 1`, `DONE = 0`, `ERR = 0`, `ERRCODE = 0` and the other flags as they are. -/
def Obligations.BusyRegisterAccesses : Prop :=
  ∀ (s : State) (a : BitVec 24) (v : Word), s.status.busy = true → s.status.done = false → s.status.err = false →
    s.status.errcode = 0#4 →
    (a.toNat / 4 = 3 ∨ a.toNat / 4 = 4 ∨ a.toNat / 4 = 5 →
      hostWrite a v s = { s with status := { s.status with ovr := true } }) ∧
    (a.toNat / 4 = 1 →
      hostWrite a v s = { s with ie := v.getLsbD 0, srstPend := s.srstPend || v.getLsbD 1 }) ∧
    (a.toNat / 4 = 2 →
      hostWrite a v s =
        { s with status := { s.status with accv := s.status.accv && !v.getLsbD 6, ovr := s.status.ovr && !v.getLsbD 7 } }) ∧
    (a.toNat < 0x400 → a.toNat / 4 = 0 ∨ 6 ≤ a.toNat / 4 → hostWrite a v s = s) ∧
    (∀ r : Reg, a.toNat / 4 = r.offset / 4 → hostRead a s = { s with rdata := s.regRead r }) ∧
    (∀ r : Reg, r ≠ .ctrl → r ≠ .status →
      (hostRead a s).regRead r = s.regRead r ∧ (hostWrite a v s).regRead r = s.regRead r) ∧
    (∀ j, j < 8 → (s.regRead .status).getLsbD j =
      [true, false, false, s.status.treev, s.status.codev, s.status.lone, s.status.accv, s.status.ovr].getD j false) ∧
    (s.regRead .status).extractLsb' 16 4 = 0#4 ∧ (s.regRead .status).extractLsb' 8 8 = 0#8 ∧
    (s.regRead .status).extractLsb' 20 12 = 0#12

/-- R106: a running command goes on through every step but its own completion and power-on reset, which abandons it. -/
def Obligations.NoAccessStopsARunningCommand : Prop :=
  ∀ s t : State, s.status.busy = true → step s = .next t →
    (t.status.busy = true ∧ t.latch = s.latch ∧ t.mem = s.mem ∧ t.wbits = s.wbits ∧ t.rcur = s.rcur ∧
      t.rlim = s.rlim ∧ t.root = s.root ∧ t.nleaf = s.nleaf) ∨
    (engineRuns s = true ∧ t.status.busy = false) ∨
    (nextEvent s = .rstFall ∧ t.status.busy = false ∧ AtReset t)

/-- R102, R203, R205: what every completed command reports, and what no command touches: the host's registers, the
sticky flags, the parameters. -/
def Obligations.CompletionReportsAndKeepsHostRegisters : Prop :=
  ∀ (i : Instr) (s t : State), s.srstPend = false → exec i s = .next t →
    t.status.busy = false ∧ t.status.done = true ∧ (t.status.err = true ↔ t.status.errcode ≠ 0#4) ∧
    t.status.errcode.toNat ≤ 7 ∧ t.status.accv = s.status.accv ∧ t.status.ovr = s.status.ovr ∧
    t.ie = s.ie ∧ t.cmd = s.cmd ∧ t.arg0 = s.arg0 ∧ t.arg1 = s.arg1 ∧ t.latch = s.latch ∧ t.cfg = s.cfg ∧
    t.srstPend = false ∧ t.rstLow = s.rstLow ∧ t.rdata = s.rdata ∧ t.schedule = s.schedule ∧
    t.freeCount = s.freeCount

/-- R231: a soft reset while idle happens in the access; one requested while busy is remembered, and at completion
the registers take their reset values, whatever the command did, while the memories are those the command leaves
without it; `DONE` reads 0 and no interrupt is raised. -/
def Obligations.SoftResetClearsRegistersAndKeepsMemories : Prop :=
  (∀ (s : State) (a : BitVec 24) (v : Word), a.toNat / 4 = 1 → v.getLsbD 1 = true → s.status.busy = false →
    AtReset (hostWrite a v s) ∧ (hostWrite a v s).srstPend = false ∧ (hostWrite a v s).mem = s.mem) ∧
  (∀ (s : State) (a : BitVec 24) (v : Word), a.toNat / 4 = 1 → v.getLsbD 1 = true → s.status.busy = true →
    hostWrite a v s = { s with ie := v.getLsbD 0, srstPend := true }) ∧
  (∀ (i : Instr) (s u : State), s.srstPend = true → exec i { s with srstPend := false } = .next u →
    ∃ t, exec i s = .next t ∧ AtReset t ∧ t.srstPend = false ∧ t.mem = u.mem ∧ t.cfg = s.cfg ∧ t.irq = false) ∧
  ∀ (s : State) (e : DecodeError), s.srstPend = true → engineRuns s = true → decode s.latch.w = .error e →
    ∃ t, step s = .next t ∧ AtReset t ∧ t.srstPend = false ∧ t.mem = s.mem ∧ t.cfg = s.cfg ∧ t.irq = false

/-- R107, R11: a command ends in a next state or in a fault, and it faults only where the memory the fault names has
an entry never written inside its storage (in `BITS`: when the reader's end is inside it, which every run keeps,
StreamRegistersStayInRange), or, HUF_CODES, on a stored tree without an end (log entry 10); no command is refused. -/
def Obligations.CommandsEndOrReadUnwritten : Prop :=
  ∀ (i : Instr) (s : State),
    (∃ t, exec i s = .next t) ∨
    (∃ w o, exec i s = .fault (.unwritten w) ∧ s.byteAt w o = none ∧
      ((w = .bits → s.rlim.toNat ≤ 8 * s.cfg.bitcap) → o < w.cap s.cfg)) ∨
    (i = .hufCodes ∧ exec i s = .fault .treeTooDeep)

/-- R108: the outcome of a command depends on its latched word and operands, on the memories and on the registers the
commands use, and on nothing else; no host access while it runs changes any of these. -/
def Obligations.OutcomeDependsOnLatchAndStateAlone : Prop :=
  (∀ (i : Instr) (s s' : State), s.srstPend = false → s'.srstPend = false → s'.cfg = s.cfg → s'.latch = s.latch →
    s'.mem = s.mem → s'.wbits = s.wbits → s'.rcur = s.rcur → s'.rlim = s.rlim → s'.nleaf = s.nleaf →
    s'.nnode = s.nnode → s'.root = s.root → s'.status.treev = s.status.treev → s'.status.codev = s.status.codev →
    s'.status.lone = s.status.lone →
    (∀ t, exec i s = .next t →
      exec i s' = .next { s' with
        res0 := t.res0, res1 := t.res1, wbits := t.wbits, rcur := t.rcur, rlim := t.rlim
        nleaf := t.nleaf, nnode := t.nnode, root := t.root, mem := t.mem
        status := { t.status with accv := s'.status.accv, ovr := s'.status.ovr } }) ∧
    ∀ f, exec i s = .fault f → exec i s' = .fault f) ∧
  ∀ (s s' : State) (a : BitVec 24), s.status.busy = true →
    (s' = hostRead a s ∨ ∃ v, s' = hostWrite a v s) →
    s'.cfg = s.cfg ∧ s'.latch = s.latch ∧ s'.mem = s.mem ∧ s'.wbits = s.wbits ∧ s'.rcur = s.rcur ∧
      s'.rlim = s.rlim ∧ s'.nleaf = s.nleaf ∧ s'.nnode = s.nnode ∧ s'.root = s.root ∧
      s'.status.treev = s.status.treev ∧ s'.status.codev = s.status.codev ∧ s'.status.lone = s.status.lone

/-- R210: `irq` is `IE AND DONE`; it rises when a command completes with `IE = 1` and when the host sets `IE` while
`DONE = 1`, and at no other step; it falls when `DONE` is cleared (a 1 written to it, an acceptance), when `IE` is
cleared, and by a reset, and at no other step. -/
def Obligations.InterruptRisesAndFallsAsStated : Prop :=
  ∀ s t : State, step s = .next t →
    s.irq = (s.ie && s.status.done) ∧
    (engineRuns s = true → s.srstPend = false → t.irq = s.ie) ∧
    (∀ a v, nextEvent s = .write a v → a.toNat / 4 = 1 → v.getLsbD 1 = false → t.irq = (v.getLsbD 0 && s.status.done)) ∧
    (∀ a v, nextEvent s = .write a v → a.toNat / 4 = 2 → v.getLsbD 1 = true → t.irq = false) ∧
    (∀ a v, nextEvent s = .write a v → a.toNat / 4 = 3 → s.status.busy = false → t.irq = false) ∧
    (AtReset t → t.irq = false) ∧
    (s.irq = false → t.irq = true →
      (engineRuns s = true ∧ s.ie = true) ∨
      ∃ a v, nextEvent s = .write a v ∧ a.toNat / 4 = 1 ∧ v.getLsbD 0 = true ∧ s.status.done = true) ∧
    (s.irq = true → t.irq = false →
      (∃ a v, nextEvent s = .write a v ∧
        ((a.toNat / 4 = 2 ∧ v.getLsbD 1 = true) ∨ (a.toNat / 4 = 3 ∧ s.status.busy = false) ∨
          (a.toNat / 4 = 1 ∧ v.getLsbD 0 = false))) ∨
      AtReset t)

/-! ### The host bus -/

/-- Section 2 of 10_state.md: what a read of each register returns, idle or busy, and that it changes nothing but the
read data. -/
def Obligations.RegisterReadsReturnTheirFields : Prop :=
  ∀ (s : State) (a : BitVec 24),
    (a.toNat / 4 = 1 → ∃ d, hostRead a s = { s with rdata := d } ∧ d.getLsbD 0 = s.ie ∧ d.extractLsb' 1 31 = 0#31) ∧
    (a.toNat / 4 = 2 → ∃ d, hostRead a s = { s with rdata := d } ∧
      d.getLsbD 0 = s.status.busy ∧ d.getLsbD 1 = s.status.done ∧ d.getLsbD 2 = s.status.err ∧
      d.getLsbD 3 = s.status.treev ∧ d.getLsbD 4 = s.status.codev ∧ d.getLsbD 5 = s.status.lone ∧
      d.getLsbD 6 = s.status.accv ∧ d.getLsbD 7 = s.status.ovr ∧ d.extractLsb' 8 8 = 0#8 ∧
      d.extractLsb' 16 4 = s.status.errcode ∧ d.extractLsb' 20 12 = 0#12) ∧
    (a.toNat / 4 = 3 → hostRead a s = { s with rdata := s.cmd }) ∧
    (a.toNat / 4 = 4 → hostRead a s = { s with rdata := s.arg0 }) ∧
    (a.toNat / 4 = 5 → hostRead a s = { s with rdata := s.arg1 }) ∧
    (a.toNat / 4 = 6 → hostRead a s = { s with rdata := s.res0 }) ∧
    (a.toNat / 4 = 7 → hostRead a s = { s with rdata := s.res1 }) ∧
    (a.toNat / 4 = 8 → hostRead a s = { s with rdata := s.wbits }) ∧
    (a.toNat / 4 = 9 → hostRead a s = { s with rdata := s.rcur }) ∧
    (a.toNat / 4 = 10 → hostRead a s = { s with rdata := s.rlim }) ∧
    (a.toNat / 4 = 11 → hostRead a s = { s with rdata := s.nleaf }) ∧
    (a.toNat / 4 = 12 → hostRead a s = { s with rdata := s.nnode }) ∧
    (a.toNat / 4 = 13 → hostRead a s = { s with rdata := BitVec.ofNat 32 s.root.toNat })

/-- R22, R36, R37, R38: `ID`, `CAPBUF`, `CAPBITS` and the reserved offsets read their constants, idle or busy, before
and after every step (the parameters never change), and a write to one of them is ignored and sets no flag. -/
def Obligations.ConstantRegistersAndReservedOffsets : Prop :=
  (∀ (s : State) (a : BitVec 24) (v : Word),
    (a.toNat / 4 = 0 → hostRead a s = { s with rdata := 0x48434201#32 } ∧ hostWrite a v s = s) ∧
    (a.toNat / 4 = 14 → hostRead a s = { s with rdata := BitVec.ofNat 32 s.cfg.nbuf } ∧ hostWrite a v s = s) ∧
    (a.toNat / 4 = 15 → hostRead a s = { s with rdata := BitVec.ofNat 32 s.cfg.bitcap } ∧ hostWrite a v s = s) ∧
    (0x040 ≤ a.toNat → a.toNat < 0x400 → hostRead a s = { s with rdata := 0x00000000#32 } ∧ hostWrite a v s = s)) ∧
  ∀ s t : State, step s = .next t → t.cfg = s.cfg

/-- R23, R24: writes to `CTRL` and `STATUS` while idle, and the writes of the read-only registers that are ignored
(word offsets 6 to 13). -/
def Obligations.IdleRegisterWrites : Prop :=
  ∀ (s : State) (a : BitVec 24) (v : Word), s.status.busy = false →
    (a.toNat / 4 = 1 → v.getLsbD 1 = false → hostWrite a v s = { s with ie := v.getLsbD 0 }) ∧
    (a.toNat / 4 = 1 → v.getLsbD 1 = true → (hostWrite a v s).ie = false) ∧
    (a.toNat / 4 = 2 → hostWrite a v s =
      { s with status := { s.status with
          done := s.status.done && !v.getLsbD 1
          accv := s.status.accv && !v.getLsbD 6
          ovr := s.status.ovr && !v.getLsbD 7 } }) ∧
    (a.toNat / 4 = 4 → hostWrite a v s = { s with arg0 := v }) ∧
    (a.toNat / 4 = 5 → hostWrite a v s = { s with arg1 := v }) ∧
    (6 ≤ a.toNat / 4 → a.toNat / 4 ≤ 13 → hostWrite a v s = s)

/-- R67: an access at an offset that is no multiple of 4 acts exactly as the access at `a & ~3`. -/
def Obligations.AddressLowBitsAreIgnored : Prop :=
  ∀ (s : State) (a : BitVec 24) (v : Word),
    hostRead a s = hostRead (a &&& ~~~3#24) s ∧ hostWrite a v s = hostWrite (a &&& ~~~3#24) v s

/-- R66: while busy, every access past the registers is blocked: a read returns 0, a write is ignored, either sets
`ACCV`. -/
def Obligations.WindowsAreBlockedWhileBusy : Prop :=
  ∀ (s : State) (a : BitVec 24) (v : Word), s.status.busy = true → 0x400 ≤ a.toNat →
    hostRead a s = { s with rdata := 0x00000000#32, status := { s.status with accv := true } } ∧
    hostWrite a v s = { s with status := { s.status with accv := true } }

/-- R61, R62, R63, R68: an idle read of a memory window changes nothing but the read data (and the model's count of
free bytes); byte `o + j` of the window is in bits `[31 − 8j : 24 − 8j]`, 0 past the cap (the byte that is there,
where it has been written); a reserved offset reads 0; and stream bit `p` is bit `31 − (p mod 32)` of host word
`floor(p/32)` of the BITS window.  R62 gives the lane order of the byte windows (BUFA, BUFB, BITS, RLIST) alone; for
the word windows (FREQ, FIRST, TREE, CODE, RANK) that byte `o + j` of the memory is lane `j` is the model's own layout
of a word entry (log entry 2), and that a lane never written takes a free byte is its choice too (log entry 3). -/
def Obligations.WindowReadsFollowTheAddressMap : Prop :=
  ∀ (s : State) (a : BitVec 24), s.status.busy = false → 0x400 ≤ a.toNat →
    (∃ d n, hostRead a s = { s with rdata := d, freeCount := n }) ∧
    (∀ (w : Window) (o : Nat), a.toNat = w.base + o → o < w.span → ∀ j, j < 4 →
      (w.cap s.cfg ≤ 4 * (o / 4) + j → (hostRead a s).rdata.extractLsb' (24 - 8 * j) 8 = 0#8) ∧
      ∀ b, 4 * (o / 4) + j < w.cap s.cfg → s.byteAt w (4 * (o / 4) + j) = some b →
        (hostRead a s).rdata.extractLsb' (24 - 8 * j) 8 = b) ∧
    (∀ b p, a.toNat = 0x300000 + 4 * (p / 32) → p / 8 < s.cfg.bitcap → p < 8 * 2 ^ 20 → s.streamAt p = some b →
      (hostRead a s).rdata.getLsbD (31 - p % 32) = b) ∧
    ((∀ w : Window, a.toNat < w.base ∨ w.base + w.span ≤ a.toNat) → (hostRead a s).rdata = 0x00000000#32)

/-- R61, R62, R65: an idle write to a writable window stores the four lanes of the word below the cap and nothing else;
a write to a read-only window or a reserved offset is ignored.  R62 gives the lane order of the byte windows alone; at
which byte of FREQ each lane of a word lands is the model's own layout of a word entry (log entry 2). -/
def Obligations.WindowWritesFollowTheAddressMap : Prop :=
  ∀ (s : State) (a : BitVec 24) (v : Word), s.status.busy = false → 0x400 ≤ a.toNat →
    (∀ (w : Window) (o : Nat), w ∈ [Window.freq, .bufA, .bufB, .bits] → a.toNat = w.base + o → o < w.span →
      hostWrite a v s = { s with mem := (hostWrite a v s).mem } ∧ SameBut [w] s (hostWrite a v s) ∧
      ∀ x, (hostWrite a v s).byteAt w x =
        if 4 * (o / 4) ≤ x ∧ x < 4 * (o / 4) + 4 ∧ x < w.cap s.cfg then
          some (v.extractLsb' (24 - 8 * (x - 4 * (o / 4))) 8)
        else s.byteAt w x) ∧
    (∀ (w : Window) (o : Nat), w ∈ [Window.first, .rlist, .tree, .code, .rank] → a.toNat = w.base + o → o < w.span →
      hostWrite a v s = s) ∧
    ((∀ w : Window, a.toNat < w.base ∨ w.base + w.span ≤ a.toNat) → hostWrite a v s = s)

/-- R230: when `rst_n` falls, in any state, the registers take their reset values, a running command is abandoned,
no memory entry counts as written, `irq` is 0; they stay so while it is low, and when it rises they are still so. -/
def Obligations.PowerOnResetFromAnyState : Prop :=
  (∀ (s : State) (rest : List Event), s.schedule = .rstFall :: .rstRise :: rest →
    ∃ t u, step s = .next t ∧ step t = .next u ∧ t.rstLow = true ∧ u.rstLow = false ∧ ∀ r, r = t ∨ r = u →
      AtReset r ∧ r.srstPend = false ∧ r.status.busy = false ∧ r.irq = false ∧ r.ie = false ∧ r.cfg = s.cfg ∧
      r.regRead .id = 0x48434201#32 ∧ ∀ w o, r.byteAt w o = none) ∧
  ∀ s t : State, HeldInReset s → step s = .next t → HeldInReset t

/-! ### NOP and the bit stream -/

/-- R103: NOP completes and clears `RES0`, `RES1`, `ERR` and `ERRCODE`; its word is the zero word alone; it raises
`irq` when `IE = 1`. -/
def Obligations.NopCompletes : Prop :=
  (∀ w : Word, decode w = .ok .nop ↔ w = 0x00000000#32) ∧
  ∀ s : State, s.srstPend = false →
    exec .nop s = .next { s with res0 := 0#32, res1 := 0#32, status := s.status.succeeded } ∧
    ∀ t, exec .nop s = .next t → t.irq = s.ie ∧
      (s.status.treev = false → s.status.codev = false → s.status.lone = false → s.status.accv = false →
        s.status.ovr = false → t.regRead .status = 0x00000002#32)

/-- R122: BW_INIT. -/
def Obligations.BwInitRewindsTheWriter : Prop :=
  encode .bwInit = 0x00000010#32 ∧
  ∀ s : State, s.srstPend = false →
    exec .bwInit s = .next { s with wbits := 0#32, res0 := 0#32, res1 := 0#32, status := s.status.succeeded }

/-- R123, R120: BW_PUT appends the low `cnt` bits of `L.a0`, bit `cnt − 1` first, or, when they do not all fit, writes
nothing and reports `BUFFER_OVERFLOW` with `RES0 = WBITS`. -/
def Obligations.BwPutAppendsItsBits : Prop :=
  ∀ (s : State) (cnt : Nat), s.srstPend = false → s.cfg.legal → 1 ≤ cnt → cnt ≤ 32 →
    encode (.bwPut cnt) = 0x00000011#32 ||| BitVec.ofNat 32 (cnt - 1) <<< 16 ∧
    (s.wbits.toNat + cnt ≤ 8 * s.cfg.bitcap → s.partialByteWritten →
      ∃ t, exec (.bwPut cnt) s = .next t ∧
        t = { s with wbits := t.wbits, res0 := t.wbits, res1 := 0#32, status := s.status.succeeded, mem := t.mem } ∧
        BitsAppended s (lowBitList s.latch.a0 cnt) t ∧ SameBut [.bits] s t) ∧
    (8 * s.cfg.bitcap < s.wbits.toNat + cnt →
      exec (.bwPut cnt) s = .next { s with res0 := s.wbits, res1 := 0#32, status := s.status.failed 6#4 })

/-- R124: BW_FLUSH moves `WBITS` to the next byte boundary and writes no memory. -/
def Obligations.BwFlushRoundsUpToAByte : Prop :=
  encode .bwFlush = 0x00000012#32 ∧
  ∀ s : State, s.srstPend = false → s.cfg.legal → s.wbits.toNat ≤ 8 * s.cfg.bitcap →
    ∃ t, exec .bwFlush s = .next t ∧
      t = { s with wbits := t.wbits, res0 := t.res0, res1 := t.res1, status := s.status.succeeded } ∧
      t.wbits.toNat = 8 * ((s.wbits.toNat + 7) / 8) ∧ t.res0.toNat = (s.wbits.toNat + 7) / 8 ∧
      t.res1.toNat = t.wbits.toNat - s.wbits.toNat ∧ t.wbits.toNat ≤ 8 * s.cfg.bitcap

/-- R125: BR_INIT sets the reader's cursor and end, or reports `BAD_ARG` and leaves them. -/
def Obligations.BrInitSetsTheReader : Prop :=
  encode .brInit = 0x00000013#32 ∧
  ∀ s : State, s.srstPend = false → s.cfg.legal →
    (s.latch.a1.toNat ≤ s.cfg.bitcap → s.latch.a0.toNat ≤ 8 * s.latch.a1.toNat →
      ∃ t, exec .brInit s = .next t ∧
        t = { s with
          rcur := s.latch.a0, rlim := t.rlim, res0 := t.res0, res1 := 0#32, status := s.status.succeeded } ∧
        t.rlim.toNat = 8 * s.latch.a1.toNat ∧ t.res0.toNat = t.rlim.toNat - t.rcur.toNat) ∧
    (s.cfg.bitcap < s.latch.a1.toNat ∨ 8 * s.latch.a1.toNat < s.latch.a0.toNat →
      exec .brInit s = .next { s with res0 := 0#32, res1 := 0#32, status := s.status.failed 2#4 })

/-- R126, R121: BR_GET returns the next `cnt` bits, the first one at bit `cnt − 1` of `RES0`, or, when fewer remain,
consumes nothing and reports `STREAM_EXHAUSTED`. -/
def Obligations.BrGetReturnsTheNextBits : Prop :=
  ∀ (s : State) (cnt : Nat), s.srstPend = false → 1 ≤ cnt → cnt ≤ 32 →
    encode (.brGet cnt) = 0x00000014#32 ||| BitVec.ofNat 32 (cnt - 1) <<< 16 ∧
    (s.rcur.toNat + cnt ≤ s.rlim.toNat → (∀ j, j < cnt → (s.streamAt (s.rcur.toNat + j)).isSome) →
      ∃ t, exec (.brGet cnt) s = .next t ∧
        t = { s with rcur := t.rcur, res0 := t.res0, res1 := t.rcur, status := s.status.succeeded } ∧
        t.rcur.toNat = s.rcur.toNat + cnt ∧
        ∀ j, t.res0.getLsbD j =
          (decide (j < cnt) && (s.streamAt (s.rcur.toNat + (cnt - 1 - j))).getD false)) ∧
    (s.rlim.toNat < s.rcur.toNat + cnt →
      exec (.brGet cnt) s = .next { s with res0 := 0#32, res1 := 0#32, status := s.status.failed 5#4 })

/-- R128, for BW_PUT: after BW_INIT, a run of BW_PUTs and a BW_FLUSH, `RES0` is the byte length, stream bit `q` is the
`q`-th bit appended, and the pad bits are 0. -/
def Obligations.PackedStreamHoldsTheBitsThenZeros : Prop :=
  ∀ (s : State) (puts : List (Nat × Word)), s.srstPend = false → s.cfg.legal →
    (∀ p ∈ puts, 1 ≤ p.1 ∧ p.1 ≤ 32) → (puts.map Prod.fst).sum ≤ 8 * s.cfg.bitcap →
    ∃ t, commands ((.bwInit, 0#32, 0#32) :: puts.map (fun p => (.bwPut p.1, p.2, 0#32)) ++ [(.bwFlush, 0#32, 0#32)]) s
        = .next t ∧
      t.status.err = false ∧ t.res0.toNat = ((puts.map Prod.fst).sum + 7) / 8 ∧
      t.streamHolds 0 (puts.flatMap fun p => lowBitList p.2 p.1) ∧
      ∀ q, (puts.map Prod.fst).sum ≤ q → q < 8 * (((puts.map Prod.fst).sum + 7) / 8) → t.streamAt q = some false

/-- R129: after BR_INIT 0, L the bits come back one by one in stream order, and the `(8L+1)`-th read fails. -/
def Obligations.UnpackingReturnsTheStreamInOrder : Prop :=
  ∀ (s : State) (len : Word), s.srstPend = false → s.cfg.legal → len.toNat ≤ s.cfg.bitcap →
    (∀ o, o < len.toNat → (s.byteAt .bits o).isSome) →
    (∀ p, p < 8 * len.toNat →
      ∃ t, commands ((.brInit, 0#32, len) :: List.replicate (p + 1) (.brGet 1, 0#32, 0#32)) s = .next t ∧
        t.status.err = false ∧ t.res0 = if s.streamAt p = some true then 1#32 else 0#32) ∧
    ∃ t, commands ((.brInit, 0#32, len) :: List.replicate (8 * len.toNat + 1) (.brGet 1, 0#32, 0#32)) s = .next t ∧
      t.status.err = true ∧ t.status.errcode = 5#4

/-! ### The rank-mapper -/

/-- R142, R140: MTF_FWD emits, for each byte, its rank in the recency list of the bytes before it, and leaves the list
after the last byte in `RLIST`; or `BAD_ARG`. -/
def Obligations.MtfFwdEmitsRanks : Prop :=
  encode (.mtfFwd .A) = 0x00000020#32 ∧ encode (.mtfFwd .B) = 0x00000120#32 ∧
  ∀ (s : State) (b : Buf), s.srstPend = false →
    (∀ xs : List Byte, s.latch.a0.toNat = xs.length → xs.length ≤ s.cfg.nbuf → s.holds (bufWindow b) 0 xs →
      ∃ t out, exec (.mtfFwd b) s = .next t ∧
        t = { s with res0 := s.latch.a0, res1 := 0#32, status := s.status.succeeded, mem := t.mem } ∧
        out.length = xs.length ∧
        (∀ i, i < xs.length → (recencyList (xs.take i))[(out.getD i 0#8).toNat]? = xs[i]?) ∧
        Overwritten (bufWindow (otherBuf b)) out s t ∧ Overwritten .rlist (recencyList xs) s t ∧
        SameBut [bufWindow (otherBuf b), .rlist] s t) ∧
    (s.cfg.nbuf < s.latch.a0.toNat →
      exec (.mtfFwd b) s = .next { s with res0 := 0#32, res1 := 0#32, status := s.status.failed 2#4 })

/-- R143, R140: MTF_INV emits, for each rank, the byte at that rank of the recency list of the bytes emitted before,
and leaves the final list in `RLIST`; or `BAD_ARG`. -/
def Obligations.MtfInvEmitsBytes : Prop :=
  encode (.mtfInv .A) = 0x00000021#32 ∧ encode (.mtfInv .B) = 0x00000121#32 ∧
  ∀ (s : State) (b : Buf), s.srstPend = false →
    (∀ xs : List Byte, s.latch.a0.toNat = xs.length → xs.length ≤ s.cfg.nbuf → s.holds (bufWindow b) 0 xs →
      ∃ t out, exec (.mtfInv b) s = .next t ∧
        t = { s with res0 := s.latch.a0, res1 := 0#32, status := s.status.succeeded, mem := t.mem } ∧
        out.length = xs.length ∧
        (∀ i, i < xs.length → out[i]? = (recencyList (out.take i))[(xs.getD i 0#8).toNat]?) ∧
        Overwritten (bufWindow (otherBuf b)) out s t ∧ Overwritten .rlist (recencyList out) s t ∧
        SameBut [bufWindow (otherBuf b), .rlist] s t) ∧
    (s.cfg.nbuf < s.latch.a0.toNat →
      exec (.mtfInv b) s = .next { s with res0 := 0#32, res1 := 0#32, status := s.status.failed 2#4 })

/-- R146: MTF_FWD then MTF_INV give back the sequence and leave the same `RLIST`; whatever the first source buffer
holds by then (`t'`), MTF_INV writes the sequence into it. -/
def Obligations.RankListTransformInverts : Prop :=
  ∀ (s : State) (b : Buf) (xs : List Byte) (n : Word), s.srstPend = false → n.toNat = xs.length →
    xs.length ≤ s.cfg.nbuf → s.holds (bufWindow b) 0 xs →
    ∃ t, command (.mtfFwd b) n 0#32 s = .next t ∧
      ∀ t' : State, t' = { t with mem := t'.mem } → SameBut [bufWindow b] t t' →
        ∃ u, command (.mtfInv (otherBuf b)) n 0#32 t' = .next u ∧ u.status.err = false ∧
          u.holds (bufWindow b) 0 xs ∧ ∀ o, u.byteAt .rlist o = t.byteAt .rlist o

/-- R141: BWT_INV: the tables, the walk back to front, the results; or `BAD_ARG`, or `MALFORMED_HEADER`. -/
def Obligations.BwtInvWalksTheRankMap : Prop :=
  encode (.bwtInv .A) = 0x00000022#32 ∧ encode (.bwtInv .B) = 0x00000122#32 ∧
  ∀ (s : State) (b : Buf), s.srstPend = false →
    (∀ xs : List Byte, s.latch.a0.toNat = xs.length → 0 < xs.length → xs.length ≤ s.cfg.nbuf →
      s.latch.a1.toNat < xs.length → s.holds (bufWindow b) 0 xs →
      ∃ t, exec (.bwtInv b) s = .next t ∧
        t = { s with res0 := t.res0, res1 := t.res1, status := s.status.succeeded, mem := t.mem } ∧
        t.res0.toNat = xs.length - 1 ∧ t.res1.toNat = (lfOf xs)^[xs.length] s.latch.a1.toNat ∧
        (∀ j, t.byteAt (bufWindow (otherBuf b)) j =
          if j < xs.length then xs[(lfOf xs)^[xs.length - 1 - j] s.latch.a1.toNat]?
          else s.byteAt (bufWindow (otherBuf b)) j) ∧
        (∀ i, i < xs.length →
          t.wordAt .rank i = some (BitVec.ofNat 32 ((xs.take i).count (xs.getD i 0#8)))) ∧
        (∀ o, 4 * xs.length ≤ o → t.byteAt .rank o = s.byteAt .rank o) ∧
        (∀ c : Byte, t.wordAt .first c.toNat = some (BitVec.ofNat 32 (xs.countP fun x => x < c))) ∧
        SameBut [bufWindow (otherBuf b), .rank, .first] s t) ∧
    (s.latch.a0.toNat = 0 ∨ s.cfg.nbuf < s.latch.a0.toNat →
      exec (.bwtInv b) s = .next { s with res0 := 0#32, res1 := 0#32, status := s.status.failed 2#4 }) ∧
    (0 < s.latch.a0.toNat → s.latch.a0.toNat ≤ s.cfg.nbuf → s.latch.a0.toNat ≤ s.latch.a1.toNat →
      exec (.bwtInv b) s = .next { s with res0 := 0#32, res1 := 0#32, status := s.status.failed 4#4 })

/-- R145: the map `i ↦ FIRST[src[i]] + RANK[i]` that BWT_INV walks is a permutation of `0..n−1`, whatever the source,
so that no read goes outside it. -/
def Obligations.RankMapIsAPermutation : Prop :=
  ∀ xs : List Byte,
    Set.BijOn (lfMap xs (firstTable xs) (rankTable xs)) (Set.Iio xs.length) (Set.Iio xs.length)

/-- R144 (which the spec states from general knowledge): the inverse law of the block transform.  On the forward
transform of a sequence whose last byte occurs nowhere else in it, with its primary index, BWT_INV gives the sequence
back, and the walk ends where it began. -/
def Obligations.BwtInvUndoesTheForwardTransform : Prop :=
  ∀ (s : State) (b : Buf) (xs ts : List Byte), s.srstPend = false → xs.length ≤ s.cfg.nbuf →
    s.latch.a0.toNat = xs.length → IsForwardTransform xs ts s.latch.a1.toNat → s.holds (bufWindow b) 0 ts →
    ∃ t, exec (.bwtInv b) s = .next t ∧ t.status.err = false ∧ t.res0.toNat = xs.length - 1 ∧ t.res1 = s.latch.a1 ∧
      t.holds (bufWindow (otherBuf b)) 0 xs

/-! ### The Huffman unit -/

/-- R160: FREQ_COUNT overwrites all 256 counts and changes no flag of the tree; or `BAD_ARG`. -/
def Obligations.FreqCountCountsTheSymbols : Prop :=
  encode (.freqCount .A) = 0x00000001#32 ∧ encode (.freqCount .B) = 0x00000101#32 ∧
  ∀ (s : State) (b : Buf), s.srstPend = false →
    (∀ xs : List Byte, s.latch.a0.toNat = xs.length → xs.length ≤ s.cfg.nbuf → s.holds (bufWindow b) 0 xs →
      ∃ t, exec (.freqCount b) s = .next t ∧
        t = { s with res0 := s.latch.a0, res1 := t.res1, status := s.status.succeeded, mem := t.mem } ∧
        t.res1.toNat = xs.dedup.length ∧
        (∀ c : Byte, t.wordAt .freq c.toNat = some (BitVec.ofNat 32 (xs.count c))) ∧ SameBut [.freq] s t) ∧
    (s.cfg.nbuf < s.latch.a0.toNat →
      exec (.freqCount b) s = .next { s with res0 := 0#32, res1 := 0#32, status := s.status.failed 2#4 })

/-- R161, R43: HUF_BUILD on a written table leaves the tree of that table in `TREE`, zero slots after it, and the tree
registers and flags; it raises no error. -/
def Obligations.HufBuildStoresTheTree : Prop :=
  encode .hufBuild = 0x00000002#32 ∧
  ∀ (s : State) (fs : List Word), s.srstPend = false → fs.length = 256 → s.holdsWords .freq 0 fs →
    ∃ t nodes k, exec .hufBuild s = .next t ∧ IsHuffmanTree (fs.map BitVec.toNat) nodes ∧
      k = (codedSymbols (fs.map BitVec.toNat)).length ∧
      t = { s with
        nleaf := BitVec.ofNat 32 k
        nnode := BitVec.ofNat 32 nodes.length
        root := if k = 0 then 0x1FF#9 else BitVec.ofNat 9 (2 * k - 2)
        res0 := BitVec.ofNat 32 k
        res1 := BitVec.ofNat 32 nodes.length
        status := { s.status.succeeded with treev := true, lone := decide (k = 1), codev := false }
        mem := t.mem } ∧
      TreeStored t nodes ∧
      (∀ i nd, nodes[i]? = some nd → t.holdsWords .tree (4 * i) (packNode nd)) ∧
      (∀ j, 4 * nodes.length ≤ j → j < 2048 → t.wordAt .tree j = some 0#32) ∧
      SameBut [.tree] s t

/-- R43, R44: the slot and entry formats lose nothing: a node whose fields fit is read back from its four words, and
a code from its sixteen, with `LEN` in word 0, bit `j` at bit `31 − (j mod 32)` of word `1 + floor(j/32)`, zeros after. -/
def Obligations.SlotAndEntryFormats : Prop :=
  (∀ (c : Byte) (f : Nat), f < 2 ^ 40 →
    ∃ w0 w1 w2 w3, packNode (.leaf c f) = [w0, w1, w2, w3] ∧ unpackNode w0 w1 w2 w3 = .leaf c f ∧
      w0.getLsbD 31 = false ∧ w0.toNat = c.toNat ∧ w1 = 0#32 ∧ w2.toNat = f % 2 ^ 32 ∧ w3.toNat = f / 2 ^ 32) ∧
  (∀ key l r f : Nat, key < 2 ^ 9 → l < 2 ^ 9 → r < 2 ^ 9 → f < 2 ^ 40 →
    ∃ w0 w1 w2 w3, packNode (.internal key l r f) = [w0, w1, w2, w3] ∧
      unpackNode w0 w1 w2 w3 = .internal key l r f ∧ w0.toNat = 2 ^ 31 + key ∧ w1.toNat = 2 ^ 16 * r + l ∧
      w2.toNat = f % 2 ^ 32 ∧ w3.toNat = f / 2 ^ 32) ∧
  ∀ bits : List Bool, bits.length ≤ 255 →
    (packCode bits).length = 16 ∧ (∀ w, (packCode bits)[0]? = some w → w.toNat = bits.length) ∧
    (∀ j w, j < 256 → (packCode bits)[1 + j / 32]? = some w → w.getLsbD (31 - j % 32) = bits.getD j false) ∧
    ∀ k, 9 ≤ k → k < 16 → (packCode bits)[k]? = some 0#32

/-- R162: HUF_CODES gives each symbol with a non-zero count the path to its leaf (the one bit 0 for a lone leaf) and
every other symbol `LEN = 0`; `RES0` is the longest length; without a tree it raises `SEQUENCE`. -/
def Obligations.HufCodesWritesThePaths : Prop :=
  encode .hufCodes = 0x00000003#32 ∧
  ∀ s : State, s.srstPend = false →
    (∀ fs : List Nat, s.status.treev = true → IsFreqTable fs → HoldsTreeOf s fs →
      ∃ (t : State) (code : Byte → List Bool), exec .hufCodes s = .next t ∧
        t = { s with
          res0 := t.res0, res1 := s.nleaf, status := { s.status.succeeded with codev := true }, mem := t.mem } ∧
        (∀ c, t.codeIs c (code c)) ∧ SameBut [.code] s t ∧
        (∀ c, (code c).length ≤ 255 ∧ (code c).length ≤ t.res0.toNat) ∧ (∃ c, (code c).length = t.res0.toNat) ∧
        ∀ c : Byte,
          (fs.getD c.toNat 0 = 0 → code c = []) ∧
          (0 < fs.getD c.toNat 0 → s.nleaf.toNat = 1 → code c = [false]) ∧
          (0 < fs.getD c.toNat 0 → 2 ≤ s.nleaf.toNat →
            1 ≤ (code c).length ∧ LeadsTo (buildNodes fs) s.root.toNat (code c) c)) ∧
    (s.status.treev = false →
      exec .hufCodes s = .next { s with res0 := 0#32, res1 := 0#32, status := s.status.failed 3#4 })

/-- R166: the codes HUF_CODES leaves are prefix-free, and for two or more leaves their Kraft sum is 1 (over the common
denominator `2^255`); the one code of a lone leaf is `0`. -/
def Obligations.CodesArePrefixFree : Prop :=
  ∀ (s : State) (fs : List Nat), s.srstPend = false → s.status.treev = true → IsFreqTable fs → HoldsTreeOf s fs →
    ∃ (t : State) (code : Byte → List Bool), exec .hufCodes s = .next t ∧ (∀ c, t.codeIs c (code c)) ∧
      (2 ≤ s.nleaf.toNat →
        (∀ a b : Byte, 0 < fs.getD a.toNat 0 → 0 < fs.getD b.toNat 0 → a ≠ b → ¬ code a <+: code b) ∧
        ((codedSymbols fs).map fun c => 2 ^ (255 - (code (BitVec.ofNat 8 c)).length)).sum = 2 ^ 255) ∧
      (s.nleaf.toNat = 1 → ∀ c : Byte, 0 < fs.getD c.toNat 0 → code c = [false])

/-- R163: HUF_ENCODE appends the codes of its symbols in order. -/
def Obligations.HufEncodeAppendsTheCodes : Prop :=
  ∀ (s : State) (b : Buf) (xs : List Byte) (code : Byte → List Bool), s.srstPend = false → s.cfg.legal →
    s.status.codev = true → s.latch.a0.toNat = xs.length → xs.length ≤ s.cfg.nbuf → s.holds (bufWindow b) 0 xs →
    s.partialByteWritten → (∀ c ∈ xs, code c ≠ [] ∧ (code c).length ≤ 255 ∧ s.codeIs c (code c)) →
    s.wbits.toNat + (xs.flatMap code).length ≤ 8 * s.cfg.bitcap →
    ∃ t, exec (.hufEncode b) s = .next t ∧
      t = { s with
        wbits := t.wbits, res0 := s.latch.a0, res1 := t.wbits, status := s.status.succeeded, mem := t.mem } ∧
      BitsAppended s (xs.flatMap code) t ∧ SameBut [.bits] s t

/-- R163, R202, R203: HUF_ENCODE stops at the first symbol without a code (`NO_CODE`) or whose code does not fit
(`BUFFER_OVERFLOW`): the codes before it stay written, none of its bits is. -/
def Obligations.HufEncodeStopsAtTheFirstFailure : Prop :=
  ∀ (s : State) (b : Buf) (xs : List Byte) (c : Byte) (code : Byte → List Bool), s.srstPend = false → s.cfg.legal →
    s.status.codev = true → xs.length < s.latch.a0.toNat → s.latch.a0.toNat ≤ s.cfg.nbuf →
    s.holds (bufWindow b) 0 (xs ++ [c]) → s.partialByteWritten →
    (∀ x ∈ xs, code x ≠ []) → (∀ x ∈ xs ++ [c], (code x).length ≤ 255 ∧ s.codeIs x (code x)) →
    s.wbits.toNat + (xs.flatMap code).length ≤ 8 * s.cfg.bitcap →
    (code c = [] ∨ 8 * s.cfg.bitcap < s.wbits.toNat + (xs.flatMap code).length + (code c).length) →
    ∃ t, exec (.hufEncode b) s = .next t ∧
      t = { s with
        wbits := t.wbits, res0 := BitVec.ofNat 32 xs.length, res1 := t.wbits
        status := s.status.failed (if code c = [] then 7#4 else 6#4), mem := t.mem } ∧
      BitsAppended s (xs.flatMap code) t ∧ SameBut [.bits] s t

/-- R164: HUF_DECODE with a tree that is no lone leaf: where the stream holds, from the cursor on, bit strings that
lead from the root to leaves, it writes those leaves' symbols and consumes exactly those bits. -/
def Obligations.HufDecodeFollowsTheTree : Prop :=
  ∀ (s : State) (b : Buf) (nodes : List Node) (xs : List Byte) (codes : List (List Bool)), s.srstPend = false →
    s.status.treev = true → s.latch.a0.toNat = xs.length → xs.length ≤ s.cfg.nbuf → s.nleaf.toNat ≠ 1 →
    (xs ≠ [] → s.nleaf.toNat ≠ 0) → TreeStored s nodes → codes.length = xs.length →
    (∀ (i : Nat) (x : Byte) (code : List Bool), xs[i]? = some x → codes[i]? = some code → LeadsTo nodes s.root.toNat code x) →
    s.streamHolds s.rcur.toNat codes.flatten → s.rcur.toNat + codes.flatten.length ≤ s.rlim.toNat →
    xs.length ≤ s.rlim.toNat - s.rcur.toNat →
    ∃ t, exec (.hufDecode b) s = .next t ∧
      t = { s with
        rcur := t.rcur, res0 := s.latch.a0, res1 := BitVec.ofNat 32 codes.flatten.length
        status := s.status.succeeded, mem := t.mem } ∧
      t.rcur.toNat = s.rcur.toNat + codes.flatten.length ∧
      Overwritten (bufWindow b) xs s t ∧ SameBut [bufWindow b] s t

/-- R164, the lone leaf: `n` copies of its symbol, with no bit read, whatever the reader and `BITS` hold. -/
def Obligations.HufDecodeOfALoneLeafReadsNoBit : Prop :=
  ∀ (s : State) (b : Buf) (c : Byte) (f : Nat), s.srstPend = false → s.status.treev = true → s.nleaf.toNat = 1 →
    s.slotAt s.root.toNat = some (.leaf c f) → s.latch.a0.toNat ≤ s.cfg.nbuf →
    ∃ t, exec (.hufDecode b) s = .next t ∧
      t = { s with res0 := s.latch.a0, res1 := 0#32, status := s.status.succeeded, mem := t.mem } ∧
      Overwritten (bufWindow b) (List.replicate s.latch.a0.toNat c) s t ∧ SameBut [bufWindow b] s t

/-- R164, R203: HUF_DECODE that runs out of bits inside symbol `i`: the symbols before it stay written, `RCUR = RLIM`,
`RES0 = i`, `RES1` counts all bits consumed. -/
def Obligations.HufDecodeStopsWhenBitsRunOut : Prop :=
  ∀ (s : State) (b : Buf) (nodes : List Node) (xs : List Byte) (codes : List (List Bool)) (tail : List Bool)
    (i : Nat) (key l r f : Nat), s.srstPend = false → s.status.treev = true → 2 ≤ s.nleaf.toNat →
    xs.length < s.latch.a0.toNat → s.latch.a0.toNat ≤ s.cfg.nbuf →
    s.latch.a0.toNat ≤ s.rlim.toNat - s.rcur.toNat → TreeStored s nodes → codes.length = xs.length →
    (∀ (j : Nat) (x : Byte) (code : List Bool), xs[j]? = some x → codes[j]? = some code → LeadsTo nodes s.root.toNat code x) →
    descend nodes s.root.toNat tail = some i → nodes[i]? = some (.internal key l r f) →
    s.streamHolds s.rcur.toNat (codes.flatten ++ tail) →
    s.rcur.toNat + (codes.flatten ++ tail).length = s.rlim.toNat →
    ∃ t, exec (.hufDecode b) s = .next t ∧
      t = { s with
        rcur := s.rlim, res0 := BitVec.ofNat 32 xs.length, res1 := s.rlim - s.rcur
        status := s.status.failed 5#4, mem := t.mem } ∧
      Overwritten (bufWindow b) xs s t ∧ SameBut [bufWindow b] s t

/-- R202, R200: the checks before any write, in their order: `SEQUENCE`, then `BAD_ARG`, then `MALFORMED_HEADER`; a
command that fails one changes only `RES0`, `RES1` and `STATUS`. -/
def Obligations.FailedChecksChangeNothingElse : Prop :=
  ∀ (s : State) (b : Buf), s.srstPend = false →
    (s.status.treev = false → ∀ i ∈ [Instr.hufCodes, .hufDecode b],
      exec i s = .next { s with res0 := 0#32, res1 := 0#32, status := s.status.failed 3#4 }) ∧
    (s.status.codev = false →
      exec (.hufEncode b) s = .next { s with res0 := 0#32, res1 := 0#32, status := s.status.failed 3#4 }) ∧
    (s.cfg.nbuf < s.latch.a0.toNat → ∀ i ∈ [Instr.freqCount b, .mtfFwd b, .mtfInv b, .bwtInv b],
      exec i s = .next { s with res0 := 0#32, res1 := 0#32, status := s.status.failed 2#4 }) ∧
    (s.cfg.nbuf < s.latch.a0.toNat → s.status.codev = true →
      exec (.hufEncode b) s = .next { s with res0 := 0#32, res1 := 0#32, status := s.status.failed 2#4 }) ∧
    (s.cfg.nbuf < s.latch.a0.toNat → s.status.treev = true →
      exec (.hufDecode b) s = .next { s with res0 := 0#32, res1 := 0#32, status := s.status.failed 2#4 }) ∧
    (s.status.treev = true → s.latch.a0.toNat ≤ s.cfg.nbuf →
      ((0 < s.latch.a0.toNat ∧ s.nleaf.toNat = 0) ∨
        (2 ≤ s.nleaf.toNat ∧ s.rlim.toNat - s.rcur.toNat < s.latch.a0.toNat)) →
      exec (.hufDecode b) s = .next { s with res0 := 0#32, res1 := 0#32, status := s.status.failed 4#4 })

/-- R11, R235 (93_implementation_defined.md item 6): a command that must read an entry never written faults: each
source reader, HUF_BUILD, BR_GET, HUF_ENCODE that reaches an unwritten source byte after the symbols `xs` with no error
before it, and HUF_DECODE that needs an unwritten stream bit below `RLIM`, after the symbols `xs` and the bits `tail`. -/
def Obligations.ReadingUnwrittenEntriesFaults : Prop :=
  ∀ (s : State) (b : Buf),
    (∀ o, o < s.latch.a0.toNat → s.latch.a0.toNat ≤ s.cfg.nbuf → s.byteAt (bufWindow b) o = none →
      (∀ i ∈ [Instr.freqCount b, .mtfFwd b, .mtfInv b], exec i s = .fault (.unwritten (bufWindow b))) ∧
      (s.latch.a1.toNat < s.latch.a0.toNat → exec (.bwtInv b) s = .fault (.unwritten (bufWindow b)))) ∧
    (∀ c, c < 256 → s.wordAt .freq c = none → exec .hufBuild s = .fault (.unwritten .freq)) ∧
    (∀ cnt j, j < cnt → s.rcur.toNat + cnt ≤ s.rlim.toNat → s.streamAt (s.rcur.toNat + j) = none →
      exec (.brGet cnt) s = .fault (.unwritten .bits)) ∧
    (∀ (xs : List Byte) (code : Byte → List Bool), s.cfg.legal → s.status.codev = true →
      xs.length < s.latch.a0.toNat → s.latch.a0.toNat ≤ s.cfg.nbuf → s.holds (bufWindow b) 0 xs →
      s.byteAt (bufWindow b) xs.length = none → s.partialByteWritten →
      (∀ x ∈ xs, code x ≠ [] ∧ (code x).length ≤ 255 ∧ s.codeIs x (code x)) →
      s.wbits.toNat + (xs.flatMap code).length ≤ 8 * s.cfg.bitcap →
      exec (.hufEncode b) s = .fault (.unwritten (bufWindow b))) ∧
    ∀ (nodes : List Node) (xs : List Byte) (codes : List (List Bool)) (tail : List Bool) (i key l r f : Nat),
      s.status.treev = true → 2 ≤ s.nleaf.toNat → xs.length < s.latch.a0.toNat → s.latch.a0.toNat ≤ s.cfg.nbuf →
      s.latch.a0.toNat ≤ s.rlim.toNat - s.rcur.toNat → TreeStored s nodes → codes.length = xs.length →
      (∀ (j : Nat) (x : Byte) (code : List Bool), xs[j]? = some x → codes[j]? = some code →
        LeadsTo nodes s.root.toNat code x) →
      descend nodes s.root.toNat tail = some i → nodes[i]? = some (.internal key l r f) →
      s.streamHolds s.rcur.toNat (codes.flatten ++ tail) →
      s.rcur.toNat + (codes.flatten ++ tail).length < s.rlim.toNat →
      s.streamAt (s.rcur.toNat + (codes.flatten ++ tail).length) = none →
      exec (.hufDecode b) s = .fault (.unwritten .bits)

/-- R165: `TREE` and `CODE` after HUF_BUILD and HUF_CODES are a function of the 256 values of `FREQ` alone. -/
def Obligations.TreeAndCodesDependOnFreqAlone : Prop :=
  ∀ (s1 s2 : State) (fs : List Word), s1.srstPend = false → s2.srstPend = false → fs.length = 256 →
    s1.holdsWords .freq 0 fs → s2.holdsWords .freq 0 fs →
    ∃ u1 u2, commands [(.hufBuild, 0#32, 0#32), (.hufCodes, 0#32, 0#32)] s1 = .next u1 ∧
      commands [(.hufBuild, 0#32, 0#32), (.hufCodes, 0#32, 0#32)] s2 = .next u2 ∧
      (∀ o, o < 8192 → u1.byteAt .tree o = u2.byteAt .tree o ∧ (u1.byteAt .tree o).isSome) ∧
      ∀ o, o < 16384 → u1.byteAt .code o = u2.byteAt .code o ∧ (u1.byteAt .code o).isSome

/-- R167: the round trip.  FREQ_COUNT, HUF_BUILD, HUF_CODES and BW_INIT succeed; HUF_ENCODE reports
`BUFFER_OVERFLOW` when the code bits (`code`, the codes that stand in `CODE`) exceed `8·BITCAP`; when they do not, it,
BW_FLUSH, BR_INIT and HUF_DECODE succeed and give the sequence back in the other buffer. -/
def Obligations.HuffmanRoundTrip : Prop :=
  ∀ (s : State) (b : Buf) (xs : List Byte) (n : Word), s.srstPend = false → s.cfg.legal → n.toNat = xs.length →
    xs.length ≤ s.cfg.nbuf → s.holds (bufWindow b) 0 xs →
    ∃ (s1 s2 s3 s4 s5 : State) (code : Byte → List Bool),
      command (.freqCount b) n 0#32 s = .next s1 ∧ s1.status.err = false ∧
      command .hufBuild 0#32 0#32 s1 = .next s2 ∧ s2.status.err = false ∧
      command .hufCodes 0#32 0#32 s2 = .next s3 ∧ s3.status.err = false ∧
      (∀ c, (code c).length ≤ 255 ∧ s3.codeIs c (code c)) ∧
      command .bwInit 0#32 0#32 s3 = .next s4 ∧ s4.status.err = false ∧
      command (.hufEncode b) n 0#32 s4 = .next s5 ∧
      (8 * s.cfg.bitcap < (xs.flatMap code).length → s5.status.err = true ∧ s5.status.errcode = 6#4) ∧
      ((xs.flatMap code).length ≤ 8 * s.cfg.bitcap →
        s5.status.err = false ∧ ∃ s6 s7 s8, command .bwFlush 0#32 0#32 s5 = .next s6 ∧ s6.status.err = false ∧
          command .brInit 0#32 s6.res0 s6 = .next s7 ∧ s7.status.err = false ∧
          command (.hufDecode (otherBuf b)) n 0#32 s7 = .next s8 ∧ s8.status.err = false ∧
          s8.holds (bufWindow (otherBuf b)) 0 xs ∧
          (xs = [] → s2.nleaf = 0#32 ∧ s6.res0 = 0#32) ∧
          (xs.dedup.length = 1 → s6.res0.toNat = (xs.length + 7) / 8 ∧ s8.rcur = s7.rcur))

/-! ### Invariants and whole-machine rules -/

/-- Every step keeps every memory in its canonical form, and no memory ever holds a byte past its cap (R61, R49).  The
canonical form, a list of cells with rising offsets, is the model's own (log entry 2), and no rule of the spec. -/
def Obligations.MemoriesStayCanonicalAndInStorage : Prop :=
  ∀ s t : State, step s = .next t →
    (MemoriesCanonical s → MemoriesCanonical t) ∧
    (EntriesInStorage s → EntriesInStorage t)

/-- R30–R32: every step keeps the stream registers in their ranges. -/
def Obligations.StreamRegistersStayInRange : Prop :=
  ∀ s t : State, StreamInRange s → step s = .next t → StreamInRange t

/-- R24, R50, R51, R33–R35: every step keeps the flags in agreement with each other and with the tree registers, and
the tree registers with each other. -/
def Obligations.FlagsStayInAgreement : Prop :=
  ∀ s t : State, step s = .next t →
    (FlagsAgree s → FlagsAgree t) ∧ (TreeRegistersAgree s → TreeRegistersAgree t)

/-- R24, R51: every step keeps what `TREEV` and `CODEV` say: a built tree in `TREE`, its code table in `CODE`. -/
def Obligations.TreeAndCodeStayValid : Prop :=
  ∀ s t : State, TreeAndCodeValid s → step s = .next t → TreeAndCodeValid t

/-- R42, R140: every step keeps `RLIST` unwritten or a permutation of 0..255, and no step writes it but MTF_FWD and
MTF_INV. -/
def Obligations.RlistStaysAPermutation : Prop :=
  ∀ s t : State, RlistPermutation s → step s = .next t → RlistPermutation t

/-- The state after power-on reset meets every invariant, whatever its legal parameters. -/
def Obligations.ResetMeetsTheInvariants : Prop :=
  ∀ c : Config, c.legal →
    MemoriesCanonical (State.powerOn c) ∧ EntriesInStorage (State.powerOn c) ∧ StreamInRange (State.powerOn c) ∧
    FlagsAgree (State.powerOn c) ∧ TreeRegistersAgree (State.powerOn c) ∧ TreeAndCodeValid (State.powerOn c) ∧
    RlistPermutation (State.powerOn c) ∧ AtReset (State.powerOn c) ∧ State.reset.cfg.legal ∧
    State.reset = State.powerOn State.reset.cfg

/-- R51: the only ways `TREEV`, `CODEV` and `LONE` change, and what they gate. -/
def Obligations.ValidityFlagsChangeOnlyAsStated : Prop :=
  ∀ s t : State, step s = .next t →
    (engineRuns s = true → decode s.latch.w = .ok .hufBuild → s.srstPend = false →
      t.status.treev = true ∧ t.status.codev = false ∧ t.status.lone = decide (t.nleaf = 1#32)) ∧
    (engineRuns s = true → decode s.latch.w = .ok .hufCodes → s.srstPend = false → s.status.treev = true →
      t.status.codev = true ∧ t.status.treev = true ∧ t.status.lone = s.status.lone) ∧
    (AtReset t → t.status.treev = false ∧ t.status.codev = false ∧ t.status.lone = false) ∧
    (¬ (engineRuns s = true ∧ decode s.latch.w = .ok .hufBuild) →
      ¬ (engineRuns s = true ∧ decode s.latch.w = .ok .hufCodes ∧ s.status.treev = true) → ¬ AtReset t →
      t.status.treev = s.status.treev ∧ t.status.codev = s.status.codev ∧ t.status.lone = s.status.lone) ∧
    (engineRuns s = true → s.srstPend = false →
      (decode s.latch.w = .ok .hufCodes ∧ s.status.treev = false) ∨
        (∃ b, decode s.latch.w = .ok (.hufEncode b) ∧ s.status.codev = false) ∨
        (∃ b, decode s.latch.w = .ok (.hufDecode b) ∧ s.status.treev = false) →
      t.status = s.status.failed 3#4)

/-- R127, R32: the only commands that move the writer and the reader. -/
def Obligations.StreamRegistersChangeOnlyAsStated : Prop :=
  ∀ s t : State, step s = .next t → ¬ AtReset t →
    (t.wbits ≠ s.wbits → engineRuns s = true ∧ ∃ i, decode s.latch.w = .ok i ∧
      (i = .bwInit ∨ (∃ cnt, i = .bwPut cnt) ∨ i = .bwFlush ∨ ∃ b, i = .hufEncode b)) ∧
    (t.rcur ≠ s.rcur → engineRuns s = true ∧ ∃ i, decode s.latch.w = .ok i ∧
      (i = .brInit ∨ (∃ cnt, i = .brGet cnt) ∨ ∃ b, i = .hufDecode b)) ∧
    (t.rlim ≠ s.rlim → engineRuns s = true ∧ decode s.latch.w = .ok .brInit)

/-- R41–R44, R48: each memory that the host cannot write has the writers its rule names, and nothing else changes it
but power-on reset. -/
def Obligations.ReadOnlyMemoriesHaveTheirWriters : Prop :=
  ∀ s t : State, step s = .next t → nextEvent s ≠ .rstFall → ∀ (w : Window) (o : Nat),
    w ∈ [Window.first, .rlist, .tree, .code, .rank] → t.byteAt w o ≠ s.byteAt w o →
    engineRuns s = true ∧ ∃ i, decode s.latch.w = .ok i ∧
      ((w = .tree ∧ i = .hufBuild) ∨ (w = .code ∧ i = .hufCodes) ∨
        (w = .rlist ∧ ((∃ b, i = .mtfFwd b) ∨ ∃ b, i = .mtfInv b)) ∨
        ((w = .first ∨ w = .rank) ∧ ∃ b, i = .bwtInv b))

/-- R88: the bus accesses of a command line, in an idle HCB, put its operands in `ARG0` and `ARG1` and start it.  That a
`WAIT` is one engine turn, the command's execution, and one read of `STATUS`, in a schedule held in State, is the
model's choice (log entry 4): R88 and R89 give `WAIT` as reads of `STATUS` alone. -/
def Obligations.CommandLinesRunTheirCommand : Prop :=
  ∀ (s : State) (i : Instr) (a0 a1 : Option Word) (rest : List Event), i.wellFormed = true →
    s.status.busy = false → s.rstLow = false → s.schedule = issue i a0 a1 ++ rest →
    ∃ u, Sys2Proof.core.run (1 + a0.toList.length + a1.toList.length) s = .next u ∧
      u = { issued i (a0.getD s.arg0) (a1.getD s.arg1) s with schedule := stmtWait ++ rest } ∧
      step u = exec i { u with schedule := .read Reg.status.byteOffset :: rest }
end

