-- ==== Sys2Proof/Laws/State.lean ====
section
/-! SUPPORT. What each update of the state does to each field, one lemma per field and update, so that no proof
unfolds a record update. -/

namespace Sys2Proof.Machine

/-! ### `State.storeBytes` -/

@[simp] theorem State.storeBytes_cfg (s : State) (w : Window) (o : Nat) (bs : List Byte) :
    (s.storeBytes w o bs).cfg = s.cfg := rfl
@[simp] theorem State.storeBytes_ie (s : State) (w : Window) (o : Nat) (bs : List Byte) :
    (s.storeBytes w o bs).ie = s.ie := rfl
@[simp] theorem State.storeBytes_status (s : State) (w : Window) (o : Nat) (bs : List Byte) :
    (s.storeBytes w o bs).status = s.status := rfl
@[simp] theorem State.storeBytes_cmd (s : State) (w : Window) (o : Nat) (bs : List Byte) :
    (s.storeBytes w o bs).cmd = s.cmd := rfl
@[simp] theorem State.storeBytes_arg0 (s : State) (w : Window) (o : Nat) (bs : List Byte) :
    (s.storeBytes w o bs).arg0 = s.arg0 := rfl
@[simp] theorem State.storeBytes_arg1 (s : State) (w : Window) (o : Nat) (bs : List Byte) :
    (s.storeBytes w o bs).arg1 = s.arg1 := rfl
@[simp] theorem State.storeBytes_res0 (s : State) (w : Window) (o : Nat) (bs : List Byte) :
    (s.storeBytes w o bs).res0 = s.res0 := rfl
@[simp] theorem State.storeBytes_res1 (s : State) (w : Window) (o : Nat) (bs : List Byte) :
    (s.storeBytes w o bs).res1 = s.res1 := rfl
@[simp] theorem State.storeBytes_wbits (s : State) (w : Window) (o : Nat) (bs : List Byte) :
    (s.storeBytes w o bs).wbits = s.wbits := rfl
@[simp] theorem State.storeBytes_rcur (s : State) (w : Window) (o : Nat) (bs : List Byte) :
    (s.storeBytes w o bs).rcur = s.rcur := rfl
@[simp] theorem State.storeBytes_rlim (s : State) (w : Window) (o : Nat) (bs : List Byte) :
    (s.storeBytes w o bs).rlim = s.rlim := rfl
@[simp] theorem State.storeBytes_nleaf (s : State) (w : Window) (o : Nat) (bs : List Byte) :
    (s.storeBytes w o bs).nleaf = s.nleaf := rfl
@[simp] theorem State.storeBytes_nnode (s : State) (w : Window) (o : Nat) (bs : List Byte) :
    (s.storeBytes w o bs).nnode = s.nnode := rfl
@[simp] theorem State.storeBytes_root (s : State) (w : Window) (o : Nat) (bs : List Byte) :
    (s.storeBytes w o bs).root = s.root := rfl
@[simp] theorem State.storeBytes_latch (s : State) (w : Window) (o : Nat) (bs : List Byte) :
    (s.storeBytes w o bs).latch = s.latch := rfl
@[simp] theorem State.storeBytes_srstPend (s : State) (w : Window) (o : Nat) (bs : List Byte) :
    (s.storeBytes w o bs).srstPend = s.srstPend := rfl
@[simp] theorem State.storeBytes_mem (s : State) (w : Window) (o : Nat) (bs : List Byte) :
    (s.storeBytes w o bs).mem = s.mem.put w ((s.mem.sel w).store o bs) := rfl
@[simp] theorem State.storeBytes_rstLow (s : State) (w : Window) (o : Nat) (bs : List Byte) :
    (s.storeBytes w o bs).rstLow = s.rstLow := rfl
@[simp] theorem State.storeBytes_rdata (s : State) (w : Window) (o : Nat) (bs : List Byte) :
    (s.storeBytes w o bs).rdata = s.rdata := rfl
@[simp] theorem State.storeBytes_schedule (s : State) (w : Window) (o : Nat) (bs : List Byte) :
    (s.storeBytes w o bs).schedule = s.schedule := rfl
@[simp] theorem State.storeBytes_freeCount (s : State) (w : Window) (o : Nat) (bs : List Byte) :
    (s.storeBytes w o bs).freeCount = s.freeCount := rfl

/-! ### `State.setRes` -/

@[simp] theorem State.setRes_cfg (s : State) (r0 r1 : Nat) : (s.setRes r0 r1).cfg = s.cfg := rfl
@[simp] theorem State.setRes_ie (s : State) (r0 r1 : Nat) : (s.setRes r0 r1).ie = s.ie := rfl
@[simp] theorem State.setRes_status (s : State) (r0 r1 : Nat) : (s.setRes r0 r1).status = s.status := rfl
@[simp] theorem State.setRes_cmd (s : State) (r0 r1 : Nat) : (s.setRes r0 r1).cmd = s.cmd := rfl
@[simp] theorem State.setRes_arg0 (s : State) (r0 r1 : Nat) : (s.setRes r0 r1).arg0 = s.arg0 := rfl
@[simp] theorem State.setRes_arg1 (s : State) (r0 r1 : Nat) : (s.setRes r0 r1).arg1 = s.arg1 := rfl
@[simp] theorem State.setRes_res0 (s : State) (r0 r1 : Nat) : (s.setRes r0 r1).res0 = wordOf r0 := rfl
@[simp] theorem State.setRes_res1 (s : State) (r0 r1 : Nat) : (s.setRes r0 r1).res1 = wordOf r1 := rfl
@[simp] theorem State.setRes_wbits (s : State) (r0 r1 : Nat) : (s.setRes r0 r1).wbits = s.wbits := rfl
@[simp] theorem State.setRes_rcur (s : State) (r0 r1 : Nat) : (s.setRes r0 r1).rcur = s.rcur := rfl
@[simp] theorem State.setRes_rlim (s : State) (r0 r1 : Nat) : (s.setRes r0 r1).rlim = s.rlim := rfl
@[simp] theorem State.setRes_nleaf (s : State) (r0 r1 : Nat) : (s.setRes r0 r1).nleaf = s.nleaf := rfl
@[simp] theorem State.setRes_nnode (s : State) (r0 r1 : Nat) : (s.setRes r0 r1).nnode = s.nnode := rfl
@[simp] theorem State.setRes_root (s : State) (r0 r1 : Nat) : (s.setRes r0 r1).root = s.root := rfl
@[simp] theorem State.setRes_latch (s : State) (r0 r1 : Nat) : (s.setRes r0 r1).latch = s.latch := rfl
@[simp] theorem State.setRes_srstPend (s : State) (r0 r1 : Nat) : (s.setRes r0 r1).srstPend = s.srstPend := rfl
@[simp] theorem State.setRes_mem (s : State) (r0 r1 : Nat) : (s.setRes r0 r1).mem = s.mem := rfl
@[simp] theorem State.setRes_rstLow (s : State) (r0 r1 : Nat) : (s.setRes r0 r1).rstLow = s.rstLow := rfl
@[simp] theorem State.setRes_rdata (s : State) (r0 r1 : Nat) : (s.setRes r0 r1).rdata = s.rdata := rfl
@[simp] theorem State.setRes_schedule (s : State) (r0 r1 : Nat) : (s.setRes r0 r1).schedule = s.schedule := rfl
@[simp] theorem State.setRes_freeCount (s : State) (r0 r1 : Nat) : (s.setRes r0 r1).freeCount = s.freeCount := rfl

/-! ### `State.setWbits` -/

@[simp] theorem State.setWbits_cfg (s : State) (p : Nat) : (s.setWbits p).cfg = s.cfg := rfl
@[simp] theorem State.setWbits_ie (s : State) (p : Nat) : (s.setWbits p).ie = s.ie := rfl
@[simp] theorem State.setWbits_status (s : State) (p : Nat) : (s.setWbits p).status = s.status := rfl
@[simp] theorem State.setWbits_cmd (s : State) (p : Nat) : (s.setWbits p).cmd = s.cmd := rfl
@[simp] theorem State.setWbits_arg0 (s : State) (p : Nat) : (s.setWbits p).arg0 = s.arg0 := rfl
@[simp] theorem State.setWbits_arg1 (s : State) (p : Nat) : (s.setWbits p).arg1 = s.arg1 := rfl
@[simp] theorem State.setWbits_res0 (s : State) (p : Nat) : (s.setWbits p).res0 = s.res0 := rfl
@[simp] theorem State.setWbits_res1 (s : State) (p : Nat) : (s.setWbits p).res1 = s.res1 := rfl
@[simp] theorem State.setWbits_wbits (s : State) (p : Nat) : (s.setWbits p).wbits = wordOf p := rfl
@[simp] theorem State.setWbits_rcur (s : State) (p : Nat) : (s.setWbits p).rcur = s.rcur := rfl
@[simp] theorem State.setWbits_rlim (s : State) (p : Nat) : (s.setWbits p).rlim = s.rlim := rfl
@[simp] theorem State.setWbits_nleaf (s : State) (p : Nat) : (s.setWbits p).nleaf = s.nleaf := rfl
@[simp] theorem State.setWbits_nnode (s : State) (p : Nat) : (s.setWbits p).nnode = s.nnode := rfl
@[simp] theorem State.setWbits_root (s : State) (p : Nat) : (s.setWbits p).root = s.root := rfl
@[simp] theorem State.setWbits_latch (s : State) (p : Nat) : (s.setWbits p).latch = s.latch := rfl
@[simp] theorem State.setWbits_srstPend (s : State) (p : Nat) : (s.setWbits p).srstPend = s.srstPend := rfl
@[simp] theorem State.setWbits_mem (s : State) (p : Nat) : (s.setWbits p).mem = s.mem := rfl
@[simp] theorem State.setWbits_rstLow (s : State) (p : Nat) : (s.setWbits p).rstLow = s.rstLow := rfl
@[simp] theorem State.setWbits_rdata (s : State) (p : Nat) : (s.setWbits p).rdata = s.rdata := rfl
@[simp] theorem State.setWbits_schedule (s : State) (p : Nat) : (s.setWbits p).schedule = s.schedule := rfl
@[simp] theorem State.setWbits_freeCount (s : State) (p : Nat) : (s.setWbits p).freeCount = s.freeCount := rfl

/-! ### `State.setRcur` -/

@[simp] theorem State.setRcur_cfg (s : State) (p : Nat) : (s.setRcur p).cfg = s.cfg := rfl
@[simp] theorem State.setRcur_ie (s : State) (p : Nat) : (s.setRcur p).ie = s.ie := rfl
@[simp] theorem State.setRcur_status (s : State) (p : Nat) : (s.setRcur p).status = s.status := rfl
@[simp] theorem State.setRcur_cmd (s : State) (p : Nat) : (s.setRcur p).cmd = s.cmd := rfl
@[simp] theorem State.setRcur_arg0 (s : State) (p : Nat) : (s.setRcur p).arg0 = s.arg0 := rfl
@[simp] theorem State.setRcur_arg1 (s : State) (p : Nat) : (s.setRcur p).arg1 = s.arg1 := rfl
@[simp] theorem State.setRcur_res0 (s : State) (p : Nat) : (s.setRcur p).res0 = s.res0 := rfl
@[simp] theorem State.setRcur_res1 (s : State) (p : Nat) : (s.setRcur p).res1 = s.res1 := rfl
@[simp] theorem State.setRcur_wbits (s : State) (p : Nat) : (s.setRcur p).wbits = s.wbits := rfl
@[simp] theorem State.setRcur_rcur (s : State) (p : Nat) : (s.setRcur p).rcur = wordOf p := rfl
@[simp] theorem State.setRcur_rlim (s : State) (p : Nat) : (s.setRcur p).rlim = s.rlim := rfl
@[simp] theorem State.setRcur_nleaf (s : State) (p : Nat) : (s.setRcur p).nleaf = s.nleaf := rfl
@[simp] theorem State.setRcur_nnode (s : State) (p : Nat) : (s.setRcur p).nnode = s.nnode := rfl
@[simp] theorem State.setRcur_root (s : State) (p : Nat) : (s.setRcur p).root = s.root := rfl
@[simp] theorem State.setRcur_latch (s : State) (p : Nat) : (s.setRcur p).latch = s.latch := rfl
@[simp] theorem State.setRcur_srstPend (s : State) (p : Nat) : (s.setRcur p).srstPend = s.srstPend := rfl
@[simp] theorem State.setRcur_mem (s : State) (p : Nat) : (s.setRcur p).mem = s.mem := rfl
@[simp] theorem State.setRcur_rstLow (s : State) (p : Nat) : (s.setRcur p).rstLow = s.rstLow := rfl
@[simp] theorem State.setRcur_rdata (s : State) (p : Nat) : (s.setRcur p).rdata = s.rdata := rfl
@[simp] theorem State.setRcur_schedule (s : State) (p : Nat) : (s.setRcur p).schedule = s.schedule := rfl
@[simp] theorem State.setRcur_freeCount (s : State) (p : Nat) : (s.setRcur p).freeCount = s.freeCount := rfl

/-! ### `begin` -/

@[simp] theorem begin_cfg (s : State) : (begin s).cfg = s.cfg := rfl
@[simp] theorem begin_ie (s : State) : (begin s).ie = s.ie := rfl
@[simp] theorem begin_status (s : State) : (begin s).status = s.status := rfl
@[simp] theorem begin_cmd (s : State) : (begin s).cmd = s.cmd := rfl
@[simp] theorem begin_arg0 (s : State) : (begin s).arg0 = s.arg0 := rfl
@[simp] theorem begin_arg1 (s : State) : (begin s).arg1 = s.arg1 := rfl
@[simp] theorem begin_res0 (s : State) : (begin s).res0 = 0#32 := rfl
@[simp] theorem begin_res1 (s : State) : (begin s).res1 = 0#32 := rfl
@[simp] theorem begin_wbits (s : State) : (begin s).wbits = s.wbits := rfl
@[simp] theorem begin_rcur (s : State) : (begin s).rcur = s.rcur := rfl
@[simp] theorem begin_rlim (s : State) : (begin s).rlim = s.rlim := rfl
@[simp] theorem begin_nleaf (s : State) : (begin s).nleaf = s.nleaf := rfl
@[simp] theorem begin_nnode (s : State) : (begin s).nnode = s.nnode := rfl
@[simp] theorem begin_root (s : State) : (begin s).root = s.root := rfl
@[simp] theorem begin_latch (s : State) : (begin s).latch = s.latch := rfl
@[simp] theorem begin_srstPend (s : State) : (begin s).srstPend = s.srstPend := rfl
@[simp] theorem begin_mem (s : State) : (begin s).mem = s.mem := rfl
@[simp] theorem begin_rstLow (s : State) : (begin s).rstLow = s.rstLow := rfl
@[simp] theorem begin_rdata (s : State) : (begin s).rdata = s.rdata := rfl
@[simp] theorem begin_schedule (s : State) : (begin s).schedule = s.schedule := rfl
@[simp] theorem begin_freeCount (s : State) : (begin s).freeCount = s.freeCount := rfl

/-! ### `accept` -/

@[simp] theorem accept_cfg (v : Word) (s : State) : (accept v s).cfg = s.cfg := rfl
@[simp] theorem accept_ie (v : Word) (s : State) : (accept v s).ie = s.ie := rfl
@[simp] theorem accept_status (v : Word) (s : State) : (accept v s).status = s.status.accepted := rfl
@[simp] theorem accept_cmd (v : Word) (s : State) : (accept v s).cmd = v := rfl
@[simp] theorem accept_arg0 (v : Word) (s : State) : (accept v s).arg0 = s.arg0 := rfl
@[simp] theorem accept_arg1 (v : Word) (s : State) : (accept v s).arg1 = s.arg1 := rfl
@[simp] theorem accept_res0 (v : Word) (s : State) : (accept v s).res0 = s.res0 := rfl
@[simp] theorem accept_res1 (v : Word) (s : State) : (accept v s).res1 = s.res1 := rfl
@[simp] theorem accept_wbits (v : Word) (s : State) : (accept v s).wbits = s.wbits := rfl
@[simp] theorem accept_rcur (v : Word) (s : State) : (accept v s).rcur = s.rcur := rfl
@[simp] theorem accept_rlim (v : Word) (s : State) : (accept v s).rlim = s.rlim := rfl
@[simp] theorem accept_nleaf (v : Word) (s : State) : (accept v s).nleaf = s.nleaf := rfl
@[simp] theorem accept_nnode (v : Word) (s : State) : (accept v s).nnode = s.nnode := rfl
@[simp] theorem accept_root (v : Word) (s : State) : (accept v s).root = s.root := rfl
@[simp] theorem accept_latch (v : Word) (s : State) :
    (accept v s).latch = { w := v, a0 := s.arg0, a1 := s.arg1 } := rfl
@[simp] theorem accept_srstPend (v : Word) (s : State) : (accept v s).srstPend = s.srstPend := rfl
@[simp] theorem accept_mem (v : Word) (s : State) : (accept v s).mem = s.mem := rfl
@[simp] theorem accept_rstLow (v : Word) (s : State) : (accept v s).rstLow = s.rstLow := rfl
@[simp] theorem accept_rdata (v : Word) (s : State) : (accept v s).rdata = s.rdata := rfl
@[simp] theorem accept_schedule (v : Word) (s : State) : (accept v s).schedule = s.schedule := rfl
@[simp] theorem accept_freeCount (v : Word) (s : State) : (accept v s).freeCount = s.freeCount := rfl

/-! ### `popEvent` -/

@[simp] theorem popEvent_cfg (s : State) : (popEvent s).cfg = s.cfg := rfl
@[simp] theorem popEvent_ie (s : State) : (popEvent s).ie = s.ie := rfl
@[simp] theorem popEvent_status (s : State) : (popEvent s).status = s.status := rfl
@[simp] theorem popEvent_cmd (s : State) : (popEvent s).cmd = s.cmd := rfl
@[simp] theorem popEvent_arg0 (s : State) : (popEvent s).arg0 = s.arg0 := rfl
@[simp] theorem popEvent_arg1 (s : State) : (popEvent s).arg1 = s.arg1 := rfl
@[simp] theorem popEvent_res0 (s : State) : (popEvent s).res0 = s.res0 := rfl
@[simp] theorem popEvent_res1 (s : State) : (popEvent s).res1 = s.res1 := rfl
@[simp] theorem popEvent_wbits (s : State) : (popEvent s).wbits = s.wbits := rfl
@[simp] theorem popEvent_rcur (s : State) : (popEvent s).rcur = s.rcur := rfl
@[simp] theorem popEvent_rlim (s : State) : (popEvent s).rlim = s.rlim := rfl
@[simp] theorem popEvent_nleaf (s : State) : (popEvent s).nleaf = s.nleaf := rfl
@[simp] theorem popEvent_nnode (s : State) : (popEvent s).nnode = s.nnode := rfl
@[simp] theorem popEvent_root (s : State) : (popEvent s).root = s.root := rfl
@[simp] theorem popEvent_latch (s : State) : (popEvent s).latch = s.latch := rfl
@[simp] theorem popEvent_srstPend (s : State) : (popEvent s).srstPend = s.srstPend := rfl
@[simp] theorem popEvent_mem (s : State) : (popEvent s).mem = s.mem := rfl
@[simp] theorem popEvent_rstLow (s : State) : (popEvent s).rstLow = s.rstLow := rfl
@[simp] theorem popEvent_rdata (s : State) : (popEvent s).rdata = s.rdata := rfl
@[simp] theorem popEvent_schedule (s : State) : (popEvent s).schedule = s.schedule.tail := rfl
@[simp] theorem popEvent_freeCount (s : State) : (popEvent s).freeCount = s.freeCount := rfl

/-! ### `softReset` -/

@[simp] theorem softReset_cfg (s : State) : (softReset s).cfg = s.cfg := rfl
@[simp] theorem softReset_ie (s : State) : (softReset s).ie = false := rfl
@[simp] theorem softReset_status (s : State) : (softReset s).status = Status.cleared := rfl
@[simp] theorem softReset_cmd (s : State) : (softReset s).cmd = 0#32 := rfl
@[simp] theorem softReset_arg0 (s : State) : (softReset s).arg0 = 0#32 := rfl
@[simp] theorem softReset_arg1 (s : State) : (softReset s).arg1 = 0#32 := rfl
@[simp] theorem softReset_res0 (s : State) : (softReset s).res0 = 0#32 := rfl
@[simp] theorem softReset_res1 (s : State) : (softReset s).res1 = 0#32 := rfl
@[simp] theorem softReset_wbits (s : State) : (softReset s).wbits = 0#32 := rfl
@[simp] theorem softReset_rcur (s : State) : (softReset s).rcur = 0#32 := rfl
@[simp] theorem softReset_rlim (s : State) : (softReset s).rlim = 0#32 := rfl
@[simp] theorem softReset_nleaf (s : State) : (softReset s).nleaf = 0#32 := rfl
@[simp] theorem softReset_nnode (s : State) : (softReset s).nnode = 0#32 := rfl
@[simp] theorem softReset_root (s : State) : (softReset s).root = 0x1FF#9 := rfl
@[simp] theorem softReset_latch (s : State) : (softReset s).latch = s.latch := rfl
@[simp] theorem softReset_srstPend (s : State) : (softReset s).srstPend = false := rfl
@[simp] theorem softReset_mem (s : State) : (softReset s).mem = s.mem := rfl
@[simp] theorem softReset_rstLow (s : State) : (softReset s).rstLow = s.rstLow := rfl
@[simp] theorem softReset_rdata (s : State) : (softReset s).rdata = s.rdata := rfl
@[simp] theorem softReset_schedule (s : State) : (softReset s).schedule = s.schedule := rfl
@[simp] theorem softReset_freeCount (s : State) : (softReset s).freeCount = s.freeCount := rfl

/-! ### `powerOnReset` -/

@[simp] theorem powerOnReset_cfg (s : State) : (powerOnReset s).cfg = s.cfg := rfl
@[simp] theorem powerOnReset_ie (s : State) : (powerOnReset s).ie = false := rfl
@[simp] theorem powerOnReset_status (s : State) : (powerOnReset s).status = Status.cleared := rfl
@[simp] theorem powerOnReset_cmd (s : State) : (powerOnReset s).cmd = 0#32 := rfl
@[simp] theorem powerOnReset_arg0 (s : State) : (powerOnReset s).arg0 = 0#32 := rfl
@[simp] theorem powerOnReset_arg1 (s : State) : (powerOnReset s).arg1 = 0#32 := rfl
@[simp] theorem powerOnReset_res0 (s : State) : (powerOnReset s).res0 = 0#32 := rfl
@[simp] theorem powerOnReset_res1 (s : State) : (powerOnReset s).res1 = 0#32 := rfl
@[simp] theorem powerOnReset_wbits (s : State) : (powerOnReset s).wbits = 0#32 := rfl
@[simp] theorem powerOnReset_rcur (s : State) : (powerOnReset s).rcur = 0#32 := rfl
@[simp] theorem powerOnReset_rlim (s : State) : (powerOnReset s).rlim = 0#32 := rfl
@[simp] theorem powerOnReset_nleaf (s : State) : (powerOnReset s).nleaf = 0#32 := rfl
@[simp] theorem powerOnReset_nnode (s : State) : (powerOnReset s).nnode = 0#32 := rfl
@[simp] theorem powerOnReset_root (s : State) : (powerOnReset s).root = 0x1FF#9 := rfl
@[simp] theorem powerOnReset_latch (s : State) : (powerOnReset s).latch = { w := 0#32, a0 := 0#32, a1 := 0#32 } := rfl
@[simp] theorem powerOnReset_srstPend (s : State) : (powerOnReset s).srstPend = false := rfl
@[simp] theorem powerOnReset_mem (s : State) : (powerOnReset s).mem = Memories.unwritten := rfl
@[simp] theorem powerOnReset_rstLow (s : State) : (powerOnReset s).rstLow = s.rstLow := rfl
@[simp] theorem powerOnReset_rdata (s : State) : (powerOnReset s).rdata = s.rdata := rfl
@[simp] theorem powerOnReset_schedule (s : State) : (powerOnReset s).schedule = s.schedule := rfl
@[simp] theorem powerOnReset_freeCount (s : State) : (powerOnReset s).freeCount = s.freeCount := rfl

/-! ### `State.answer` -/

@[simp] theorem State.answer_cfg (s : State) (v : Word) : (s.answer v).cfg = s.cfg := rfl
@[simp] theorem State.answer_ie (s : State) (v : Word) : (s.answer v).ie = s.ie := rfl
@[simp] theorem State.answer_status (s : State) (v : Word) : (s.answer v).status = s.status := rfl
@[simp] theorem State.answer_cmd (s : State) (v : Word) : (s.answer v).cmd = s.cmd := rfl
@[simp] theorem State.answer_arg0 (s : State) (v : Word) : (s.answer v).arg0 = s.arg0 := rfl
@[simp] theorem State.answer_arg1 (s : State) (v : Word) : (s.answer v).arg1 = s.arg1 := rfl
@[simp] theorem State.answer_res0 (s : State) (v : Word) : (s.answer v).res0 = s.res0 := rfl
@[simp] theorem State.answer_res1 (s : State) (v : Word) : (s.answer v).res1 = s.res1 := rfl
@[simp] theorem State.answer_wbits (s : State) (v : Word) : (s.answer v).wbits = s.wbits := rfl
@[simp] theorem State.answer_rcur (s : State) (v : Word) : (s.answer v).rcur = s.rcur := rfl
@[simp] theorem State.answer_rlim (s : State) (v : Word) : (s.answer v).rlim = s.rlim := rfl
@[simp] theorem State.answer_nleaf (s : State) (v : Word) : (s.answer v).nleaf = s.nleaf := rfl
@[simp] theorem State.answer_nnode (s : State) (v : Word) : (s.answer v).nnode = s.nnode := rfl
@[simp] theorem State.answer_root (s : State) (v : Word) : (s.answer v).root = s.root := rfl
@[simp] theorem State.answer_latch (s : State) (v : Word) : (s.answer v).latch = s.latch := rfl
@[simp] theorem State.answer_srstPend (s : State) (v : Word) : (s.answer v).srstPend = s.srstPend := rfl
@[simp] theorem State.answer_mem (s : State) (v : Word) : (s.answer v).mem = s.mem := rfl
@[simp] theorem State.answer_rstLow (s : State) (v : Word) : (s.answer v).rstLow = s.rstLow := rfl
@[simp] theorem State.answer_rdata (s : State) (v : Word) : (s.answer v).rdata = v := rfl
@[simp] theorem State.answer_schedule (s : State) (v : Word) : (s.answer v).schedule = s.schedule := rfl
@[simp] theorem State.answer_freeCount (s : State) (v : Word) : (s.answer v).freeCount = s.freeCount := rfl

/-! ### `dropWrite` -/

@[simp] theorem dropWrite_cfg (s : State) : (dropWrite s).cfg = s.cfg := rfl
@[simp] theorem dropWrite_ie (s : State) : (dropWrite s).ie = s.ie := rfl
@[simp] theorem dropWrite_status (s : State) : (dropWrite s).status = { s.status with ovr := true } := rfl
@[simp] theorem dropWrite_cmd (s : State) : (dropWrite s).cmd = s.cmd := rfl
@[simp] theorem dropWrite_arg0 (s : State) : (dropWrite s).arg0 = s.arg0 := rfl
@[simp] theorem dropWrite_arg1 (s : State) : (dropWrite s).arg1 = s.arg1 := rfl
@[simp] theorem dropWrite_res0 (s : State) : (dropWrite s).res0 = s.res0 := rfl
@[simp] theorem dropWrite_res1 (s : State) : (dropWrite s).res1 = s.res1 := rfl
@[simp] theorem dropWrite_wbits (s : State) : (dropWrite s).wbits = s.wbits := rfl
@[simp] theorem dropWrite_rcur (s : State) : (dropWrite s).rcur = s.rcur := rfl
@[simp] theorem dropWrite_rlim (s : State) : (dropWrite s).rlim = s.rlim := rfl
@[simp] theorem dropWrite_nleaf (s : State) : (dropWrite s).nleaf = s.nleaf := rfl
@[simp] theorem dropWrite_nnode (s : State) : (dropWrite s).nnode = s.nnode := rfl
@[simp] theorem dropWrite_root (s : State) : (dropWrite s).root = s.root := rfl
@[simp] theorem dropWrite_latch (s : State) : (dropWrite s).latch = s.latch := rfl
@[simp] theorem dropWrite_srstPend (s : State) : (dropWrite s).srstPend = s.srstPend := rfl
@[simp] theorem dropWrite_mem (s : State) : (dropWrite s).mem = s.mem := rfl
@[simp] theorem dropWrite_rstLow (s : State) : (dropWrite s).rstLow = s.rstLow := rfl
@[simp] theorem dropWrite_rdata (s : State) : (dropWrite s).rdata = s.rdata := rfl
@[simp] theorem dropWrite_schedule (s : State) : (dropWrite s).schedule = s.schedule := rfl
@[simp] theorem dropWrite_freeCount (s : State) : (dropWrite s).freeCount = s.freeCount := rfl

/-! ### `blockAccess` -/

@[simp] theorem blockAccess_cfg (s : State) : (blockAccess s).cfg = s.cfg := rfl
@[simp] theorem blockAccess_ie (s : State) : (blockAccess s).ie = s.ie := rfl
@[simp] theorem blockAccess_status (s : State) : (blockAccess s).status = { s.status with accv := true } := rfl
@[simp] theorem blockAccess_cmd (s : State) : (blockAccess s).cmd = s.cmd := rfl
@[simp] theorem blockAccess_arg0 (s : State) : (blockAccess s).arg0 = s.arg0 := rfl
@[simp] theorem blockAccess_arg1 (s : State) : (blockAccess s).arg1 = s.arg1 := rfl
@[simp] theorem blockAccess_res0 (s : State) : (blockAccess s).res0 = s.res0 := rfl
@[simp] theorem blockAccess_res1 (s : State) : (blockAccess s).res1 = s.res1 := rfl
@[simp] theorem blockAccess_wbits (s : State) : (blockAccess s).wbits = s.wbits := rfl
@[simp] theorem blockAccess_rcur (s : State) : (blockAccess s).rcur = s.rcur := rfl
@[simp] theorem blockAccess_rlim (s : State) : (blockAccess s).rlim = s.rlim := rfl
@[simp] theorem blockAccess_nleaf (s : State) : (blockAccess s).nleaf = s.nleaf := rfl
@[simp] theorem blockAccess_nnode (s : State) : (blockAccess s).nnode = s.nnode := rfl
@[simp] theorem blockAccess_root (s : State) : (blockAccess s).root = s.root := rfl
@[simp] theorem blockAccess_latch (s : State) : (blockAccess s).latch = s.latch := rfl
@[simp] theorem blockAccess_srstPend (s : State) : (blockAccess s).srstPend = s.srstPend := rfl
@[simp] theorem blockAccess_mem (s : State) : (blockAccess s).mem = s.mem := rfl
@[simp] theorem blockAccess_rstLow (s : State) : (blockAccess s).rstLow = s.rstLow := rfl
@[simp] theorem blockAccess_rdata (s : State) : (blockAccess s).rdata = s.rdata := rfl
@[simp] theorem blockAccess_schedule (s : State) : (blockAccess s).schedule = s.schedule := rfl
@[simp] theorem blockAccess_freeCount (s : State) : (blockAccess s).freeCount = s.freeCount := rfl

/-! ### Completion -/

/-- Without a pending soft reset, completion changes the flags alone (R102). -/
theorem complete_eq (o : Option ErrorKind) (s : State) (h : s.srstPend = false) :
    complete o s = { s with status := s.status.completed o } := by simp [complete, h]

/-- With one, it is the soft reset of the committed state (R231). -/
theorem complete_pending (o : Option ErrorKind) (s : State) (h : s.srstPend = true) :
    complete o s = softReset { s with status := s.status.completed o } := by simp [complete, h]

@[simp] theorem complete_mem (o : Option ErrorKind) (s : State) : (complete o s).mem = s.mem := by
  unfold complete; cases s.srstPend <;> rfl
@[simp] theorem complete_cfg (o : Option ErrorKind) (s : State) : (complete o s).cfg = s.cfg := by
  unfold complete; cases s.srstPend <;> rfl
@[simp] theorem complete_srstPend (o : Option ErrorKind) (s : State) : (complete o s).srstPend = false := by
  unfold complete; cases h : s.srstPend <;> simp
@[simp] theorem complete_busy (o : Option ErrorKind) (s : State) : (complete o s).status.busy = false := by
  unfold complete; cases s.srstPend <;> rfl
@[simp] theorem complete_latch (o : Option ErrorKind) (s : State) : (complete o s).latch = s.latch := by
  unfold complete; cases s.srstPend <;> rfl
@[simp] theorem complete_rstLow (o : Option ErrorKind) (s : State) : (complete o s).rstLow = s.rstLow := by
  unfold complete; cases s.srstPend <;> rfl
@[simp] theorem complete_rdata (o : Option ErrorKind) (s : State) : (complete o s).rdata = s.rdata := by
  unfold complete; cases s.srstPend <;> rfl
@[simp] theorem complete_schedule (o : Option ErrorKind) (s : State) : (complete o s).schedule = s.schedule := by
  unfold complete; cases s.srstPend <;> rfl
@[simp] theorem complete_freeCount (o : Option ErrorKind) (s : State) :
    (complete o s).freeCount = s.freeCount := by
  unfold complete; cases s.srstPend <;> rfl

/-! ### The memories -/

@[simp] theorem Memories.sel_put (ms : Memories) (w : Window) (m : Memory) : (ms.put w m).sel w = m := by
  cases w <;> rfl

theorem Memories.sel_put_ne (ms : Memories) {w w' : Window} (m : Memory) (h : w' ≠ w) :
    (ms.put w m).sel w' = ms.sel w' := by
  cases w <;> cases w' <;> first | rfl | exact absurd rfl h

@[simp] theorem Memories.sel_unwritten (w : Window) : Memories.unwritten.sel w = [] := by cases w <;> rfl

/-- Two states of memories are equal when every memory is. -/
theorem Memories.ext_sel {a b : Memories} (h : ∀ w, a.sel w = b.sel w) : a = b := by
  have h0 := h .freq; have h1 := h .first; have h2 := h .rlist; have h3 := h .tree; have h4 := h .code
  have h5 := h .bufA; have h6 := h .bufB; have h7 := h .bits; have h8 := h .rank
  cases a; cases b
  simp only [Memories.sel] at h0 h1 h2 h3 h4 h5 h6 h7 h8
  subst h0 h1 h2 h3 h4 h5 h6 h7 h8
  rfl

end Sys2Proof.Machine
end

