-- ==== Sys2Proof/Laws/Memory.lean ====
section
/-! SUPPORT. The laws of a memory: what a store leaves to be read, what it leaves alone, and that it keeps the
canonical form. -/

namespace Sys2Proof.Machine

@[simp] theorem Memory.get?_nil (a : Nat) : Memory.get? [] a = none := rfl

theorem Memory.get?_cons (k : Nat) (v : Byte) (m : Memory) (a : Nat) :
    Memory.get? ((k, v) :: m) a = if k = a then some v else Memory.get? m a := by
  by_cases h : k = a
  · simp [Memory.get?, h]
  · have hb : Nat.beq k a = false := Bool.eq_false_iff.2 fun hc => h (Nat.eq_of_beq_eq_true hc)
    simp [Memory.get?, h, hb]

theorem Memory.get?_append (m n : Memory) (a : Nat) :
    Memory.get? (m ++ n) a = (Memory.get? m a).or (Memory.get? n a) := by
  induction m with
  | nil => simp
  | cons c m ih =>
    obtain ⟨k, v⟩ := c
    simp only [List.cons_append, Memory.get?_cons, ih]
    split <;> simp

/-- Dropping cells by their address drops exactly those addresses. -/
theorem Memory.get?_filter (p : Nat → Bool) (m : Memory) (a : Nat) :
    Memory.get? (m.filter fun c => p c.1) a = if p a then Memory.get? m a else none := by
  induction m with
  | nil => simp
  | cons c m ih =>
    obtain ⟨k, v⟩ := c
    cases hk : p k with
    | true =>
      simp only [List.filter_cons, hk, if_true, Memory.get?_cons, ih]
      by_cases h : k = a
      · subst h; simp [hk]
      · simp [h]
    | false =>
      simp only [List.filter_cons, hk, Memory.get?_cons]
      by_cases h : k = a
      · subst h; simpa [hk] using ih
      · simpa [h] using ih

theorem Memory.get?_cellsFrom (a : Nat) (bs : List Byte) (x : Nat) :
    Memory.get? (cellsFrom a bs) x = if a ≤ x then bs[x - a]? else none := by
  induction bs generalizing a with
  | nil => simp [cellsFrom]
  | cons b bs ih =>
    simp only [cellsFrom, Memory.get?_cons, ih]
    by_cases h : a = x
    · subst h; simp
    · by_cases h' : a ≤ x
      · have h1 : a + 1 ≤ x := by omega
        have h2 : x - a = (x - (a + 1)) + 1 := by omega
        simp [h, h', h1, h2]
      · have h1 : ¬ a + 1 ≤ x := by omega
        simp [h, h', h1]

/-- The one law of a store: the bytes stored are read back at their offsets, every other offset reads as before. -/
theorem Memory.get?_store (m : Memory) (a : Nat) (bs : List Byte) (x : Nat) :
    (m.store a bs).get? x = if a ≤ x ∧ x < a + bs.length then bs[x - a]? else m.get? x := by
  have h1 := Memory.get?_filter (fun k => Nat.blt k a) m x
  have h2 := Memory.get?_filter (fun k => Nat.ble (a + bs.length) k) m x
  simp only [Memory.store, Memory.get?_append, Memory.get?_cellsFrom, h1, h2, Nat.blt_eq, Nat.ble_eq]
  by_cases ha : a ≤ x
  · by_cases hx : x < a + bs.length
    · have hn : ¬ x < a := by omega
      have hl : x - a < bs.length := by omega
      simp [ha, hx, hn, List.getElem?_eq_getElem hl]
    · have hn : ¬ x < a := by omega
      have hl : bs.length ≤ x - a := by omega
      have hc : a + bs.length ≤ x := by omega
      simp [ha, hx, hn, List.getElem?_eq_none hl, hc]
  · have hn : x < a := by omega
    have hc : ¬ a + bs.length ≤ x := by omega
    simp [ha, hn, hc]

theorem Memory.mem_cellsFrom {a : Nat} {bs : List Byte} {c : Host.Cell} (h : c ∈ cellsFrom a bs) :
    a ≤ c.1 ∧ c.1 < a + bs.length := by
  induction bs generalizing a with
  | nil => simp [cellsFrom] at h
  | cons b bs ih =>
    simp only [cellsFrom, List.mem_cons] at h
    rcases h with rfl | h
    · simp
    · have := ih h
      simp only [List.length_cons]
      omega

theorem Memory.wf_cellsFrom (a : Nat) (bs : List Byte) : Memory.wf (cellsFrom a bs) := by
  induction bs generalizing a with
  | nil => simp [cellsFrom, Memory.wf]
  | cons b bs ih =>
    simp only [cellsFrom, Memory.wf, List.pairwise_cons]
    refine ⟨fun c hc => ?_, ih (a + 1)⟩
    have := Memory.mem_cellsFrom hc
    omega

/-- A store keeps the canonical form. -/
theorem Memory.wf_store {m : Memory} (h : m.wf) (a : Nat) (bs : List Byte) : (m.store a bs).wf := by
  unfold Memory.wf Memory.store
  rw [List.pairwise_append, List.pairwise_append]
  refine ⟨h.filter _, ⟨Memory.wf_cellsFrom a bs, h.filter _, ?_⟩, ?_⟩
  · intro x hx y hy
    have := Memory.mem_cellsFrom hx
    simp only [List.mem_filter, Nat.ble_eq] at hy
    omega
  · intro x hx y hy
    simp only [List.mem_filter, Nat.blt_eq] at hx
    rcases List.mem_append.1 hy with hy | hy
    · have := Memory.mem_cellsFrom hy
      omega
    · simp only [List.mem_filter, Nat.ble_eq] at hy
      omega

/-- What `read` answers: `n` bytes, each the byte at its offset. -/
theorem Memory.read_eq_some {m : Memory} {a n : Nat} {bs : List Byte} :
    m.read a n = some bs ↔ bs.length = n ∧ ∀ i (h : i < bs.length), m.get? (a + i) = some bs[i] := by
  induction n generalizing a bs with
  | zero =>
    constructor
    · intro h
      simp only [Memory.read, Option.some.injEq] at h
      subst h
      simp
    · rintro ⟨h, -⟩
      rw [List.length_eq_zero_iff] at h
      subst h
      rfl
  | succ n ih =>
    cases hb : m.get? a with
    | none =>
      simp only [Memory.read, hb]
      refine ⟨fun h => by simp at h, fun ⟨hl, hg⟩ => ?_⟩
      have := hg 0 (by omega)
      simp [hb] at this
    | some b =>
      cases hr : Memory.read m (a + 1) n with
      | none =>
        simp only [Memory.read, hb, hr]
        refine ⟨fun h => by simp at h, fun ⟨hl, hg⟩ => ?_⟩
        obtain ⟨c, cs, rfl⟩ : ∃ c cs, bs = c :: cs := by
          cases bs with
          | nil => simp at hl
          | cons c cs => exact ⟨c, cs, rfl⟩
        have : Memory.read m (a + 1) n = some cs := ih.2 ⟨by simpa using hl, fun i hi => by
          have := hg (i + 1) (by simpa using hi)
          simpa [Nat.add_comm, Nat.add_left_comm, Nat.add_assoc] using this⟩
        rw [hr] at this
        exact absurd this (by simp)
      | some cs =>
        obtain ⟨hl, hg⟩ := ih.1 hr
        simp only [Memory.read, hb, hr, Option.some.injEq]
        constructor
        · rintro rfl
          refine ⟨by simp [hl], fun i hi => ?_⟩
          cases i with
          | zero => simpa using hb
          | succ i =>
            have := hg i (by simpa using hi)
            simpa [Nat.add_comm, Nat.add_left_comm, Nat.add_assoc] using this
        · rintro ⟨hl', hg'⟩
          apply List.ext_getElem (by simp [hl, hl'])
          intro i h1 h2
          cases i with
          | zero =>
            have := hg' 0 h2
            simpa [hb] using this
          | succ i =>
            have h3 := hg i (by simpa using h1)
            have h4 := hg' (i + 1) h2
            rw [show a + (i + 1) = a + 1 + i by omega, h3] at h4
            simpa using h4

/-! ### The memories of the state -/

/-- What a store of bytes leaves at each byte of each memory. -/
theorem State.byteAt_storeBytes (s : State) (w w' : Window) (o x : Nat) (bs : List Byte) :
    (s.storeBytes w o bs).byteAt w' x =
      if w' = w ∧ o ≤ x ∧ x < o + bs.length then bs[x - o]? else s.byteAt w' x := by
  unfold State.byteAt
  by_cases h : w' = w
  · subst h
    simp [State.storeBytes, Memory.get?_store]
  · simp [State.storeBytes, Memories.sel_put_ne _ _ h, h]

/-- A store of bytes leaves every other memory alone. -/
theorem State.byteAt_storeBytes_ne (s : State) {w w' : Window} (o x : Nat) (bs : List Byte) (h : w' ≠ w) :
    (s.storeBytes w o bs).byteAt w' x = s.byteAt w' x := by
  simp [State.byteAt_storeBytes, h]

@[simp] theorem State.byteAt_setRes (s : State) (r0 r1 : Nat) (w : Window) (x : Nat) :
    (s.setRes r0 r1).byteAt w x = s.byteAt w x := rfl
@[simp] theorem State.byteAt_setWbits (s : State) (p : Nat) (w : Window) (x : Nat) :
    (s.setWbits p).byteAt w x = s.byteAt w x := rfl
@[simp] theorem State.byteAt_setRcur (s : State) (p : Nat) (w : Window) (x : Nat) :
    (s.setRcur p).byteAt w x = s.byteAt w x := rfl
@[simp] theorem State.byteAt_begin (s : State) (w : Window) (x : Nat) :
    (begin s).byteAt w x = s.byteAt w x := rfl
@[simp] theorem State.byteAt_complete (s : State) (o : Option ErrorKind) (w : Window) (x : Nat) :
    (complete o s).byteAt w x = s.byteAt w x := by simp [State.byteAt]
@[simp] theorem State.byteAt_softReset (s : State) (w : Window) (x : Nat) :
    (softReset s).byteAt w x = s.byteAt w x := rfl
@[simp] theorem State.byteAt_accept (s : State) (v : Word) (w : Window) (x : Nat) :
    (accept v s).byteAt w x = s.byteAt w x := rfl
@[simp] theorem State.byteAt_popEvent (s : State) (w : Window) (x : Nat) :
    (popEvent s).byteAt w x = s.byteAt w x := rfl

/-- The four bytes of a word make the word. -/
@[simp] theorem bytesWord_wordBytes (v : Word) :
    bytesWord (v.extractLsb' 24 8) (v.extractLsb' 16 8) (v.extractLsb' 8 8) (v.extractLsb' 0 8) = v := by
  unfold bytesWord
  ext i hi
  simp only [BitVec.getElem_append, BitVec.getElem_extractLsb']
  split <;> [skip; split <;> [skip; split]] <;> simp only [← BitVec.getLsbD_eq_getElem] <;> congr 1 <;> omega

@[simp] theorem wordBytes_length (v : Word) : (wordBytes v).length = 4 := rfl

/-- `bytesAt` answers the bytes at their offsets. -/
theorem State.bytesAt_eq_some {s : State} {w : Window} {o n : Nat} {bs : List Byte} :
    s.bytesAt w o n = some bs ↔ bs.length = n ∧ ∀ i (h : i < bs.length), s.byteAt w (o + i) = some bs[i] :=
  Memory.read_eq_some

end Sys2Proof.Machine
end

