-- ==== Sys2Proof/Laws/Ops.lean ====
section
/-! SUPPORT. What each shared operation can do, said once: the end of a command, word accesses, the canonical form of
the memories, the bit-stream primitives, the host accesses. -/

namespace Sys2Proof.Machine

/-! ### The end of a command -/

/-- A command that answers a next state finished or raised, and completed. -/
theorem commit_next_iff {r : Result Unit} {t : State} :
    r.commit = .next t ↔
      (∃ s, r = .done () s ∧ t = complete none s) ∨ ∃ e s, r = .raised e s ∧ t = complete (some e) s := by
  cases r with
  | done a s => simp [Result.commit, eq_comm]
  | raised e s => simp [Result.commit, eq_comm]
  | stuck f => simp [Result.commit]

/-- A command that faults got stuck. -/
theorem commit_fault_iff {r : Result Unit} {f : Fault} : r.commit = .fault f ↔ r = .stuck f := by
  cases r <;> simp [Result.commit]

/-- No command is refused. -/
theorem commit_ne_refused (r : Result Unit) (x : Refusal) : r.commit ≠ .refused x := by
  cases r <;> simp [Result.commit]

/-- The flags at a success, and at an error. -/
theorem completed_none (t : Status) : t.completed none = t.succeeded := rfl
theorem completed_some (e : ErrorKind) (t : Status) : t.completed (some e) = t.failed e.errcode := rfl

/-- Every error has a code in 1..7 (R200). -/
theorem errcode_range (e : ErrorKind) : e.errcode ≠ 0#4 ∧ e.errcode.toNat ≤ 7 := by cases e <;> decide

/-- A completion: the flags alone without a pending soft reset, the soft reset of the committed state with one. -/
theorem complete_cases (o : Option ErrorKind) (s : State) :
    (s.srstPend = false ∧ complete o s = { s with status := s.status.completed o }) ∨
    (s.srstPend = true ∧ complete o s = softReset { s with status := s.status.completed o }) := by
  cases h : s.srstPend
  · left; exact ⟨rfl, by rw [complete_eq o s h, h]⟩
  · right; exact ⟨rfl, by rw [complete_pending o s h, h]⟩

@[simp] theorem ctrlWord_false : ctrlWord false = 0#32 := by decide
@[simp] theorem statusWord_cleared : Status.cleared.word = 0#32 := by decide

/-- The registers after a soft reset read their reset values. -/
theorem atReset_softReset (s : State) : AtReset (softReset s) := by
  unfold AtReset
  refine ⟨ctrlWord_false, statusWord_cleared, ?_, ?_, ?_, ?_, ?_, ?_, ?_, ?_, ?_, ?_, ?_⟩ <;> rfl

/-- The registers after power-on reset read their reset values. -/
theorem atReset_powerOn (c : Config) : AtReset (State.powerOn c) := by
  unfold AtReset
  refine ⟨ctrlWord_false, statusWord_cleared, ?_, ?_, ?_, ?_, ?_, ?_, ?_, ?_, ?_, ?_, ?_⟩ <;> rfl

/-! ### Words in the word memories -/

theorem wordBytes_getElem? (v : Word) (j : Nat) (h : j < 4) :
    (wordBytes v)[j]? = some (v.extractLsb' (24 - 8 * j) 8) := by
  match j, h with
  | 0, _ | 1, _ | 2, _ | 3, _ => rfl

/-- Byte `j` of word `i` of a list of words laid out as bytes. -/
theorem flatMap_wordBytes_getElem? (vs : List Word) (i j : Nat) (h : j < 4) :
    (vs.flatMap wordBytes)[4 * i + j]? = vs[i]?.map fun v => v.extractLsb' (24 - 8 * j) 8 := by
  induction vs generalizing i with
  | nil => simp
  | cons v vs ih =>
    rw [List.flatMap_cons]
    cases i with
    | zero =>
      rw [List.getElem?_append_left (by simpa using h)]
      simpa using wordBytes_getElem? v j h
    | succ i =>
      rw [List.getElem?_append_right (by simp; omega)]
      have : 4 * (i + 1) + j - (wordBytes v).length = 4 * i + j := by simp; omega
      rw [this, ih]; simp

@[simp] theorem flatMap_wordBytes_length (vs : List Word) : (vs.flatMap wordBytes).length = 4 * vs.length := by
  induction vs with
  | nil => rfl
  | cons v vs ih => rw [List.flatMap_cons, List.length_append, ih]; simp; omega

/-- An entry holds a word exactly when its four bytes are the word's. -/
theorem wordAt_eq_some {s : State} {w : Window} {i : Nat} {v : Word} :
    s.wordAt w i = some v ↔ ∀ j, j < 4 → s.byteAt w (4 * i + j) = some (v.extractLsb' (24 - 8 * j) 8) := by
  have key : ∀ b0 b1 b2 b3 : Byte, bytesWord b0 b1 b2 b3 = v ↔
      b0 = v.extractLsb' 24 8 ∧ b1 = v.extractLsb' 16 8 ∧ b2 = v.extractLsb' 8 8 ∧ b3 = v.extractLsb' 0 8 := by
    intro b0 b1 b2 b3
    constructor
    · rintro rfl
      refine ⟨?_, ?_, ?_, ?_⟩ <;>
        (apply BitVec.eq_of_getLsbD_eq; intro i hi
         simp only [bytesWord, BitVec.getLsbD_extractLsb', BitVec.getLsbD_append]
         interval_cases i <;> simp)
    · rintro ⟨rfl, rfl, rfl, rfl⟩; exact bytesWord_wordBytes v
  constructor
  · intro h j hj
    unfold State.wordAt at h
    split at h
    next b0 b1 b2 b3 hb =>
      rw [Option.some.injEq, key] at h
      obtain ⟨rfl, rfl, rfl, rfl⟩ := h
      have := (State.bytesAt_eq_some.1 hb).2 j (by simpa using hj)
      rw [this]
      match j, hj with
      | 0, _ | 1, _ | 2, _ | 3, _ => rfl
    next => cases h
  · intro h
    have hb : s.bytesAt w (4 * i) 4 = some (wordBytes v) := by
      rw [State.bytesAt_eq_some]
      refine ⟨rfl, fun j hj => ?_⟩
      rw [h j hj, ← wordBytes_getElem? v j hj, List.getElem?_eq_getElem hj]
    unfold State.wordAt
    rw [hb]
    simp [wordBytes]

/-- An entry that holds no word has a byte that nothing has written. -/
theorem wordAt_eq_none {s : State} {w : Window} {i : Nat} :
    s.wordAt w i = none ↔ ∃ j, j < 4 ∧ s.byteAt w (4 * i + j) = none := by
  constructor
  · intro h
    by_contra hc
    push Not at hc
    have hs : ∀ j, j < 4 → ∃ b, s.byteAt w (4 * i + j) = some b := fun j hj =>
      Option.ne_none_iff_exists'.1 (hc j hj)
    obtain ⟨b0, h0⟩ := hs 0 (by omega); obtain ⟨b1, h1⟩ := hs 1 (by omega)
    obtain ⟨b2, h2⟩ := hs 2 (by omega); obtain ⟨b3, h3⟩ := hs 3 (by omega)
    have hb : s.bytesAt w (4 * i) 4 = some [b0, b1, b2, b3] := by
      rw [State.bytesAt_eq_some]
      refine ⟨rfl, fun j hj => ?_⟩
      match j, hj with
      | 0, _ => exact h0
      | 1, _ => exact h1
      | 2, _ => exact h2
      | 3, _ => exact h3
    simp [State.wordAt, hb] at h
  · rintro ⟨j, hj, hn⟩
    cases hw : s.wordAt w i with
    | none => rfl
    | some v => simp [wordAt_eq_some.1 hw j hj] at hn

/-- Two states with the same bytes in a memory have the same words in it. -/
theorem wordAt_congr {s t : State} {w : Window} {i : Nat} (h : ∀ j, j < 4 → t.byteAt w (4 * i + j) = s.byteAt w (4 * i + j)) :
    t.wordAt w i = s.wordAt w i := by
  cases hs : s.wordAt w i with
  | none =>
    obtain ⟨j, hj, hn⟩ := wordAt_eq_none.1 hs
    exact wordAt_eq_none.2 ⟨j, hj, by rw [h j hj, hn]⟩
  | some v => exact wordAt_eq_some.2 fun j hj => by rw [h j hj]; exact wordAt_eq_some.1 hs j hj

/-- A read of words answers the words at their entries. -/
theorem wordsAt_eq_some {s : State} {w : Window} {i n : Nat} {vs : List Word} :
    s.wordsAt w i n = some vs ↔ vs.length = n ∧ ∀ j, j < n → s.wordAt w (i + j) = vs[j]? := by
  induction n generalizing i vs with
  | zero =>
    simp only [State.wordsAt, Option.some.injEq]
    constructor
    · rintro rfl; exact ⟨rfl, fun j hj => absurd hj (by omega)⟩
    · rintro ⟨h, -⟩; exact (List.length_eq_zero_iff.1 h).symm
  | succ n ih =>
    simp only [State.wordsAt]
    cases hw : s.wordAt w i with
    | none =>
      simp only [reduceCtorEq, false_iff, not_and]
      intro hl hall
      have := hall 0 (by omega)
      rw [Nat.add_zero, hw] at this
      rw [List.getElem?_eq_getElem (by omega)] at this
      cases this
    | some v =>
      cases hr : s.wordsAt w (i + 1) n with
      | none =>
        simp only [reduceCtorEq, false_iff, not_and]
        intro hl hall
        match vs, hl with
        | x :: vs, hl =>
          have : s.wordsAt w (i + 1) n = some vs := ih.2 ⟨by simpa using hl, fun j hj => by
            rw [Nat.add_right_comm, Nat.add_assoc]; exact hall (j + 1) (by omega)⟩
          rw [hr] at this; cases this
      | some us =>
        obtain ⟨hl, hall⟩ := ih.1 hr
        simp only [Option.some.injEq]
        constructor
        · rintro rfl
          refine ⟨by simp [hl], fun j hj => ?_⟩
          cases j with
          | zero => simpa using hw
          | succ j =>
            rw [← Nat.add_assoc, Nat.add_right_comm]; exact hall j (by omega)
        · rintro ⟨hl', hall'⟩
          match vs, hl' with
          | x :: vs, hl' =>
            have h0 := hall' 0 (by omega)
            simp only [Nat.add_zero, List.getElem?_cons_zero, hw, Option.some.injEq] at h0
            have : s.wordsAt w (i + 1) n = some vs := ih.2 ⟨by simpa using hl', fun j hj => by
              rw [Nat.add_right_comm, Nat.add_assoc]; exact hall' (j + 1) (by omega)⟩
            rw [hr] at this
            simp only [Option.some.injEq] at this
            rw [h0, this]

theorem byteAt_storeWords (s : State) (w w' : Window) (i x : Nat) (vs : List Word) :
    (s.storeWords w i vs).byteAt w' x =
      if w' = w ∧ 4 * i ≤ x ∧ x < 4 * i + 4 * vs.length then (vs.flatMap wordBytes)[x - 4 * i]? else s.byteAt w' x := by
  unfold State.storeWords
  rw [State.byteAt_storeBytes, flatMap_wordBytes_length]

/-- A stored word is read back; every other entry, and every other memory, reads as before. -/
theorem wordAt_storeWords (s : State) (w w' : Window) (i x : Nat) (vs : List Word) :
    (s.storeWords w i vs).wordAt w' x =
      if w' = w ∧ i ≤ x ∧ x < i + vs.length then vs[x - i]? else s.wordAt w' x := by
  split
  next h =>
    obtain ⟨rfl, hi, hx⟩ := h
    have hlt : x - i < vs.length := by omega
    rw [List.getElem?_eq_getElem hlt, wordAt_eq_some]
    intro j hj
    rw [byteAt_storeWords, if_pos ⟨rfl, by omega, by omega⟩]
    have : 4 * x + j - 4 * i = 4 * (x - i) + j := by omega
    rw [this, flatMap_wordBytes_getElem? _ _ _ hj, List.getElem?_eq_getElem hlt]
    rfl
  next h =>
    apply wordAt_congr
    intro j hj
    rw [byteAt_storeWords, if_neg]
    rintro ⟨rfl, h1, h2⟩
    exact h ⟨rfl, by omega, by omega⟩

/-- Words stored from entry `i` on are held there. -/
theorem holdsWords_storeWords (s : State) (w : Window) (i : Nat) (vs : List Word) :
    (s.storeWords w i vs).holdsWords w i vs := by
  intro j hj
  rw [wordAt_storeWords, if_pos ⟨rfl, by omega, by omega⟩]
  congr 1; omega

/-- Bytes stored from offset `o` on are held there. -/
theorem holds_storeBytes (s : State) (w : Window) (o : Nat) (bs : List Byte) :
    (s.storeBytes w o bs).holds w o bs := by
  intro i hi
  rw [State.byteAt_storeBytes, if_pos ⟨rfl, by omega, by omega⟩]
  congr 1; omega

/-- A command's read of its source answers the bytes the buffer holds. -/
theorem source_eq_some {s : State} {b : Buf} {n : Nat} {xs : List Byte} :
    s.source b n = some xs ↔ xs.length = n ∧ s.holds (bufWindow b) 0 xs := by
  unfold State.source
  rw [State.bytesAt_eq_some]
  refine and_congr_right fun _ => forall_congr' fun i => ⟨fun h hi => ?_, fun h hi => ?_⟩
  · rw [h hi, List.getElem?_eq_getElem hi]
  · rw [h hi, List.getElem?_eq_getElem hi]

/-- The read of a source faults exactly when one of its bytes has never been written. -/
theorem source_eq_none {s : State} {b : Buf} {n : Nat} :
    s.source b n = none ↔ ∃ o, o < n ∧ s.byteAt (bufWindow b) o = none := by
  constructor
  · intro h
    by_contra hc
    push Not at hc
    have hs : ∀ o : Fin n, ∃ x, s.byteAt (bufWindow b) o = some x := fun o =>
      Option.ne_none_iff_exists'.1 (hc o o.2)
    choose f hf using hs
    have : s.source b n = some (List.ofFn f) := by
      rw [source_eq_some]
      refine ⟨by simp, fun i hi => ?_⟩
      have hi' : i < n := by simpa using hi
      rw [Nat.zero_add, hf ⟨i, hi'⟩, List.getElem?_eq_getElem hi]; simp
    rw [h] at this; cases this
  · rintro ⟨o, ho, hn⟩
    cases hs : s.source b n with
    | none => rfl
    | some xs =>
      obtain ⟨hl, hh⟩ := source_eq_some.1 hs
      have := hh o (by omega)
      rw [Nat.zero_add, hn, List.getElem?_eq_getElem (by omega)] at this
      cases this

theorem bufWindow_ne_otherBuf (b : Buf) : bufWindow b ≠ bufWindow (otherBuf b) := by cases b <;> decide

/-! ### The canonical form of the memories (`Memory.wf`) -/

/-- Every store keeps the canonical form. -/
theorem memoriesCanonical_storeBytes {s : State} (h : MemoriesCanonical s) (w : Window) (o : Nat) (bs : List Byte) :
    MemoriesCanonical (s.storeBytes w o bs) := by
  intro w'
  by_cases hw : w' = w
  · subst hw
    show Memory.wf ((s.mem.put w' _).sel w')
    rw [Memories.sel_put]; exact Memory.wf_store (h w') o bs
  · show Memory.wf ((s.mem.put w _).sel w')
    rw [Memories.sel_put_ne _ _ hw]; exact h w'

theorem memoriesCanonical_storeWords {s : State} (h : MemoriesCanonical s) (w : Window) (i : Nat) (vs : List Word) :
    MemoriesCanonical (s.storeWords w i vs) := memoriesCanonical_storeBytes h w _ _

/-- A change outside the memories keeps it. -/
theorem memoriesCanonical_of_mem {s t : State} (h : MemoriesCanonical s) (hm : t.mem = s.mem) :
    MemoriesCanonical t := by unfold MemoriesCanonical; rw [hm]; exact h

/-- The memories after reset are in canonical form. -/
theorem memories_unwritten_wf (w : Window) : (Memories.unwritten.sel w).wf := by simp [Memory.wf]

/-! ### Bit-stream primitives -/

/-- What `PutBit` can do: it writes one byte of `BITS` and moves the writer, or reads a byte never written. -/
theorem putBit_cases (v : Bool) (s : State) :
    (∃ b, putBit v s = .done () ((s.storeBytes .bits (s.wbits.toNat / 8) [b]).setWbits (s.wbits.toNat + 1)) ∧
      ((s.wbits.toNat % 8 = 0 ∧ b = 0x00#8 ||| streamMask v s.wbits.toNat) ∨
        (s.wbits.toNat % 8 ≠ 0 ∧ ∃ b0, s.byteAt .bits (s.wbits.toNat / 8) = some b0 ∧
          b = b0 ||| streamMask v s.wbits.toNat))) ∨
    (s.wbits.toNat % 8 ≠ 0 ∧ s.byteAt .bits (s.wbits.toNat / 8) = none ∧
      putBit v s = .stuck (.unwritten .bits)) := by
  unfold putBit
  by_cases h : s.wbits.toNat % 8 = 0
  · simp only [h, if_true]
    exact .inl ⟨_, rfl, .inl ⟨trivial, rfl⟩⟩
  · simp only [h, if_false]
    cases hb : s.byteAt .bits (s.wbits.toNat / 8) with
    | none => exact .inr ⟨h, rfl, rfl⟩
    | some b0 => exact .inl ⟨_, rfl, .inr ⟨h, b0, rfl, rfl⟩⟩

/-- What `GetBit` can do: it returns the stream bit at the cursor and moves on, fails at the end, or reads a byte never
written. -/
theorem getBit_cases (s : State) :
    (s.rcur.toNat < s.rlim.toNat ∧ ∃ v, s.streamAt s.rcur.toNat = some v ∧
      getBit s = .done v (s.setRcur (s.rcur.toNat + 1))) ∨
    (s.rlim.toNat ≤ s.rcur.toNat ∧ getBit s = .raised .streamExhausted s) ∨
    (s.rcur.toNat < s.rlim.toNat ∧ s.streamAt s.rcur.toNat = none ∧ getBit s = .stuck (.unwritten .bits)) := by
  unfold getBit State.streamAt
  by_cases h : s.rlim.toNat ≤ s.rcur.toNat
  · exact .inr (.inl ⟨h, by simp [h]⟩)
  · have h' : s.rcur.toNat < s.rlim.toNat := by omega
    cases hb : s.byteAt .bits (s.rcur.toNat / 8) with
    | none => exact .inr (.inr ⟨h', by simp, by simp [h, hb]⟩)
    | some b => exact .inl ⟨h', _, rfl, by simp [h, hb, streamBit]⟩

/-- `PutBit` of several bits never raises an error. -/
theorem putBits_ne_raised (vs : List Bool) (s : State) (e : ErrorKind) (t : State) : putBits vs s ≠ .raised e t := by
  induction vs generalizing s with
  | nil => simp [putBits]
  | cons v vs ih =>
    rcases putBit_cases v s with ⟨b, h, -⟩ | ⟨-, -, h⟩
    · simp only [putBits, h]; exact ih _
    · simp [putBits, h]

end Sys2Proof.Machine
end

