-- ==== Sys2Proof/Laws/Frame.lean ====
section
/-! SUPPORT. What a command can change, said once for all commands: the memories it writes and the groups of registers
it moves; everything else is as it was. -/

namespace Sys2Proof.Machine

/-- The rule of a command, before its completion. -/
def runOf : Instr → State → Result Unit
  | .nop => runNop
  | .freqCount b => runFreqCount b
  | .hufBuild => runHufBuild
  | .hufCodes => runHufCodes
  | .hufEncode b => runHufEncode b
  | .hufDecode b => runHufDecode b
  | .bwInit => runBwInit
  | .bwPut cnt => runBwPut cnt
  | .bwFlush => runBwFlush
  | .brInit => runBrInit
  | .brGet cnt => runBrGet cnt
  | .mtfFwd b => runMtfFwd b
  | .mtfInv b => runMtfInv b
  | .bwtInv b => runBwtInv b

/-- Every command is its rule, run from cleared result registers, and its completion (R102). -/
theorem exec_eq (i : Instr) (s : State) : exec i s = (runOf i (begin s)).commit := by cases i <;> rfl

/-- The groups of registers a command can move. -/
inductive Part where
  | writer
  | reader
  | limit
  | tree
  | codes
  deriving DecidableEq, Repr

/-- What a command that writes the memories `ws` and moves the registers `ps` leaves as it was. -/
structure Frame (ws : List Window) (ps : List Part) (s t : State) : Prop where
  cfg : t.cfg = s.cfg
  ie : t.ie = s.ie
  cmd : t.cmd = s.cmd
  arg0 : t.arg0 = s.arg0
  arg1 : t.arg1 = s.arg1
  latch : t.latch = s.latch
  srstPend : t.srstPend = s.srstPend
  rstLow : t.rstLow = s.rstLow
  rdata : t.rdata = s.rdata
  schedule : t.schedule = s.schedule
  freeCount : t.freeCount = s.freeCount
  busy : t.status.busy = s.status.busy
  done : t.status.done = s.status.done
  err : t.status.err = s.status.err
  errcode : t.status.errcode = s.status.errcode
  accv : t.status.accv = s.status.accv
  ovr : t.status.ovr = s.status.ovr
  wbits : .writer ∉ ps → t.wbits = s.wbits
  rcur : .reader ∉ ps → t.rcur = s.rcur
  rlim : .limit ∉ ps → t.rlim = s.rlim
  nleaf : .tree ∉ ps → t.nleaf = s.nleaf
  nnode : .tree ∉ ps → t.nnode = s.nnode
  root : .tree ∉ ps → t.root = s.root
  treev : .tree ∉ ps → t.status.treev = s.status.treev
  lone : .tree ∉ ps → t.status.lone = s.status.lone
  codev : .codes ∉ ps → t.status.codev = s.status.codev
  mem : SameBut ws s t

theorem Frame.refl (ws : List Window) (ps : List Part) (s : State) : Frame ws ps s s := by
  constructor <;> intros <;> first | rfl | (intro w _ o; rfl)

theorem Frame.trans {ws : List Window} {ps : List Part} {s t u : State} (h : Frame ws ps s t) (k : Frame ws ps t u) :
    Frame ws ps s u where
  cfg := k.cfg.trans h.cfg
  ie := k.ie.trans h.ie
  cmd := k.cmd.trans h.cmd
  arg0 := k.arg0.trans h.arg0
  arg1 := k.arg1.trans h.arg1
  latch := k.latch.trans h.latch
  srstPend := k.srstPend.trans h.srstPend
  rstLow := k.rstLow.trans h.rstLow
  rdata := k.rdata.trans h.rdata
  schedule := k.schedule.trans h.schedule
  freeCount := k.freeCount.trans h.freeCount
  busy := k.busy.trans h.busy
  done := k.done.trans h.done
  err := k.err.trans h.err
  errcode := k.errcode.trans h.errcode
  accv := k.accv.trans h.accv
  ovr := k.ovr.trans h.ovr
  wbits := fun p => (k.wbits p).trans (h.wbits p)
  rcur := fun p => (k.rcur p).trans (h.rcur p)
  rlim := fun p => (k.rlim p).trans (h.rlim p)
  nleaf := fun p => (k.nleaf p).trans (h.nleaf p)
  nnode := fun p => (k.nnode p).trans (h.nnode p)
  root := fun p => (k.root p).trans (h.root p)
  treev := fun p => (k.treev p).trans (h.treev p)
  lone := fun p => (k.lone p).trans (h.lone p)
  codev := fun p => (k.codev p).trans (h.codev p)
  mem := fun w hw o => (k.mem w hw o).trans (h.mem w hw o)

/-- A store into one of the memories named. -/
theorem Frame.storeBytes {ws : List Window} (ps : List Part) (s : State) {w : Window} (o : Nat) (bs : List Byte)
    (hw : w ∈ ws) : Frame ws ps s (s.storeBytes w o bs) := by
  constructor <;> intros <;> first
    | rfl
    | (intro w' hw' x; exact State.byteAt_storeBytes_ne s o x bs fun h => hw' (h ▸ hw))

theorem Frame.storeWords {ws : List Window} (ps : List Part) (s : State) {w : Window} (i : Nat) (vs : List Word)
    (hw : w ∈ ws) : Frame ws ps s (s.storeWords w i vs) := Frame.storeBytes ps s _ _ hw

theorem Frame.setRes (ws : List Window) (ps : List Part) (s : State) (r0 r1 : Nat) : Frame ws ps s (s.setRes r0 r1) := by
  constructor <;> intros <;> first | rfl | (intro w _ o; rfl)

theorem Frame.setWbits (ws : List Window) {ps : List Part} (s : State) (p : Nat) (h : .writer ∈ ps) :
    Frame ws ps s (s.setWbits p) := by
  constructor <;> intros <;> first | rfl | (intro w _ o; rfl) | contradiction

theorem Frame.setRcur (ws : List Window) {ps : List Part} (s : State) (p : Nat) (h : .reader ∈ ps) :
    Frame ws ps s (s.setRcur p) := by
  constructor <;> intros <;> first | rfl | (intro w _ o; rfl) | contradiction

/-- A result whose state, if it has one, is within the frame. -/
def Result.Framed {α : Type} (ws : List Window) (ps : List Part) (s : State) : Result α → Prop
  | .done _ t => Frame ws ps s t
  | .raised _ t => Frame ws ps s t
  | .stuck _ => True

theorem putBit_framed (v : Bool) (s : State) : (putBit v s).Framed [.bits] [.writer] s := by
  rcases putBit_cases v s with ⟨b, h, -⟩ | ⟨-, -, h⟩ <;> rw [h]
  · exact (Frame.storeBytes _ s _ _ (by simp)).trans (Frame.setWbits _ _ _ (by simp))
  · trivial

theorem putBits_framed (vs : List Bool) (s : State) : (putBits vs s).Framed [.bits] [.writer] s := by
  induction vs generalizing s with
  | nil => exact Frame.refl _ _ s
  | cons v vs ih =>
    have h := putBit_framed v s
    unfold putBits
    cases hp : putBit v s with
    | done a s' =>
      rw [hp] at h
      have k := ih s'
      show Result.Framed _ _ s (putBits vs s')
      cases hq : putBits vs s' with
      | done _ t => rw [hq] at k; exact Frame.trans h k
      | raised _ t => rw [hq] at k; exact Frame.trans h k
      | stuck _ => trivial
    | raised e s' => rw [hp] at h; exact h
    | stuck f => trivial

theorem getBit_framed (s : State) : (getBit s).Framed [] [.reader] s := by
  rcases getBit_cases s with ⟨-, v, -, h⟩ | ⟨-, h⟩ | ⟨-, -, h⟩ <;> rw [h]
  · exact Frame.setRcur _ _ _ (by simp)
  · exact Frame.refl _ _ s
  · trivial

theorem getBits_framed (cnt v : Nat) (s : State) : (getBits cnt v s).Framed [] [.reader] s := by
  induction cnt generalizing v s with
  | zero => exact Frame.refl _ _ s
  | succ cnt ih =>
    have h := getBit_framed s
    unfold getBits
    cases hp : getBit s with
    | done b s' =>
      rw [hp] at h
      have k := ih (2 * v + b.toNat) s'
      show Result.Framed _ _ s (getBits cnt (2 * v + b.toNat) s')
      cases hq : getBits cnt (2 * v + b.toNat) s' with
      | done _ t => rw [hq] at k; exact Frame.trans h k
      | raised _ t => rw [hq] at k; exact Frame.trans h k
      | stuck _ => trivial
    | raised e s' => rw [hp] at h; exact h
    | stuck f => trivial

theorem Frame.mono {ws ws' : List Window} {ps ps' : List Part} {s t : State} (h : Frame ws ps s t)
    (hw : ∀ w ∈ ws, w ∈ ws') (hp : ∀ p ∈ ps, p ∈ ps') : Frame ws' ps' s t where
  cfg := h.cfg
  ie := h.ie
  cmd := h.cmd
  arg0 := h.arg0
  arg1 := h.arg1
  latch := h.latch
  srstPend := h.srstPend
  rstLow := h.rstLow
  rdata := h.rdata
  schedule := h.schedule
  freeCount := h.freeCount
  busy := h.busy
  done := h.done
  err := h.err
  errcode := h.errcode
  accv := h.accv
  ovr := h.ovr
  wbits := fun p => h.wbits fun q => p (hp _ q)
  rcur := fun p => h.rcur fun q => p (hp _ q)
  rlim := fun p => h.rlim fun q => p (hp _ q)
  nleaf := fun p => h.nleaf fun q => p (hp _ q)
  nnode := fun p => h.nnode fun q => p (hp _ q)
  root := fun p => h.root fun q => p (hp _ q)
  treev := fun p => h.treev fun q => p (hp _ q)
  lone := fun p => h.lone fun q => p (hp _ q)
  codev := fun p => h.codev fun q => p (hp _ q)
  mem := fun w q o => h.mem w (fun r => q (hw _ r)) o

theorem encodeFrom_framed (b : Buf) (i k : Nat) (s : State) : (encodeFrom b i k s).Framed [.bits] [.writer] s := by
  induction k generalizing i s with
  | zero => exact Frame.setRes _ _ _ _ _
  | succ k ih =>
    unfold encodeFrom
    split
    · trivial
    split
    · trivial
    split_ifs
    · exact Frame.setRes _ _ _ _ _
    · exact Frame.setRes _ _ _ _ _
    split
    · trivial
    next bits _ =>
    have h := putBits_framed bits s
    split
    next s' hp =>
      rw [hp] at h
      have q := ih (i + 1) s'
      cases hq : encodeFrom b (i + 1) k s' with
      | done _ t => rw [hq] at q; exact Frame.trans h q
      | raised _ t => rw [hq] at q; exact Frame.trans h q
      | stuck _ => trivial
    next e s' hp => rw [hp] at h; exact h
    · trivial

theorem walkDown_framed (i start left node : Nat) (s : State) : (walkDown i start left node s).Framed [] [.reader] s := by
  induction left generalizing node s with
  | zero =>
    unfold walkDown
    split
    · trivial
    · exact Frame.refl _ _ _
    · exact Frame.setRes _ _ _ _ _
  | succ left ih =>
    unfold walkDown
    split
    · trivial
    · exact Frame.refl _ _ _
    next l r _ _ =>
    have h := getBit_framed s
    split
    next b s' hp =>
      rw [hp] at h
      have q := ih (bif b then r else l) s'
      cases hq : walkDown i start left (bif b then r else l) s' with
      | done _ t => rw [hq] at q; exact Frame.trans h q
      | raised _ t => rw [hq] at q; exact Frame.trans h q
      | stuck _ => trivial
    next e s' hp => rw [hp] at h; exact h
    · trivial

theorem decodeFrom_framed (b : Buf) (start i k : Nat) (s : State) :
    (decodeFrom b start i k s).Framed [bufWindow b] [.reader] s := by
  induction k generalizing i s with
  | zero => exact Frame.setRes _ _ _ _ _
  | succ k ih =>
    unfold decodeFrom
    have h := walkDown_framed i start (s.rlim.toNat - s.rcur.toNat) s.root.toNat s
    split
    next sym s' hp =>
      rw [hp] at h
      have h' : Frame [bufWindow b] [.reader] s s' := Frame.mono h (by simp) (by simp)
      have q := ih (i + 1) (s'.storeBytes (bufWindow b) i [sym])
      have h2 := h'.trans (Frame.storeBytes _ s' i [sym] (List.mem_singleton.2 rfl))
      cases hq : decodeFrom b start (i + 1) k (s'.storeBytes (bufWindow b) i [sym]) with
      | done _ t => rw [hq] at q; exact h2.trans q
      | raised _ t => rw [hq] at q; exact h2.trans q
      | stuck _ => trivial
    next e s' hp => rw [hp] at h; exact Frame.mono h (by simp) (by simp)
    · trivial

/-- The memories a command writes (R40–R48). -/
def writesOf : Instr → List Window
  | .nop => []
  | .freqCount _ => [.freq]
  | .hufBuild => [.tree]
  | .hufCodes => [.code]
  | .hufEncode _ => [.bits]
  | .hufDecode b => [bufWindow b]
  | .bwInit => []
  | .bwPut _ => [.bits]
  | .bwFlush => []
  | .brInit => []
  | .brGet _ => []
  | .mtfFwd b => [bufWindow (otherBuf b), .rlist]
  | .mtfInv b => [bufWindow (otherBuf b), .rlist]
  | .bwtInv b => [bufWindow (otherBuf b), .rank, .first]

/-- The register groups a command moves (R30–R35, R51). -/
def partsOf : Instr → List Part
  | .nop => []
  | .freqCount _ => []
  | .hufBuild => [.tree, .codes]
  | .hufCodes => [.codes]
  | .hufEncode _ => [.writer]
  | .hufDecode _ => [.reader]
  | .bwInit => [.writer]
  | .bwPut _ => [.writer]
  | .bwFlush => [.writer]
  | .brInit => [.reader, .limit]
  | .brGet _ => [.reader]
  | .mtfFwd _ => []
  | .mtfInv _ => []
  | .bwtInv _ => []

theorem runRankList_framed (f : List Byte → List Byte → List Byte × List Byte) (b : Buf) (s : State) :
    (runRankList f b s).Framed [bufWindow (otherBuf b), .rlist] [] s := by
  unfold runRankList
  simp only
  split_ifs
  · exact Frame.refl _ _ _
  split
  · trivial
  · exact ((Frame.storeBytes _ _ _ _ (by simp)).trans (Frame.storeBytes _ _ _ _ (by simp))).trans
      (Frame.setRes _ _ _ _ _)

/-- Every command stays within its frame. -/
theorem runOf_framed (i : Instr) (s : State) : (runOf i s).Framed (writesOf i) (partsOf i) s := by
  cases i with
  | nop => exact Frame.refl _ _ _
  | freqCount b =>
    simp only [runOf, runFreqCount]
    split_ifs
    · exact Frame.refl _ _ _
    split
    · trivial
    · exact (Frame.storeWords _ _ _ _ (by simp [writesOf])).trans (Frame.setRes _ _ _ _ _)
  | hufBuild =>
    simp only [runOf, runHufBuild]
    split
    · trivial
    next ws _ =>
      refine (Frame.storeWords (w := .tree) _ s 0 (treeWords (buildNodes (ws.map BitVec.toNat))) (by simp [writesOf])).trans ?_
      constructor <;> first | rfl | (intro _; rfl) | (intro _ _ _; rfl) | (intro h; exact absurd (by simp [partsOf]) h)
  | hufCodes =>
    simp only [runOf, runHufCodes]
    split_ifs
    · exact Frame.refl _ _ _
    split
    · trivial
    next codes _ =>
      refine (Frame.storeWords (w := .code) _ s 0 (codeWords codes) (by simp [writesOf])).trans ?_
      constructor <;> first | rfl | (intro _; rfl) | (intro _ _ _; rfl) | (intro h; exact absurd (by simp [partsOf]) h)
  | hufEncode b =>
    simp only [runOf, runHufEncode]
    split_ifs
    · exact Frame.refl _ _ _
    · exact Frame.refl _ _ _
    · exact encodeFrom_framed b 0 _ s
  | hufDecode b =>
    simp only [runOf, runHufDecode]
    split_ifs
    · exact Frame.refl _ _ _
    · exact Frame.refl _ _ _
    · exact Frame.refl _ _ _
    · exact Frame.refl _ _ _
    · unfold decodeLone
      split_ifs
      · exact Frame.setRes _ _ _ _ _
      split
      · trivial
      · exact (Frame.storeBytes _ _ _ _ (by simp [writesOf])).trans (Frame.setRes _ _ _ _ _)
    · exact decodeFrom_framed b _ 0 _ s
  | bwInit => exact Frame.setWbits _ _ _ (by simp [partsOf])
  | bwPut cnt =>
    simp only [runOf, runBwPut]
    split_ifs
    · exact Frame.setRes _ _ _ _ _
    have h := putBits_framed (lowBits s.latch.a0 cnt) s
    split
    next s' hp => rw [hp] at h; exact Frame.trans h (Frame.setRes _ _ _ _ _)
    next e s' hp => rw [hp] at h; exact h
    · trivial
  | bwFlush => exact (Frame.setWbits _ _ _ (by simp [partsOf])).trans (Frame.setRes _ _ _ _ _)
  | brInit =>
    simp only [runOf, runBrInit]
    split_ifs
    · exact Frame.refl _ _ _
    · exact Frame.refl _ _ _
    · constructor <;> first | rfl | (intro _; rfl) | (intro _ _ _; rfl) | (intro h; exact absurd (by simp [partsOf]) h)
  | brGet cnt =>
    simp only [runOf, runBrGet]
    split_ifs
    · exact Frame.refl _ _ _
    have h := getBits_framed cnt 0 s
    split
    next v s' hp => rw [hp] at h; exact Frame.trans h (Frame.setRes _ _ _ _ _)
    next e s' hp => rw [hp] at h; exact h
    · trivial
  | mtfFwd b => exact runRankList_framed _ b s
  | mtfInv b => exact runRankList_framed _ b s
  | bwtInv b =>
    simp only [runOf, runBwtInv]
    split_ifs
    · exact Frame.refl _ _ _
    · exact Frame.refl _ _ _
    split
    · trivial
    · exact (((Frame.storeWords _ _ _ _ (by simp [writesOf])).trans (Frame.storeWords _ _ _ _ (by simp [writesOf]))).trans
        (Frame.storeBytes _ _ _ _ (by simp [writesOf]))).trans (Frame.setRes _ _ _ _ _)

/-- What a command that answers a next state leaves as it was, and how it completed. -/
theorem exec_next {i : Instr} {s t : State} (h : exec i s = .next t) :
    ∃ u o, Frame (writesOf i) (partsOf i) (begin s) u ∧ t = complete o u ∧ SameBut (writesOf i) s t := by
  rw [exec_eq, commit_next_iff] at h
  have hf := runOf_framed i (begin s)
  rcases h with ⟨u, hr, rfl⟩ | ⟨e, u, hr, rfl⟩
  · rw [hr] at hf
    exact ⟨u, none, hf, rfl, fun w hw o => by rw [State.byteAt_complete]; exact hf.mem w hw o⟩
  · rw [hr] at hf
    exact ⟨u, some e, hf, rfl, fun w hw o => by rw [State.byteAt_complete]; exact hf.mem w hw o⟩

end Sys2Proof.Machine
end

