-- ==== Sys2Proof/Laws/Huffman.lean ====
section
/-! SUPPORT. What the Huffman unit's rules come to: when they finish and when they read an entry never written, and the
sizes of what they store. -/

namespace Sys2Proof.Machine

/-- HUF_BUILD finishes exactly when all 256 counts have been written (R161, R235). -/
theorem runHufBuild_done {s : State} {ws : List Word} (h : s.wordsAt .freq 0 256 = some ws) :
    ∃ u, runHufBuild s = .done () u := by
  unfold runHufBuild
  rw [h]
  exact ⟨_, rfl⟩

theorem runHufBuild_stuck {s : State} (h : s.wordsAt .freq 0 256 = none) :
    runHufBuild s = .stuck (.unwritten .freq) := by
  unfold runHufBuild
  rw [h]

/-- A slot is four words, a code entry sixteen (R43, R44). -/
@[simp] theorem packNode_length (x : Node) : (packNode x).length = 4 := by cases x <;> rfl
@[simp] theorem emptySlot_length : emptySlot.length = 4 := rfl
@[simp] theorem packCode_length (bits : List Bool) : (packCode bits).length = 16 := by simp [packCode]

/-- The code table is 256 entries of sixteen words. -/
@[simp] theorem codeWords_length (codes : List (Byte × List Bool)) : (codeWords codes).length = 4096 := by
  have : ∀ l : List Nat, (l.flatMap fun c => packCode (codeIn codes (BitVec.ofNat 8 c))).length = 16 * l.length := by
    intro l
    induction l with
    | nil => rfl
    | cons c l ih => rw [List.flatMap_cons, List.length_append, ih]; simp; omega
  unfold codeWords
  rw [this]
  simp

/-- The tree is 512 slots of four words (R161), for at most 512 nodes. -/
theorem treeWords_length (nodes : List Node) (h : nodes.length ≤ 512) : (treeWords nodes).length = 2048 := by
  have h1 : ∀ l : List Node, (l.flatMap packNode).length = 4 * l.length := by
    intro l
    induction l with
    | nil => rfl
    | cons x l ih => rw [List.flatMap_cons, List.length_append, ih]; simp; omega
  have h2 : ∀ n, ((List.replicate n emptySlot).flatten).length = 4 * n := by
    intro n
    simp [List.length_flatten]; omega
  unfold treeWords
  rw [List.length_append, h1, h2]
  omega

/-- One leaf for each non-zero count. -/
theorem leavesFrom_length (c : Nat) (fs : List Nat) :
    (leavesFrom c fs).length = fs.countP fun f => decide (0 < f) := by
  induction fs generalizing c with
  | nil => rfl
  | cons f fs ih =>
    unfold leavesFrom
    by_cases h : 0 < f <;> simp [h, ih]

/-- A least node of a pool is one of its nodes. -/
theorem leastOf_mem (x : Nat × Node) (ys : List (Nat × Node)) : leastOf x ys = x ∨ leastOf x ys ∈ ys := by
  induction ys generalizing x with
  | nil => exact .inl rfl
  | cons y ys ih =>
    unfold leastOf
    split
    · rcases ih y with h | h
      · exact .inr (by rw [h]; exact List.mem_cons_self)
      · exact .inr (List.mem_cons_of_mem _ h)
    · rcases ih x with h | h
      · exact .inl h
      · exact .inr (List.mem_cons_of_mem _ h)

/-- A walk of the code generator that has no more depth left reports it, and nothing else. -/
theorem walkCodes_zero (s : State) (i : Nat) (c : List Bool) : walkCodes s 0 i c = .error .treeTooDeep := rfl

/-- The walk below a leaf. -/
theorem walkCodes_leaf {s : State} {i : Nat} {sym : Byte} {f : Nat} (h : s.slotAt i = some (.leaf sym f)) (d : Nat)
    (c : List Bool) : walkCodes s (d + 1) i c = .ok [(sym, c)] := by
  unfold walkCodes
  rw [h]

/-- The walk below an internal node. -/
theorem walkCodes_internal {s : State} {i key l r f : Nat} (h : s.slotAt i = some (.internal key l r f)) {d : Nat}
    {c : List Bool} {left right : List (Byte × List Bool)} (hl : walkCodes s d l (c ++ [false]) = .ok left)
    (hr : walkCodes s d r (c ++ [true]) = .ok right) : walkCodes s (d + 1) i c = .ok (left ++ right) := by
  unfold walkCodes
  rw [h]
  simp only [hl, hr]

end Sys2Proof.Machine
end

