-- ==== Sys2Proof/Laws/PerInstr.lean ====
section
/-! SUPPORT. Statements for all commands, one lemma per command: the family `TableRow` (LAWS.json). -/

namespace Sys2Proof.Laws

/-- The word of a well-formed command has its opcode-table row's `match` under the row's `mask` (R87), and its `S` and
`CNTM1` fields are the command's (R80). -/
def TableRow.Statement (i : Instr) : Prop :=
  i.wellFormed = true →
    encode i &&& i.tableMask = i.tableMatch ∧ sField (encode i) = i.s ∧ cntm1Field (encode i) = i.cntm1

theorem TableRow.nop : TableRow.Statement .nop := by unfold Statement; decide

theorem TableRow.freqCount (src : Buf) : TableRow.Statement (.freqCount src) := by
  cases src <;> (unfold Statement; decide)

theorem TableRow.hufBuild : TableRow.Statement .hufBuild := by unfold Statement; decide

theorem TableRow.hufCodes : TableRow.Statement .hufCodes := by unfold Statement; decide

theorem TableRow.hufEncode (src : Buf) : TableRow.Statement (.hufEncode src) := by
  cases src <;> (unfold Statement; decide)

theorem TableRow.hufDecode (dst : Buf) : TableRow.Statement (.hufDecode dst) := by
  cases dst <;> (unfold Statement; decide)

theorem TableRow.bwInit : TableRow.Statement .bwInit := by unfold Statement; decide

theorem TableRow.bwPut (cnt : Nat) : TableRow.Statement (.bwPut cnt) := by
  intro h
  obtain ⟨h1, h2⟩ : 1 ≤ cnt ∧ cnt ≤ 32 := by simpa [Instr.wellFormed, countOk] using h
  interval_cases cnt <;> decide

theorem TableRow.bwFlush : TableRow.Statement .bwFlush := by unfold Statement; decide

theorem TableRow.brInit : TableRow.Statement .brInit := by unfold Statement; decide

theorem TableRow.brGet (cnt : Nat) : TableRow.Statement (.brGet cnt) := by
  intro h
  obtain ⟨h1, h2⟩ : 1 ≤ cnt ∧ cnt ≤ 32 := by simpa [Instr.wellFormed, countOk] using h
  interval_cases cnt <;> decide

theorem TableRow.mtfFwd (src : Buf) : TableRow.Statement (.mtfFwd src) := by
  cases src <;> (unfold Statement; decide)

theorem TableRow.mtfInv (src : Buf) : TableRow.Statement (.mtfInv src) := by
  cases src <;> (unfold Statement; decide)

theorem TableRow.bwtInv (src : Buf) : TableRow.Statement (.bwtInv src) := by
  cases src <;> (unfold Statement; decide)

end Sys2Proof.Laws
end

