-- ==== Sys2Proof/Laws/Step.lean ====
section
/-! SUPPORT. Everything a step can do, said once: the engine's turn, a host access, an edge of `rst_n`. -/

namespace Sys2Proof.Machine

/-! ### The register map -/

/-- The register window's offsets and their registers, as word offsets. -/
theorem regAt_wordOffset (a : BitVec 24) :
    regAt (wordOffset a) =
      if a.toNat / 4 < 16 then Reg.all[a.toNat / 4]? else none := by
  unfold wordOffset
  generalize a.toNat / 4 = n
  split
  next h => interval_cases n <;> rfl
  next h =>
    unfold regAt
    rw [List.find?_eq_none]
    intro r _
    have hr : r.offset ≤ 0x03C := by cases r <;> decide
    intro hb
    have := Nat.eq_of_beq_eq_true hb
    omega

theorem inRegWindow_wordOffset (a : BitVec 24) : inRegWindow (wordOffset a) = decide (a.toNat < 0x400) := by
  unfold inRegWindow wordOffset
  rw [Bool.eq_iff_iff, Nat.blt_eq, decide_eq_true_iff]
  omega

/-! ### Host reads -/

/-- A host read returns a word, and changes nothing but the read data and the count of free bytes; a blocked one returns
0 and sets `ACCV`. -/
theorem hostRead_cases (a : BitVec 24) (s : State) :
    (∃ d n, hostRead a s = { s with rdata := d, freeCount := n }) ∨
    (s.status.busy = true ∧ 0x400 ≤ a.toNat ∧
      hostRead a s = { s with rdata := 0#32, status := { s.status with accv := true } }) := by
  unfold hostRead
  simp only [inRegWindow_wordOffset, decide_eq_true_eq]
  split
  · left; split <;> exact ⟨_, s.freeCount, rfl⟩
  next h =>
    split
    next hb => exact .inr ⟨hb, by omega, rfl⟩
    · left
      split
      · exact ⟨_, s.freeCount, rfl⟩
      · split
        · exact ⟨_, _, rfl⟩
        · exact ⟨_, s.freeCount, rfl⟩

/-! ### Host writes -/

/-- What a host write can do. -/
inductive WriteEffect (a : BitVec 24) (v : Word) (s : State) : State → Prop where
  | ignored : WriteEffect a v s s
  | ctrlBusy (h : s.status.busy = true) (ha : a.toNat / 4 = 1) :
    WriteEffect a v s { s with ie := v.getLsbD 0, srstPend := s.srstPend || v.getLsbD 1 }
  | ctrlReset (h : s.status.busy = false) (ha : a.toNat / 4 = 1) (hv : v.getLsbD 1 = true) :
    WriteEffect a v s (softReset s)
  | ctrlIdle (h : s.status.busy = false) (ha : a.toNat / 4 = 1) (hv : v.getLsbD 1 = false) :
    WriteEffect a v s { s with ie := v.getLsbD 0 }
  | status (ha : a.toNat / 4 = 2) : WriteEffect a v s { s with status := s.status.writeOneToClear v }
  | accepted (h : s.status.busy = false) (ha : a.toNat / 4 = 3) : WriteEffect a v s (accept v s)
  | arg0 (h : s.status.busy = false) (ha : a.toNat / 4 = 4) : WriteEffect a v s { s with arg0 := v }
  | arg1 (h : s.status.busy = false) (ha : a.toNat / 4 = 5) : WriteEffect a v s { s with arg1 := v }
  | dropped (h : s.status.busy = true) (ha : a.toNat / 4 = 3 ∨ a.toNat / 4 = 4 ∨ a.toNat / 4 = 5) :
    WriteEffect a v s { s with status := { s.status with ovr := true } }
  | blocked (h : s.status.busy = true) (ha : 0x400 ≤ a.toNat) :
    WriteEffect a v s { s with status := { s.status with accv := true } }
  | stored (w : Window) (o : Nat) (h : s.status.busy = false) (hw : w.hostWritable = true)
    (ha : wordOffset a = w.base + o) (ho : o < w.span) :
    WriteEffect a v s (s.storeBytes w o ((wordBytes v).take (w.cap s.cfg - o)))

/-- The window of an offset contains it. -/
theorem windowAt_eq_some {o : Nat} {w : Window} (h : windowAt o = some w) : w.base ≤ o ∧ o < w.base + w.span := by
  have := List.find?_some h
  simpa only [Bool.and_eq_true, Nat.ble_eq, Nat.blt_eq] using this

theorem hostWrite_effect (a : BitVec 24) (v : Word) (s : State) : WriteEffect a v s (hostWrite a v s) := by
  unfold hostWrite
  simp only [inRegWindow_wordOffset, decide_eq_true_eq, regAt_wordOffset]
  split
  · split
    next r hr =>
      split at hr
      next hlt =>
        generalize hn : a.toNat / 4 = n at hr hlt
        have hr' : r = Reg.all.getD n .id := by rw [List.getD_eq_getElem?_getD, hr]; rfl
        subst hr'
        cases hb : s.status.busy <;> interval_cases n <;>
          simp only [Reg.all, List.getD_cons_zero, List.getD_cons_succ, State.regWrite, writeCtrl, hb, if_true,
            Bool.false_eq_true, if_false] <;>
          first
            | exact .ignored
            | exact .ctrlBusy hb hn
            | exact .status hn
            | exact .accepted hb hn
            | exact .arg0 hb hn
            | exact .arg1 hb hn
            | exact .dropped hb (by omega)
            | skip
        split
        next hv => exact .ctrlReset hb hn hv
        next hv => exact .ctrlIdle hb hn (by simpa using hv)
      next => cases hr
    · exact .ignored
  next h =>
    split
    next hb => exact .blocked hb (by omega)
    next hb =>
      split
      · exact .ignored
      next w hw =>
        obtain ⟨h1, h2⟩ := windowAt_eq_some hw
        unfold State.windowWrite
        split
        next hwr => exact .stored w _ (by simpa using hb) hwr (by omega) (by omega)
        · exact .ignored

/-! ### One step -/

/-- What a step that answers a next state was. -/
inductive StepEffect (s : State) : State → Prop where
  | command (i : Instr) (t : State) (hr : engineRuns s = true) (hd : decode s.latch.w = .ok i)
    (h : exec i (popEvent s) = .next t) : StepEffect s t
  | illegal (e : DecodeError) (hr : engineRuns s = true) (hd : decode s.latch.w = .error e) :
    StepEffect s (completeIllegal (popEvent s))
  | idle (he : nextEvent s = .engine) (h : s.status.busy = false) : StepEffect s (popEvent s)
  | read (a : BitVec 24) (he : nextEvent s = .read a) (h : s.rstLow = false) : StepEffect s (hostRead a (popEvent s))
  | write (a : BitVec 24) (v : Word) (he : nextEvent s = .write a v) (h : s.rstLow = false) :
    StepEffect s (hostWrite a v (popEvent s))
  | rstFall (he : nextEvent s = .rstFall) : StepEffect s { powerOnReset (popEvent s) with rstLow := true }
  | rstRise (he : nextEvent s = .rstRise) : StepEffect s { popEvent s with rstLow := false }

theorem step_effect {s t : State} (h : step s = .next t) : StepEffect s t := by
  unfold step at h
  split at h
  next hr =>
    unfold fetch at h
    split at h
    next i hd => exact .command i t hr hd h
    next e hd => cases h; exact .illegal e hr hd
  next hr =>
    have hl : (popEvent s).rstLow = s.rstLow := rfl
    cases he : nextEvent s with
    | read a =>
      simp only [he, busEvent, hl] at h
      cases hb : s.rstLow <;> simp [hb] at h
      subst h; exact .read a he hb
    | write a v =>
      simp only [he, busEvent, hl] at h
      cases hb : s.rstLow <;> simp [hb] at h
      subst h; exact .write a v he hb
    | engine =>
      simp only [he, busEvent] at h
      cases h
      refine .idle he ?_
      simpa [engineRuns, he] using hr
    | rstFall => simp only [he, busEvent] at h; cases h; exact .rstFall he
    | rstRise => simp only [he, busEvent] at h; cases h; exact .rstRise he

end Sys2Proof.Machine
end

