-- ==== Sys2Proof/Tests/Slice0.lean ====
section
/-! SUPPORT. The model's own tests.  Expected values come from spec/95_test_vectors.md and the examples of the command
rules, named in each comment.  The second part gives, for every statement of Certificates/Slice0/Obligations.lean that
has hypotheses, states and operands that meet them. -/

namespace Sys2Proof.Tests

open Sys2Proof Sys2Proof.Machine

/-! ### Helpers -/

/-- A field of the next state, if there is one. -/
def after {α : Type} (o : Host.Outcome State Fault Refusal) (f : State → α) : Option α :=
  match o with
  | .next s => some (f s)
  | .fault _ => none
  | .refused _ => none

/-- The fault, if there is one. -/
def faultOf (o : Host.Outcome State Fault Refusal) : Option Fault :=
  match o with
  | .next _ => none
  | .fault f => some f
  | .refused _ => none

/-- `reset` with bytes loaded at the start of a memory. -/
def loaded (w : Window) (bs : List Byte) : State := State.reset.storeBytes w 0 bs

/-- `s` with the word accepted on the operands given, the engine moving next. -/
def running (w a0 a1 : Nat) (s : State) : State :=
  State.withFetchWord { s with arg0 := wordOf a0, arg1 := wordOf a1 } 32 w

/-! ### Well-formedness -/

theorem test_bwPut_zero_illFormed : (Instr.bwPut 0).wellFormed = false := by decide
theorem test_bwPut_33_illFormed : (Instr.bwPut 33).wellFormed = false := by decide
theorem test_brGet_zero_illFormed : (Instr.brGet 0).wellFormed = false := by decide
theorem test_brGet_33_illFormed : (Instr.brGet 33).wellFormed = false := by decide
theorem test_wellFormed_ends :
    (Instr.bwPut 1).wellFormed ∧ (Instr.bwPut 32).wellFormed ∧ (Instr.brGet 1).wellFormed ∧
      (Instr.brGet 32).wellFormed := by decide

/-! ### Decoding: words written out from R80 and R91 -/

theorem test_decode_engine_and_huffman :
    decode 0b00000000000000000000000000000000#32 = .ok .nop ∧
    decode 0b00000000000000000000000000000001#32 = .ok (.freqCount .A) ∧
    decode 0b00000000000000000000000100000001#32 = .ok (.freqCount .B) ∧
    decode 0b00000000000000000000000000000010#32 = .ok .hufBuild ∧
    decode 0b00000000000000000000000000000011#32 = .ok .hufCodes ∧
    decode 0b00000000000000000000000100000100#32 = .ok (.hufEncode .B) ∧
    decode 0b00000000000000000000000100000101#32 = .ok (.hufDecode .B) := by decide

theorem test_decode_bitstream :
    decode 0b00000000000000000000000000010000#32 = .ok .bwInit ∧
    decode 0b00000000000001110000000000010001#32 = .ok (.bwPut 8) ∧
    decode 0b00000000000111110000000000010001#32 = .ok (.bwPut 32) ∧
    decode 0b00000000000000000000000000010010#32 = .ok .bwFlush ∧
    decode 0b00000000000000000000000000010011#32 = .ok .brInit ∧
    decode 0b00000000000011110000000000010100#32 = .ok (.brGet 16) := by decide

theorem test_decode_rankmap :
    decode 0b00000000000000000000000100100000#32 = .ok (.mtfFwd .B) ∧
    decode 0b00000000000000000000000000100001#32 = .ok (.mtfInv .A) ∧
    decode 0b00000000000000000000000100100010#32 = .ok (.bwtInv .B) := by decide

/-- Vector EN3: the illegal words. -/
theorem test_decode_illegal :
    decode 0x00000006#32 = .error .unlistedOpcode ∧ decode 0x000000FF#32 = .error .unlistedOpcode ∧
    decode 0x00000111#32 = .error .selectUnused ∧ decode 0x00010010#32 = .error .countUnused ∧
    decode 0x00000210#32 = .error .reservedBits ∧ decode 0x80000000#32 = .error .reservedBits ∧
    decode 0x00200011#32 = .error .reservedBits := by decide

/-- The opcode table's rows, as words from spec/opcode_table.json's `match` column. -/
theorem test_decodeTableWord :
    [0x00, 0x01, 0x02, 0x03, 0x04, 0x05, 0x10, 0x11, 0x12, 0x13, 0x14, 0x20, 0x21, 0x22].map (decodeTableWord 32) =
      tableRows.map some := by decide

/-! ### Reset and the first command -/

/-- Vector EN1: the registers after power-on reset. -/
theorem test_reset_registers :
    Reg.all.map State.reset.regRead =
      [0x48434201#32, 0#32, 0#32, 0#32, 0#32, 0#32, 0#32, 0#32, 0#32, 0#32, 0#32, 0#32, 0#32, 0x1FF#32, 64#32,
        64#32] := by decide

theorem test_reset_memories_wf (w : Window) : (State.reset.mem.sel w).wf := memories_unwritten_wf w

theorem test_idle_stays : step State.reset = .next State.reset := rfl

/-- Vectors EN2 (NOP), BS11, HF5: STATUS after the first command from reset. -/
theorem test_first_command_status :
    [0x00000000, 0x001F0014, 0x00000003, 0x00000004, 0x00000005].map
      (fun w => after (step (running w 0 0 State.reset)) fun t => t.status.word) =
    [some 0x00000002#32, some 0x00050006#32, some 0x00030006#32, some 0x00030006#32, some 0x00030006#32] := by decide

/-- Vector EN3: an illegal word's report. -/
theorem test_illegal_status :
    after (step (running 0x00000006 0 0 State.reset)) (fun t => (t.status.word, t.cmd, t.res0, t.res1)) =
      some (0x00010006#32, 0x00000006#32, 0#32, 0#32) := by decide

/-- 93_implementation_defined.md item 6: HUF_BUILD on an unwritten FREQ. -/
theorem test_hufBuild_unwritten : faultOf (step (running 0x00000002 0 0 State.reset)) = some (.unwritten .freq) := by
  decide

/-- 93_implementation_defined.md item 6: FREQ_COUNT on an unwritten source byte. -/
theorem test_freqCount_unwritten :
    faultOf (step (running 0x00000001 2 0 (loaded .bufA [0x61#8]))) = some (.unwritten .bufA) := by decide

/-! ### The host bus -/

/-- Vector EN5: the accesses before completion. -/
theorem test_busy_accesses :
    let s := running 0x00000001 6 0 State.reset
    let t := hostWrite 0x10#24 9#32 (hostRead 0x100000#24 s)
    (hostRead 0x100000#24 s).rdata = 0#32 ∧ s.status.word = 0x00000001#32 ∧
      (hostRead 0x100000#24 s).status.word = 0x00000041#32 ∧ t.status.word = 0x000000C1#32 ∧ t.arg0 = 6#32 := by decide

/-- Vector EN9: address bits [1:0] are ignored. -/
theorem test_unaligned_access :
    (hostWrite 0x13#24 7#32 State.reset).arg0 = 7#32 ∧
      (hostRead 0x12#24 (hostWrite 0x13#24 7#32 State.reset)).rdata = 7#32 := by decide

/-- Vector EN10: lanes, the cap, a reserved offset. -/
theorem test_window_accesses :
    let s := loaded .bufA [1#8, 2#8, 3#8, 4#8, 5#8, 0#8, 0#8, 0#8]
    (hostRead 0x100000#24 s).rdata = 0x01020304#32 ∧ (hostRead 0x100004#24 s).rdata = 0x05000000#32 ∧
      (hostWrite 0x100040#24 0x11223344#32 s).byteAt .bufA 64 = none ∧ (hostRead 0x100040#24 s).rdata = 0#32 ∧
      (hostRead 0x000D00#24 s).rdata = 0#32 ∧ (hostWrite 0x000800#24 5#32 s).byteAt .first 3 = none := by decide

/-- Vector EN11: FREQ is RW. -/
theorem test_freq_window :
    (hostRead 0x41C#24 (hostWrite 0x41C#24 0xCAFEF00D#32 State.reset)).rdata = 0xCAFEF00D#32 := by decide

/-- Vector EN12, EN2: the interrupt output. -/
theorem test_irq :
    (hostWrite 0x4#24 1#32 State.reset).irq = false ∧
      after (step (running 0 0 0 State.reset)) (fun t => ((hostWrite 0x4#24 1#32 t).irq,
        (hostWrite 0x8#24 2#32 (hostWrite 0x4#24 1#32 t)).irq)) = some (true, false) := by decide

/-- Vector EN7: a deferred soft reset. -/
theorem test_deferred_soft_reset :
    after (step (hostWrite 0x4#24 2#32 (running 0x00000010 0 0 State.reset)))
      (fun t => (t.status.word, t.cmd, t.res0, t.srstPend)) = some (0#32, 0#32, 0#32, false) := by decide

/-- R88, R91: the text of a command line, and its accesses. -/
theorem test_command_line :
    (parseLine "BW_PUT 8, 0x1F".toList).bind CmdLine.events =
        some [.write 0x10#24 0x1F#32, .write 0x0C#24 0x00070011#32, .engine, .read 0x08#24] ∧
      (parseLine "BWT_INV.B 7, 4".toList).bind CmdLine.events =
        some [.write 0x10#24 7#32, .write 0x14#24 4#32, .write 0x0C#24 0x00000122#32, .engine, .read 0x08#24] ∧
      (parseLine "BW_INIT.A".toList).bind CmdLine.events = none ∧
      (parseLine "BW_PUT 33, 0".toList).bind CmdLine.events = none := by decide

/-! ### The bit stream -/

/-- Vector BS2. -/
theorem test_bwPut :
    after (step (running 0x00030011 0xFFFFFFF5 0 State.reset))
      (fun t => (t.byteAt .bits 0, t.byteAt .bits 1, t.wbits, t.res0)) =
      some (some 0x50#8, none, 4#32, 4#32) := by decide

/-- Vector BS9: the partial byte is ORed into, not cleared. -/
theorem test_bwPut_partial_byte :
    after (step (running 0x00000011 0 0 { loaded .bits [0x0F#8] with wbits := 3#32 }))
      (fun t => (t.byteAt .bits 0, t.wbits)) = some (some 0x0F#8, 4#32) := by decide

/-- R122's example. -/
theorem test_bwInit :
    after (step (running 0x00000010 0 0 { State.reset with wbits := 13#32 })) (fun t => (t.wbits, t.res0)) =
      some (0#32, 0#32) := by decide

/-- R124's example. -/
theorem test_bwFlush :
    after (step (running 0x00000012 0 0 { State.reset with wbits := 11#32 })) (fun t => (t.wbits, t.res0, t.res1)) =
      some (16#32, 2#32, 5#32) := by decide

/-- Vectors BS6 and BS7. -/
theorem test_brInit :
    after (step (running 0x00000013 4 5 State.reset)) (fun t => (t.rcur, t.rlim, t.res0)) = some (4#32, 40#32, 36#32) ∧
      after (step (running 0x00000013 17 2 State.reset)) (fun t => (t.status.word, t.rlim)) =
        some (0x00020006#32, 0#32) := by decide

/-- Vector BS6. -/
theorem test_brGet :
    after (step (running 0x001F0014 0 0
        { loaded .bits [0xDE#8, 0xAD#8, 0xBE#8, 0xEF#8, 0x12#8] with rcur := 4#32, rlim := 40#32 }))
      (fun t => (t.res0, t.res1, t.rcur)) = some (0xEADBEEF1#32, 36#32, 36#32) := by decide

/-! ### The rank-mapper -/

/-- Vector RM8, with smaller bytes: 03 03 00 has ranks 03 00 01. -/
theorem test_mtfFwd :
    after (step (running 0x00000020 3 0 (loaded .bufA [3#8, 3#8, 0#8])))
      (fun t => (t.bytesAt .bufB 0 3, t.bytesAt .rlist 0 4, t.res0)) =
      some (some [3#8, 0#8, 1#8], some [0#8, 3#8, 1#8, 2#8], 3#32) := by decide

/-- Vector RM9. -/
theorem test_mtfInv :
    after (step (running 0x00000021 2 0 (loaded .bufA [1#8, 1#8])))
      (fun t => (t.bytesAt .bufB 0 2, t.bytesAt .rlist 0 3)) =
      some (some [1#8, 0#8], some [0#8, 1#8, 2#8]) := by decide

/-- Vector RM4, second command, with smaller bytes of the same order. -/
theorem test_bwtInv :
    after (step (running 0x00000022 4 1 (loaded .bufA [1#8, 2#8, 1#8, 2#8])))
      (fun t => (t.bytesAt .bufB 0 4, t.wordsAt .rank 0 4, t.wordAt .first 2, t.res0, t.res1)) =
      some (some [1#8, 2#8, 1#8, 2#8], some [0#32, 0#32, 1#32, 1#32], some 2#32, 3#32, 1#32) := by decide

/-- Vector L1-1, first row: the inverse of the transform of "banana" and its sentinel. -/
theorem test_bwtInv_banana :
    bwtWalk [0x61#8, 0x6E#8, 0x6E#8, 0x62#8, 0x00#8, 0x61#8, 0x61#8]
        (firstTable [0x61#8, 0x6E#8, 0x6E#8, 0x62#8, 0x00#8, 0x61#8, 0x61#8])
        (rankTable [0x61#8, 0x6E#8, 0x6E#8, 0x62#8, 0x00#8, 0x61#8, 0x61#8]) 7 4 [] =
      ([0x62#8, 0x61#8, 0x6E#8, 0x61#8, 0x6E#8, 0x61#8, 0x00#8], 4) := by decide

/-! ### The Huffman unit -/

/-- R160's example, with the small symbols 1, 2, 3. -/
theorem test_freqCount :
    after (step (running 0x00000001 6 0 (loaded .bufA [2#8, 1#8, 3#8, 1#8, 3#8, 1#8])))
      (fun t => (t.wordsAt .freq 0 5, t.res0)) = some (some [0#32, 3#32, 1#32, 2#32, 0#32], 6#32) := by decide

/-- The leaves of R161's example: slots 0, 1, 2. -/
def bananaLeaves : List Node := [.leaf 0x61#8 3, .leaf 0x62#8 1, .leaf 0x6E#8 2]

/-- The tree of R161's example. -/
def bananaTree : List Node := bananaLeaves ++ [.internal 256 1 2 3, .internal 257 0 3 6]

/-- R161's example: the merges. -/
theorem test_hufBuild_merges : bananaLeaves ++ mergeFrom 3 2 0 (slotsFrom 0 bananaLeaves) = bananaTree := by decide

/-- Vector HF14: the slots as words. -/
theorem test_hufBuild_slots :
    bananaTree.flatMap packNode =
      [0x00000061#32, 0x00000000#32, 0x00000003#32, 0x00000000#32, 0x00000062#32, 0x00000000#32, 0x00000001#32,
        0x00000000#32, 0x0000006E#32, 0x00000000#32, 0x00000002#32, 0x00000000#32, 0x80000100#32, 0x00020001#32,
        0x00000003#32, 0x00000000#32, 0x80000101#32, 0x00030000#32, 0x00000006#32, 0x00000000#32] := by decide

/-- `reset` with R161's example tree in `TREE` and its registers. -/
def withBanana (s : State) : State :=
  { s.storeWords .tree 0 (bananaTree.flatMap packNode) with
    nleaf := 3#32, nnode := 5#32, root := 4#9, status := { s.status with treev := true } }

/-- R162's example. -/
theorem test_hufCodes :
    (match assignedCodes (withBanana State.reset) with
      | .ok codes => some (codes, maxLen codes)
      | .error _ => none) =
      some ([(0x61#8, [false]), (0x62#8, [true, false]), (0x6E#8, [true, true])], 2) := by decide

/-- Vector HF14: the entry of 0x62. -/
theorem test_hufCodes_entry :
    (packCode [true, false]).take 3 = [0x00000002#32, 0x80000000#32, 0x00000000#32] := by decide

/-- The code table of R162's example, for the two symbols 0x61 and 0x62. -/
def withCodes (s : State) : State :=
  { (s.storeWords .code (16 * 0x61) (packCode [false])).storeWords .code (16 * 0x62) (packCode [true, false]) with
    status := { s.status with treev := true, codev := true } }

/-- R163: the first two symbols of its example. -/
theorem test_hufEncode :
    after (step (running 0x00000004 2 0 (withCodes (loaded .bufA [0x62#8, 0x61#8]))))
      (fun t => (t.byteAt .bits 0, t.wbits, t.res0, t.res1)) = some (some 0x80#8, 3#32, 2#32, 3#32) := by decide

/-- Vector HF18, first command. -/
theorem test_hufDecode :
    after (step (running 0x00000105 3 0 { withBanana (loaded .bits [0x9B#8, 0x00#8]) with rlim := 16#32 }))
      (fun t => (t.bytesAt .bufB 0 3, t.rcur, t.res0, t.res1)) =
      some (some [0x62#8, 0x61#8, 0x6E#8], 5#32, 3#32, 5#32) := by decide

/-- Vector HF9: the stream ends inside symbol 5. -/
theorem test_hufDecode_exhausted :
    after (step (running 0x00000105 6 0 { withBanana (loaded .bits [0x9B#8]) with rlim := 8#32 }))
      (fun t => (t.bytesAt .bufB 0 5, t.byteAt .bufB 5, t.status.word, t.rcur, t.res0, t.res1)) =
      some (some [0x62#8, 0x61#8, 0x6E#8, 0x61#8, 0x6E#8], none, 0x0005000E#32, 8#32, 5#32, 8#32) := by decide

/-! ### Witnesses: the hypotheses of the statements are met -/

/-- A running command's state: FREQ_COUNT.A 6, accepted. -/
def busyState : State := running 0x00000001 6 0 State.reset

/-- An idle state that has just completed a command with the interrupt enabled. -/
def doneState : State := { State.reset with ie := true, status := { State.reset.status with done := true } }

/-- The latch of a command with operands `a0`, `a1`. -/
def latched (a0 a1 : Nat) (s : State) : State := { s with latch := { w := 0#32, a0 := wordOf a0, a1 := wordOf a1 } }

/-- A frequency table with the two symbols 0 and 1. -/
def twoSymbols : List Nat := [1, 1] ++ List.replicate 254 0

/-- Its tree. -/
def twoLeafTree : List Node := [.leaf 0#8 1, .leaf 1#8 1, .internal 256 0 1 2]

/-- `s` with that tree stored. -/
def withTwoLeaves (s : State) : State :=
  { s.storeWords .tree 0 (twoLeafTree.flatMap packNode) with
    nleaf := 2#32, nnode := 3#32, root := 2#9, status := { s.status with treev := true } }

/-- `s` with the tree of a lone leaf stored. -/
def withLoneLeaf (s : State) : State :=
  { s.storeWords .tree 0 (packNode (.leaf 0x61#8 4)) with
    nleaf := 1#32, nnode := 1#32, root := 0#9, status := { s.status with treev := true, lone := true } }

/-- `s` with the zero-leaf tree. -/
def withNoLeaf (s : State) : State := { s with status := { s.status with treev := true } }

/-- `reset` with 256 counts of 1 in `FREQ`. -/
def fullFreq : State := State.reset.storeWords .freq 0 (List.replicate 256 1#32)

theorem witness_ReferenceWordsEncodeAndDecode : (1 ≤ 1 ∧ 1 ≤ 32) ∧ (1 ≤ 32 ∧ 32 ≤ 32) := by decide

theorem witness_DecodeOfEncodeIsTheCommand :
    (Instr.bwPut 32).wellFormed = true ∧ (Instr.brGet 1).wellFormed = true ∧ (Instr.bwtInv .B).wellFormed = true := by
  decide

theorem witness_EncodeOfDecodeIsTheWord : decode 0x001F0011#32 = .ok (.bwPut 32) := by decide

theorem witness_DecodingIsTheTables :
    decode 0x001F0014#32 = .ok (.brGet 32) ∧ Instr.brGet 1 ∈ tableRows ∧
      0x001F0014#32 &&& (Instr.brGet 1).tableMask = (Instr.brGet 1).tableMatch := by decide

theorem witness_StepRunsTheDecodedCommand :
    (nextEvent busyState = .engine ∧ busyState.status.busy = true ∧ decode busyState.latch.w = .ok (.freqCount .A)) ∧
    (nextEvent { busyState with schedule := [.read 8#24] } = .read 8#24 ∧ busyState.rstLow = false) ∧
    (nextEvent { busyState with schedule := [.write 8#24 2#32] } = .write 8#24 2#32 ∧ busyState.rstLow = false) ∧
    (nextEvent { State.reset with schedule := [.read 8#24], rstLow := true } = .read 8#24) ∧
    (State.reset.status.busy = false ∧ State.reset.schedule = []) := by decide

theorem witness_IllegalWordChangesOnlyItsReport :
    State.reset.status.busy = false ∧ State.reset.rstLow = false ∧ State.reset.srstPend = false ∧
      (0x0C#24).toNat / 4 = 3 ∧ decode 0x00000006#32 = .error .unlistedOpcode ∧
      ({ State.reset with schedule := [.write 0x0C#24 6#32, .engine] } : State).schedule =
        .write 0x0C#24 6#32 :: .engine :: [] := by decide

theorem witness_AcceptanceLatchesTheCommand :
    doneState.status.busy = false ∧ (0x0F#24).toNat / 4 = 3 ∧ busyState.srstPend = false ∧
      ∃ t, exec .bwInit busyState = .next t := ⟨rfl, rfl, rfl, _, rfl⟩

theorem witness_BusyRegisterAccesses :
    busyState.status.busy = true ∧ busyState.status.done = false ∧ busyState.status.err = false ∧
      busyState.status.errcode = 0#4 ∧
      (0x00C#24).toNat / 4 = 3 ∧ (0x010#24).toNat / 4 = 4 ∧ (0x014#24).toNat / 4 = 5 ∧ (0x004#24).toNat / 4 = 1 ∧
      (0x00B#24).toNat / 4 = 2 ∧ (0x003#24).toNat / 4 = 0 ∧ 6 ≤ (0x018#24).toNat / 4 ∧ (0x3FC#24).toNat < 0x400 ∧
      (0x03C#24).toNat / 4 = Reg.capbits.offset / 4 := by decide

theorem witness_NoAccessStopsARunningCommand :
    busyState.status.busy = true ∧ (∃ t, step { busyState with schedule := [.write 4#24 2#32] } = .next t) ∧
      (∃ t, step (running 0x00000010 0 0 State.reset) = .next t) ∧
      ∃ t, step { busyState with schedule := [.rstFall] } = .next t := ⟨rfl, ⟨_, rfl⟩, ⟨_, rfl⟩, _, rfl⟩

theorem witness_CompletionReportsAndKeepsHostRegisters :
    State.reset.srstPend = false ∧
      exec .nop State.reset =
        .next { State.reset with status := { State.reset.status with done := true } } := ⟨rfl, rfl⟩

theorem witness_SoftResetClearsRegistersAndKeepsMemories :
    ((0x004#24).toNat / 4 = 1 ∧ (2#32).getLsbD 1 = true ∧ State.reset.status.busy = false) ∧
    ((0x004#24).toNat / 4 = 1 ∧ (3#32).getLsbD 1 = true ∧ busyState.status.busy = true) ∧
    ({ busyState with srstPend := true } : State).srstPend = true ∧
    (∃ u, exec .bwInit { { busyState with srstPend := true } with srstPend := false } = .next u) ∧
    (let s := { running 0x00000006 0 0 State.reset with srstPend := true }
     s.srstPend = true ∧ engineRuns s = true ∧ decode s.latch.w = .error .unlistedOpcode) :=
  ⟨by decide, by decide, rfl, ⟨_, rfl⟩, by decide⟩

theorem witness_OutcomeDependsOnLatchAndStateAlone :
    (let s := busyState
     let s' := { busyState with ie := true, arg0 := 9#32, rdata := 5#32 }
     s.srstPend = false ∧ s'.srstPend = false ∧ s'.cfg = s.cfg ∧ s'.latch = s.latch ∧ s'.mem = s.mem ∧
       s'.wbits = s.wbits ∧ s'.rcur = s.rcur ∧ s'.rlim = s.rlim ∧ s'.nleaf = s.nleaf ∧ s'.nnode = s.nnode ∧
       s'.root = s.root ∧ s'.status.treev = s.status.treev ∧ s'.status.codev = s.status.codev ∧
       s'.status.lone = s.status.lone) ∧
    (∃ t, exec .bwInit busyState = .next t) ∧ exec .hufBuild State.reset = .fault (.unwritten .freq) ∧
      busyState.status.busy = true :=
  ⟨⟨rfl, rfl, rfl, rfl, rfl, rfl, rfl, rfl, rfl, rfl, rfl, rfl, rfl, rfl⟩, ⟨_, rfl⟩, rfl, rfl⟩

theorem witness_InterruptRisesAndFallsAsStated :
    (∃ t, step { doneState with ie := false, schedule := [.write 4#24 1#32] } = .next t ∧ t.irq = true) ∧
    ((0x004#24).toNat / 4 = 1 ∧ (1#32).getLsbD 1 = false) ∧
    (∃ t, step { running 0 0 0 State.reset with ie := true } = .next t ∧ t.irq = true) ∧
    (engineRuns { running 0 0 0 State.reset with ie := true } = true) ∧
    (∃ t, step { doneState with schedule := [.write 8#24 2#32] } = .next t ∧ t.irq = false) ∧
    ((0x008#24).toNat / 4 = 2 ∧ (2#32).getLsbD 1 = true) ∧
    (∃ t, step { doneState with schedule := [.write 0xC#24 0#32] } = .next t ∧ t.irq = false) ∧
    ((0x00C#24).toNat / 4 = 3 ∧ doneState.status.busy = false) ∧
    doneState.irq = true ∧ ∃ t, step { doneState with schedule := [.rstFall] } = .next t ∧ t.irq = false :=
  ⟨⟨_, rfl, rfl⟩, by decide, ⟨_, rfl, rfl⟩, rfl, ⟨_, rfl, rfl⟩, by decide, ⟨_, rfl, rfl⟩, by decide, rfl, _, rfl, rfl⟩

theorem witness_RegisterReadsReturnTheirFields :
    (0x004#24).toNat / 4 = 1 ∧ (0x008#24).toNat / 4 = 2 ∧ (0x00C#24).toNat / 4 = 3 ∧ (0x010#24).toNat / 4 = 4 ∧
      (0x014#24).toNat / 4 = 5 ∧ (0x018#24).toNat / 4 = 6 ∧ (0x01C#24).toNat / 4 = 7 ∧ (0x020#24).toNat / 4 = 8 ∧
      (0x024#24).toNat / 4 = 9 ∧ (0x028#24).toNat / 4 = 10 ∧ (0x02C#24).toNat / 4 = 11 ∧ (0x030#24).toNat / 4 = 12 ∧
      (0x037#24).toNat / 4 = 13 := by decide

theorem witness_ConstantRegistersAndReservedOffsets :
    (0x003#24).toNat / 4 = 0 ∧ (0x038#24).toNat / 4 = 14 ∧ (0x03F#24).toNat / 4 = 15 ∧
      (0x040 ≤ (0x040#24).toNat ∧ (0x040#24).toNat < 0x400) ∧ (0x040 ≤ (0x3FF#24).toNat ∧ (0x3FF#24).toNat < 0x400) ∧
      step { State.reset with schedule := [.rstFall] } =
        .next { State.reset with rstLow := true } := ⟨by decide, by decide, by decide, by decide, by decide, rfl⟩

theorem witness_IdleRegisterWrites :
    State.reset.status.busy = false ∧ (0x004#24).toNat / 4 = 1 ∧ (1#32).getLsbD 1 = false ∧ (3#32).getLsbD 1 = true ∧
      (0x00B#24).toNat / 4 = 2 ∧ (0x010#24).toNat / 4 = 4 ∧ (0x017#24).toNat / 4 = 5 ∧
      (6 ≤ (0x018#24).toNat / 4 ∧ (0x018#24).toNat / 4 ≤ 13) ∧ (6 ≤ (0x037#24).toNat / 4 ∧ (0x037#24).toNat / 4 ≤ 13) := by
  decide

theorem witness_WindowsAreBlockedWhileBusy :
    busyState.status.busy = true ∧ 0x400 ≤ (0x000400#24).toNat ∧ 0x400 ≤ (0xFFFFFF#24).toNat := by decide

theorem witness_WindowReadsFollowTheAddressMap :
    let s := { loaded .bits [0x80#8] with cfg := { nbuf := 3, bitcap := 1, base := 0 } }
    s.status.busy = false ∧ 0x400 ≤ (0x300000#24).toNat ∧ (0x300000#24).toNat = Window.bits.base + 0 ∧
      0 < Window.bits.span ∧ Window.bits.cap s.cfg ≤ 4 * (0 / 4) + 1 ∧ 4 * (0 / 4) + 0 < Window.bits.cap s.cfg ∧
      s.byteAt .bits (4 * (0 / 4) + 0) = some 0x80#8 ∧
      ((0x300000#24).toNat = 0x300000 + 4 * (7 / 32) ∧ 7 / 8 < s.cfg.bitcap ∧ s.streamAt 7 = some false) ∧
      ∀ w ∈ Window.all, (0x000D00#24).toNat < w.base ∨ w.base + w.span ≤ (0x000D00#24).toNat := by decide

theorem witness_WindowWritesFollowTheAddressMap :
    State.reset.status.busy = false ∧ 0x400 ≤ (0x000400#24).toNat ∧
      (0x0007FF#24).toNat = Window.freq.base + 0x3FF ∧ 0x3FF < Window.freq.span ∧
      (0x1FFFFF#24).toNat = Window.bufA.base + 0xFFFFF ∧ 0xFFFFF < Window.bufA.span ∧
      (0x7FFFFF#24).toNat = Window.rank.base + 0x3FFFFF ∧ 0x3FFFFF < Window.rank.span ∧
      ∀ w ∈ Window.all, (0xFFFFFF#24).toNat < w.base ∨ w.base + w.span ≤ (0xFFFFFF#24).toNat := by decide

theorem witness_PowerOnResetFromAnyState :
    ({ busyState with schedule := [.rstFall, .rstRise] } : State).schedule = .rstFall :: .rstRise :: [] ∧
      HeldInReset { State.reset with rstLow := true } ∧ ∃ t, step { State.reset with rstLow := true } = .next t :=
  ⟨rfl, fun _ => ⟨atReset_powerOn Config.vectors, rfl, fun w _ => by cases w <;> rfl⟩, _, rfl⟩

theorem witness_NopCompletes :
    State.reset.srstPend = false ∧ exec .nop busyState = .next (complete none (begin busyState)) ∧
      busyState.status.treev = false ∧ busyState.status.codev = false ∧ busyState.status.lone = false ∧
      busyState.status.accv = false ∧ busyState.status.ovr = false := ⟨rfl, rfl, rfl, rfl, rfl, rfl, rfl⟩

theorem witness_BwInitRewindsTheWriter : busyState.srstPend = false := rfl

theorem witness_BwPutAppendsItsBits :
    let s := { loaded .bits [0x0F#8] with wbits := 3#32 }
    s.srstPend = false ∧ s.cfg.legal ∧ (1 ≤ 1 ∧ 1 ≤ 32) ∧ (1 ≤ 32 ∧ 32 ≤ 32) ∧
      s.wbits.toNat + 32 ≤ 8 * s.cfg.bitcap ∧ s.partialByteWritten ∧
      8 * s.cfg.bitcap < ({ s with wbits := 512#32 } : State).wbits.toNat + 1 := by decide

theorem witness_BwFlushRoundsUpToAByte :
    State.reset.srstPend = false ∧ State.reset.cfg.legal ∧
      ({ State.reset with wbits := 511#32 } : State).wbits.toNat ≤ 8 * State.reset.cfg.bitcap := by decide

theorem witness_BrInitSetsTheReader :
    (latched 512 64 State.reset).srstPend = false ∧ (latched 512 64 State.reset).cfg.legal ∧
      (latched 512 64 State.reset).latch.a1.toNat ≤ State.reset.cfg.bitcap ∧
      (latched 512 64 State.reset).latch.a0.toNat ≤ 8 * (latched 512 64 State.reset).latch.a1.toNat ∧
      State.reset.cfg.bitcap < (latched 0 65 State.reset).latch.a1.toNat ∧
      8 * (latched 17 2 State.reset).latch.a1.toNat < (latched 17 2 State.reset).latch.a0.toNat := by decide

theorem witness_BrGetReturnsTheNextBits :
    let s := { loaded .bits [0xBF#8, 0xE0#8, 1#8, 2#8] with rlim := 32#32 }
    s.srstPend = false ∧ s.rcur.toNat + 32 ≤ s.rlim.toNat ∧ (∀ j, j < 32 → (s.streamAt (s.rcur.toNat + j)).isSome) ∧
      ({ s with rlim := 0#32 } : State).rlim.toNat < s.rcur.toNat + 1 := by decide

theorem witness_PackedStreamHoldsTheBitsThenZeros :
    State.reset.srstPend = false ∧ State.reset.cfg.legal ∧
      (∀ p ∈ [(3, 5#32), (32, 0xFF#32)], 1 ≤ p.1 ∧ p.1 ≤ 32) ∧
      ([(3, 5#32), (32, 0xFF#32)].map Prod.fst).sum ≤ 8 * State.reset.cfg.bitcap := by decide

theorem witness_UnpackingReturnsTheStreamInOrder :
    (loaded .bits [0xBF#8]).srstPend = false ∧ (loaded .bits [0xBF#8]).cfg.legal ∧
      (1#32).toNat ≤ (loaded .bits [0xBF#8]).cfg.bitcap ∧
      (∀ o, o < (1#32).toNat → ((loaded .bits [0xBF#8]).byteAt .bits o).isSome) ∧ 7 < 8 * (1#32).toNat := by decide

theorem witness_MtfFwdEmitsRanks :
    let s := latched 3 0 (loaded .bufA [3#8, 3#8, 0#8])
    s.srstPend = false ∧ s.latch.a0.toNat = [3#8, 3#8, 0#8].length ∧ [3#8, 3#8, 0#8].length ≤ s.cfg.nbuf ∧
      s.holds (bufWindow .A) 0 [3#8, 3#8, 0#8] ∧ s.cfg.nbuf < (latched 65 0 s).latch.a0.toNat := by decide

theorem witness_MtfInvEmitsBytes :
    let s := latched 2 0 (loaded .bufB [1#8, 0xFF#8])
    s.srstPend = false ∧ s.latch.a0.toNat = [1#8, 0xFF#8].length ∧ [1#8, 0xFF#8].length ≤ s.cfg.nbuf ∧
      s.holds (bufWindow .B) 0 [1#8, 0xFF#8] ∧ s.cfg.nbuf < (latched 65 0 s).latch.a0.toNat := by decide

theorem witness_RankListTransformInverts :
    let s := loaded .bufB [3#8, 3#8, 0#8]
    s.srstPend = false ∧ (3#32).toNat = [3#8, 3#8, 0#8].length ∧ [3#8, 3#8, 0#8].length ≤ s.cfg.nbuf ∧
      s.holds (bufWindow .B) 0 [3#8, 3#8, 0#8] := by decide

theorem witness_BwtInvWalksTheRankMap :
    let s := latched 4 3 (loaded .bufA [1#8, 2#8, 1#8, 2#8])
    s.srstPend = false ∧ s.latch.a0.toNat = [1#8, 2#8, 1#8, 2#8].length ∧ 0 < [1#8, 2#8, 1#8, 2#8].length ∧
      [1#8, 2#8, 1#8, 2#8].length ≤ s.cfg.nbuf ∧ s.latch.a1.toNat < [1#8, 2#8, 1#8, 2#8].length ∧
      s.holds (bufWindow .A) 0 [1#8, 2#8, 1#8, 2#8] ∧
      (latched 0 0 s).latch.a0.toNat = 0 ∧ s.cfg.nbuf < (latched 65 0 s).latch.a0.toNat ∧
      (latched 3 3 s).latch.a0.toNat ≤ (latched 3 3 s).latch.a1.toNat := by decide

/-- Vector L1-1: "banana" and its sentinel, with the suffix array of its comment. -/
theorem witness_BwtInvUndoesTheForwardTransform :
    let xs : List Byte := [0x62#8, 0x61#8, 0x6E#8, 0x61#8, 0x6E#8, 0x61#8, 0x00#8]
    let ts : List Byte := [0x61#8, 0x6E#8, 0x6E#8, 0x62#8, 0x00#8, 0x61#8, 0x61#8]
    let s := latched 7 4 (loaded .bufA ts)
    s.srstPend = false ∧ xs.length ≤ s.cfg.nbuf ∧ s.latch.a0.toNat = xs.length ∧
      IsForwardTransform xs ts s.latch.a1.toNat ∧ s.holds (bufWindow .A) 0 ts :=
  ⟨rfl, by decide, by decide,
    ⟨⟨[0x62#8, 0x61#8, 0x6E#8, 0x61#8, 0x6E#8, 0x61#8], 0x00#8, rfl, by decide⟩,
      [6, 5, 3, 1, 0, 4, 2], by decide, by decide, by decide, by decide⟩, by decide⟩

theorem witness_FreqCountCountsTheSymbols :
    let s := latched 3 0 (loaded .bufA [3#8, 3#8, 0#8])
    s.srstPend = false ∧ s.latch.a0.toNat = [3#8, 3#8, 0#8].length ∧ [3#8, 3#8, 0#8].length ≤ s.cfg.nbuf ∧
      s.holds (bufWindow .A) 0 [3#8, 3#8, 0#8] ∧ s.cfg.nbuf < (latched 65 0 s).latch.a0.toNat := by decide

theorem witness_HufBuildStoresTheTree :
    fullFreq.srstPend = false ∧ (List.replicate 256 1#32).length = 256 ∧
      fullFreq.holdsWords .freq 0 (List.replicate 256 1#32) :=
  ⟨rfl, List.length_replicate, holdsWords_storeWords _ _ _ _⟩

theorem witness_SlotAndEntryFormats :
    (2 ^ 40 - 1 < 2 ^ 40 ∧ 510 < 2 ^ 9 ∧ 0 < 2 ^ 9) ∧ (List.replicate 255 true).length ≤ 255 ∧
      0 < 256 ∧ 255 < 256 ∧ (9 ≤ 9 ∧ 15 < 16) :=
  ⟨by decide, le_of_eq List.length_replicate, by decide⟩

set_option maxRecDepth 20000 in
theorem holdsTreeOf_twoLeaves (s : State) (h : TreeStored (withTwoLeaves s) twoLeafTree) :
    IsFreqTable twoSymbols ∧ HoldsTreeOf (withTwoLeaves s) twoSymbols := by
  have hf : IsFreqTable twoSymbols :=
    ⟨rfl, fun f hf => by
      rcases List.mem_append.1 hf with h | h
      · revert f; decide
      · rw [List.eq_of_mem_replicate h]; decide⟩
  have hb : buildNodes twoSymbols = twoLeafTree := by decide
  have hk : (codedSymbols twoSymbols).length = 2 := by decide
  refine ⟨hf, ?_, ?_, ?_⟩
  · rw [hb]; exact h
  · rw [hk]; rfl
  · rw [hk]; rfl

theorem twoLeaves_stored : TreeStored (withTwoLeaves State.reset) twoLeafTree := by decide

theorem witness_HufCodesWritesThePaths :
    let s := withTwoLeaves State.reset
    s.srstPend = false ∧ s.status.treev = true ∧ (IsFreqTable twoSymbols ∧ HoldsTreeOf s twoSymbols) ∧
      twoSymbols.getD 2 0 = 0 ∧ 0 < twoSymbols.getD 1 0 ∧ 2 ≤ s.nleaf.toNat ∧
      (withLoneLeaf State.reset).nleaf.toNat = 1 ∧ State.reset.status.treev = false :=
  ⟨rfl, rfl, holdsTreeOf_twoLeaves _ twoLeaves_stored, rfl, by decide, by decide, rfl, rfl⟩

/-- The frequency table of `withLoneLeaf`. -/
def loneSymbol : List Nat := List.replicate 0x61 0 ++ [4] ++ List.replicate 158 0

set_option maxRecDepth 20000 in
theorem isFreqTable_loneSymbol : IsFreqTable loneSymbol :=
  ⟨rfl, fun f hf => by
    rcases List.mem_append.1 hf with h | h
    · rcases List.mem_append.1 h with h | h
      · rw [List.eq_of_mem_replicate h]; decide
      · rw [List.mem_singleton.1 h]; decide
    · rw [List.eq_of_mem_replicate h]; decide⟩

set_option maxRecDepth 20000 in
/-- The lone-leaf clauses of HufCodesWritesThePaths and CodesArePrefixFree. -/
theorem witness_HufCodesWritesThePaths_loneLeaf :
    let s := withLoneLeaf State.reset
    s.srstPend = false ∧ s.status.treev = true ∧ (IsFreqTable loneSymbol ∧ HoldsTreeOf s loneSymbol) ∧
      s.nleaf.toNat = 1 ∧ 0 < loneSymbol.getD (0x61#8).toNat 0 := by
  have hb : buildNodes loneSymbol = [.leaf 0x61#8 4] := by decide
  have hk : (codedSymbols loneSymbol).length = 1 := by decide
  refine ⟨rfl, rfl, ⟨isFreqTable_loneSymbol, ?_, ?_, ?_⟩, rfl, by decide⟩
  · rw [hb]; decide
  · rw [hk]; rfl
  · rw [hk]; rfl

set_option maxRecDepth 20000 in
/-- The zero-leaf tree. -/
theorem witness_HufCodesWritesThePaths_noLeaf :
    let s := withNoLeaf State.reset
    s.srstPend = false ∧ s.status.treev = true ∧
      (IsFreqTable (List.replicate 256 0) ∧ HoldsTreeOf s (List.replicate 256 0)) ∧
      (List.replicate 256 0).getD (0xFF#8).toNat 0 = 0 := by
  have hb : buildNodes (List.replicate 256 0) = [] := by decide
  have hk : (codedSymbols (List.replicate 256 0)).length = 0 := by decide
  refine ⟨rfl, rfl, ⟨⟨rfl, fun f hf => by rw [List.eq_of_mem_replicate hf]; decide⟩, ?_, ?_, ?_⟩, by decide⟩
  · rw [hb]; exact fun i hi => absurd hi (Nat.not_lt_zero i)
  · rw [hk]; rfl
  · rw [hk]; rfl

theorem witness_CodesArePrefixFree :
    let s := withTwoLeaves State.reset
    s.srstPend = false ∧ s.status.treev = true ∧ (IsFreqTable twoSymbols ∧ HoldsTreeOf s twoSymbols) ∧
      2 ≤ s.nleaf.toNat ∧ 0 < twoSymbols.getD 0 0 ∧ 0 < twoSymbols.getD 1 0 :=
  ⟨rfl, rfl, holdsTreeOf_twoLeaves _ twoLeaves_stored, by decide, by decide, by decide⟩

/-- The codes of `withCodes`. -/
def codeTable (c : Byte) : List Bool := if c = 0x61#8 then [false] else if c = 0x62#8 then [true, false] else []

theorem witness_HufEncodeAppendsTheCodes :
    let s := latched 2 0 (withCodes (loaded .bufA [0x62#8, 0x61#8]))
    s.srstPend = false ∧ s.cfg.legal ∧ s.status.codev = true ∧ s.latch.a0.toNat = [0x62#8, 0x61#8].length ∧
      [0x62#8, 0x61#8].length ≤ s.cfg.nbuf ∧ s.holds (bufWindow .A) 0 [0x62#8, 0x61#8] ∧ s.partialByteWritten ∧
      (∀ c ∈ [0x62#8, 0x61#8], codeTable c ≠ [] ∧ (codeTable c).length ≤ 255 ∧ s.codeIs c (codeTable c)) ∧
      s.wbits.toNat + ([0x62#8, 0x61#8].flatMap codeTable).length ≤ 8 * s.cfg.bitcap := by decide

theorem witness_HufEncodeStopsAtTheFirstFailure :
    let s := { latched 2 0 ((withCodes (loaded .bufA [0x61#8, 0x62#8])).storeBytes .bits 63 [0#8]) with
      wbits := 510#32 }
    s.srstPend = false ∧ s.cfg.legal ∧ s.status.codev = true ∧ [0x61#8].length < s.latch.a0.toNat ∧
      s.latch.a0.toNat ≤ s.cfg.nbuf ∧ s.holds (bufWindow .A) 0 ([0x61#8] ++ [0x62#8]) ∧ s.partialByteWritten ∧
      (∀ x ∈ [0x61#8], codeTable x ≠ []) ∧
      (∀ x ∈ [0x61#8] ++ [0x62#8], (codeTable x).length ≤ 255 ∧ s.codeIs x (codeTable x)) ∧
      s.wbits.toNat + ([0x61#8].flatMap codeTable).length ≤ 8 * s.cfg.bitcap ∧
      8 * s.cfg.bitcap < s.wbits.toNat + ([0x61#8].flatMap codeTable).length + (codeTable 0x62#8).length := by decide

/-- The other failure: a symbol whose entry has `LEN = 0`. -/
theorem witness_HufEncodeStopsAtTheFirstFailure_noCode :
    let s := latched 1 0 { (loaded .bufA [0x00#8]).storeWords .code 0 (packCode []) with
      status := { State.reset.status with codev := true } }
    s.srstPend = false ∧ s.cfg.legal ∧ s.status.codev = true ∧ ([] : List Byte).length < s.latch.a0.toNat ∧
      s.latch.a0.toNat ≤ s.cfg.nbuf ∧ s.holds (bufWindow .A) 0 ([] ++ [0x00#8]) ∧ s.partialByteWritten ∧
      (∀ x ∈ [] ++ [0x00#8], (codeTable x).length ≤ 255 ∧ s.codeIs x (codeTable x)) ∧ codeTable 0x00#8 = [] := by
  decide

/-- `reset` with the two-leaf tree and one readable byte `01000000`. -/
def readyToDecode (n : Nat) : State :=
  latched n 0 { withTwoLeaves (loaded .bits [0x40#8]) with rlim := 8#32 }

theorem readyToDecode_leads (n : Nat) :
    (readyToDecode n).root.toNat = 2 ∧ LeadsTo twoLeafTree 2 [false] 0#8 ∧ LeadsTo twoLeafTree 2 [true] 1#8 :=
  ⟨rfl, ⟨0, 1, by decide, by decide⟩, ⟨1, 1, by decide, by decide⟩⟩

theorem witness_HufDecodeFollowsTheTree :
    let s := readyToDecode 2
    s.srstPend = false ∧ s.status.treev = true ∧ s.latch.a0.toNat = [0#8, 1#8].length ∧
      [0#8, 1#8].length ≤ s.cfg.nbuf ∧ s.nleaf.toNat ≠ 1 ∧ s.nleaf.toNat ≠ 0 ∧ TreeStored s twoLeafTree ∧
      [[false], [true]].length = [0#8, 1#8].length ∧
      (∀ (i : Nat) (x : Byte) (code : List Bool), [0#8, 1#8][i]? = some x → [[false], [true]][i]? = some code →
        LeadsTo twoLeafTree s.root.toNat code x) ∧
      s.streamHolds s.rcur.toNat [[false], [true]].flatten ∧
      s.rcur.toNat + [[false], [true]].flatten.length ≤ s.rlim.toNat ∧
      [0#8, 1#8].length ≤ s.rlim.toNat - s.rcur.toNat := by
  refine ⟨rfl, rfl, by decide, by decide, by decide, by decide, by decide, rfl, ?_, by decide, by decide, by decide⟩
  obtain ⟨hr, h0, h1⟩ := readyToDecode_leads 2
  rw [hr]
  intro i x code hx hc
  match i with
  | 0 => simp at hx hc; subst hx hc; exact h0
  | 1 => simp at hx hc; subst hx hc; exact h1
  | i + 2 => simp at hx

theorem witness_HufDecodeOfALoneLeafReadsNoBit :
    let s := latched 4 0 (withLoneLeaf State.reset)
    s.srstPend = false ∧ s.status.treev = true ∧ s.nleaf.toNat = 1 ∧
      s.slotAt s.root.toNat = some (.leaf 0x61#8 4) ∧ s.latch.a0.toNat ≤ s.cfg.nbuf := by decide

/-- A chain of three leaves: `0` is symbol 0, `10` symbol 1, `11` symbol 2. -/
def chainTree : List Node := [.leaf 0#8 4, .leaf 1#8 1, .leaf 2#8 1, .internal 256 1 2 2, .internal 257 0 3 6]

/-- `reset` with that tree and one readable byte of bits 1. -/
def readyToRunOut : State :=
  latched 5 0
    { (loaded .bits [0xFF#8]).storeWords .tree 0 (chainTree.flatMap packNode) with
      nleaf := 3#32, nnode := 5#32, root := 4#9, rcur := 1#32, rlim := 8#32
      status := { State.reset.status with treev := true } }

theorem witness_HufDecodeStopsWhenBitsRunOut :
    let s := readyToRunOut
    s.srstPend = false ∧ s.status.treev = true ∧ 2 ≤ s.nleaf.toNat ∧ [2#8, 2#8, 2#8].length < s.latch.a0.toNat ∧
      s.latch.a0.toNat ≤ s.cfg.nbuf ∧ s.latch.a0.toNat ≤ s.rlim.toNat - s.rcur.toNat ∧ TreeStored s chainTree ∧
      (List.replicate 3 [true, true]).length = [2#8, 2#8, 2#8].length ∧
      (∀ (j : Nat) (x : Byte) (code : List Bool), [2#8, 2#8, 2#8][j]? = some x →
        (List.replicate 3 [true, true])[j]? = some code → LeadsTo chainTree s.root.toNat code x) ∧
      descend chainTree s.root.toNat [true] = some 3 ∧ chainTree[3]? = some (.internal 256 1 2 2) ∧
      s.streamHolds s.rcur.toNat ((List.replicate 3 [true, true]).flatten ++ [true]) ∧
      s.rcur.toNat + ((List.replicate 3 [true, true]).flatten ++ [true]).length = s.rlim.toNat := by
  refine ⟨rfl, rfl, by decide, by decide, by decide, by decide, by decide, rfl, ?_, by decide, by decide, by decide,
    by decide⟩
  have hl : LeadsTo chainTree readyToRunOut.root.toNat [true, true] 2#8 := ⟨2, 1, by decide, by decide⟩
  intro j x code hx hc
  match j with
  | 0 => simp at hx hc; subst hx hc; exact hl
  | 1 => simp at hx hc; subst hx hc; exact hl
  | 2 => simp at hx hc; subst hx hc; exact hl
  | j + 3 => simp at hx

theorem witness_FailedChecksChangeNothingElse :
    State.reset.srstPend = false ∧ State.reset.status.treev = false ∧ State.reset.status.codev = false ∧
      State.reset.cfg.nbuf < (latched 65 0 State.reset).latch.a0.toNat ∧
      (withCodes State.reset).status.codev = true ∧ (withCodes State.reset).status.treev = true ∧
      (let s := latched 1 0 (withNoLeaf State.reset)
       s.status.treev = true ∧ s.latch.a0.toNat ≤ s.cfg.nbuf ∧ 0 < s.latch.a0.toNat ∧ s.nleaf.toNat = 0) ∧
      (let s := readyToDecode 9
       s.status.treev = true ∧ s.latch.a0.toNat ≤ s.cfg.nbuf ∧ 2 ≤ s.nleaf.toNat ∧
         s.rlim.toNat - s.rcur.toNat < s.latch.a0.toNat) := by decide

theorem witness_ReadingUnwrittenEntriesFaults :
    (let s := latched 2 1 (loaded .bufA [0x61#8])
     1 < s.latch.a0.toNat ∧ s.latch.a0.toNat ≤ s.cfg.nbuf ∧ s.byteAt (bufWindow .A) 1 = none ∧
       s.latch.a1.toNat < s.latch.a0.toNat) ∧
    (255 < 256 ∧ State.reset.wordAt .freq 255 = none) ∧
    (let s := { loaded .bits [0x61#8] with rlim := 16#32 }
     8 < 9 ∧ s.rcur.toNat + 9 ≤ s.rlim.toNat ∧ s.streamAt (s.rcur.toNat + 8) = none) := by decide

/-- HUF_ENCODE of two symbols, the second one unwritten. -/
theorem witness_ReadingUnwrittenEntriesFaults_encode :
    let s := latched 2 0 (withCodes (loaded .bufA [0x62#8]))
    s.cfg.legal ∧ s.status.codev = true ∧ [0x62#8].length < s.latch.a0.toNat ∧ s.latch.a0.toNat ≤ s.cfg.nbuf ∧
      s.holds (bufWindow .A) 0 [0x62#8] ∧ s.byteAt (bufWindow .A) [0x62#8].length = none ∧ s.partialByteWritten ∧
      (∀ x ∈ [0x62#8], codeTable x ≠ [] ∧ (codeTable x).length ≤ 255 ∧ s.codeIs x (codeTable x)) ∧
      s.wbits.toNat + ([0x62#8].flatMap codeTable).length ≤ 8 * s.cfg.bitcap := by decide

/-- HUF_DECODE whose fourth symbol's second bit lies in an unwritten byte below `RLIM`. -/
theorem witness_ReadingUnwrittenEntriesFaults_decode :
    let s := { readyToRunOut with rlim := 16#32 }
    s.status.treev = true ∧ 2 ≤ s.nleaf.toNat ∧ [2#8, 2#8, 2#8].length < s.latch.a0.toNat ∧
      s.latch.a0.toNat ≤ s.cfg.nbuf ∧ s.latch.a0.toNat ≤ s.rlim.toNat - s.rcur.toNat ∧ TreeStored s chainTree ∧
      (List.replicate 3 [true, true]).length = [2#8, 2#8, 2#8].length ∧
      (∀ (j : Nat) (x : Byte) (code : List Bool), [2#8, 2#8, 2#8][j]? = some x →
        (List.replicate 3 [true, true])[j]? = some code → LeadsTo chainTree s.root.toNat code x) ∧
      descend chainTree s.root.toNat [true] = some 3 ∧ chainTree[3]? = some (.internal 256 1 2 2) ∧
      s.streamHolds s.rcur.toNat ((List.replicate 3 [true, true]).flatten ++ [true]) ∧
      s.rcur.toNat + ((List.replicate 3 [true, true]).flatten ++ [true]).length < s.rlim.toNat ∧
      s.streamAt (s.rcur.toNat + ((List.replicate 3 [true, true]).flatten ++ [true]).length) = none := by
  obtain ⟨-, -, hk, hn, hb, -, ht, hc, hl, hd, hi, hs, -⟩ := witness_HufDecodeStopsWhenBitsRunOut
  exact ⟨rfl, hk, hn, hb, by decide, ht, hc, hl, hd, hi, hs, by decide, by decide⟩

theorem witness_TreeAndCodesDependOnFreqAlone :
    fullFreq.srstPend = false ∧ (List.replicate 256 1#32).length = 256 ∧
      fullFreq.holdsWords .freq 0 (List.replicate 256 1#32) ∧
      (({ State.reset with wbits := 9#32 } : State).storeWords .freq 0 (List.replicate 256 1#32)).holdsWords .freq 0
        (List.replicate 256 1#32) :=
  ⟨rfl, List.length_replicate, holdsWords_storeWords _ _ _ _, holdsWords_storeWords _ _ _ _⟩

theorem witness_HuffmanRoundTrip :
    let s := loaded .bufB [3#8, 3#8, 0#8]
    s.srstPend = false ∧ s.cfg.legal ∧ (3#32).toNat = [3#8, 3#8, 0#8].length ∧ [3#8, 3#8, 0#8].length ≤ s.cfg.nbuf ∧
      s.holds (bufWindow .B) 0 [3#8, 3#8, 0#8] := by decide

/-- Nine code bits, one for each symbol of a lone leaf, that exceed the eight of a one-byte stream. -/
theorem witness_HuffmanRoundTrip_overflow :
    let s := { loaded .bufA (List.replicate 9 3#8) with cfg := { nbuf := 9, bitcap := 1, base := 0 } }
    s.srstPend = false ∧ s.cfg.legal ∧ (9#32).toNat = (List.replicate 9 3#8).length ∧
      (List.replicate 9 3#8).length ≤ s.cfg.nbuf ∧ s.holds (bufWindow .A) 0 (List.replicate 9 3#8) ∧
      8 * s.cfg.bitcap < ((List.replicate 9 3#8).flatMap fun _ => [false]).length := by decide

/-- The invariants hold in a state about to run BW_INIT, which answers a next state. -/
def runningInit : State := running 0x00000010 0 0 State.reset

theorem runningInit_steps : ∃ t, step runningInit = .next t := ⟨_, rfl⟩

theorem runningInit_byteAt (w : Window) (o : Nat) : runningInit.byteAt w o = none := by cases w <;> rfl

theorem witness_MemoriesStayCanonicalAndInStorage :
    MemoriesCanonical runningInit ∧ EntriesInStorage runningInit ∧ ∃ t, step runningInit = .next t :=
  ⟨fun w => memories_unwritten_wf w,
    ⟨by decide, fun w o h => by rw [runningInit_byteAt] at h; cases h⟩, runningInit_steps⟩

theorem witness_StreamRegistersStayInRange : StreamInRange runningInit ∧ ∃ t, step runningInit = .next t :=
  ⟨by unfold StreamInRange; decide, runningInit_steps⟩

theorem witness_FlagsStayInAgreement :
    FlagsAgree runningInit ∧ TreeRegistersAgree runningInit ∧ ∃ t, step runningInit = .next t :=
  ⟨by unfold FlagsAgree; decide, by unfold TreeRegistersAgree; decide, runningInit_steps⟩

/-- With a tree: the two-leaf one, BW_INIT about to run. -/
theorem witness_TreeAndCodeStayValid :
    TreeAndCodeValid (withTwoLeaves runningInit) ∧ (withTwoLeaves runningInit).status.treev = true ∧
      ∃ t, step (withTwoLeaves runningInit) = .next t := by
  refine ⟨⟨fun h => ?_, fun _ => ⟨twoSymbols, holdsTreeOf_twoLeaves _ (by decide)⟩, fun h => ?_⟩, rfl, _, rfl⟩
  · exact absurd h (by decide)
  · exact absurd h (by decide)

theorem witness_RlistStaysAPermutation : RlistPermutation runningInit ∧ ∃ t, step runningInit = .next t :=
  ⟨.inl fun o => runningInit_byteAt .rlist o, runningInit_steps⟩

theorem witness_ResetMeetsTheInvariants :
    Config.vectors.legal ∧ ({ nbuf := 2 ^ 20, bitcap := 1, base := 2 ^ 24 } : Config).legal := by decide

theorem witness_ValidityFlagsChangeOnlyAsStated :
    (∃ t, step (running 0x00000003 0 0 (withNoLeaf State.reset)) = .next t) ∧
    (let s := running 0x00000003 0 0 (withNoLeaf State.reset)
     engineRuns s = true ∧ decode s.latch.w = .ok .hufCodes ∧ s.srstPend = false ∧ s.status.treev = true) ∧
    (∃ t, step (running 0x00000104 0 0 State.reset) = .next t) ∧
    (let s := running 0x00000104 0 0 State.reset
     engineRuns s = true ∧ decode s.latch.w = .ok (.hufEncode .B) ∧ s.srstPend = false ∧ s.status.codev = false) ∧
    ∃ t, step { State.reset with schedule := [.rstFall] } = .next t ∧ AtReset t :=
  ⟨⟨_, rfl⟩, by decide, ⟨_, rfl⟩, by decide, _, rfl, atReset_powerOn Config.vectors⟩

/-- HUF_BUILD on a written table answers a next state. -/
theorem witness_ValidityFlagsChangeOnlyAsStated_build :
    let s := running 0x00000002 0 0 fullFreq
    engineRuns s = true ∧ decode s.latch.w = .ok .hufBuild ∧ s.srstPend = false ∧ ∃ t, step s = .next t := by
  refine ⟨rfl, by decide, rfl, ?_⟩
  have hw : (begin (popEvent (running 0x00000002 0 0 fullFreq))).wordsAt .freq 0 256 =
      some (List.replicate 256 1#32) := by
    rw [wordsAt_eq_some]
    refine ⟨List.length_replicate, fun j hj => ?_⟩
    rw [← holdsWords_storeWords State.reset .freq 0 (List.replicate 256 1#32) j
      (by rw [List.length_replicate]; exact hj)]
    have hm : (begin (popEvent (running 0x00000002 0 0 fullFreq))).mem = fullFreq.mem := rfl
    exact wordAt_congr fun k _ => by unfold State.byteAt; rw [hm]; rfl
  have hr : engineRuns (running 0x00000002 0 0 fullFreq) = true := rfl
  have hf : fetch (running 0x00000002 0 0 fullFreq) = .ok .hufBuild := by decide
  obtain ⟨u, hu⟩ := runHufBuild_done hw
  unfold step
  rw [if_pos hr, hf]
  refine ⟨complete none u, ?_⟩
  show (runHufBuild (begin (popEvent (running 0x00000002 0 0 fullFreq)))).commit = _
  rw [hu]
  rfl

theorem witness_StreamRegistersChangeOnlyAsStated :
    (∃ t, step (running 0x00000013 4 5 State.reset) = .next t ∧ t.status.done = true ∧
      t.rcur ≠ (running 0x00000013 4 5 State.reset).rcur ∧ t.rlim ≠ (running 0x00000013 4 5 State.reset).rlim) ∧
    ∃ t, step (running 0x00000011 1 0 State.reset) = .next t ∧ t.status.done = true ∧
      t.wbits ≠ (running 0x00000011 1 0 State.reset).wbits :=
  ⟨⟨_, rfl, rfl, by decide, by decide⟩, _, rfl, rfl, by decide⟩

theorem witness_ReadOnlyMemoriesHaveTheirWriters :
    nextEvent (running 0x00000020 0 0 State.reset) ≠ .rstFall ∧
      ∃ t, step (running 0x00000020 0 0 State.reset) = .next t ∧
        t.byteAt .rlist 0 ≠ (running 0x00000020 0 0 State.reset).byteAt .rlist 0 :=
  ⟨by decide, _, rfl, by decide⟩

theorem witness_CommandLinesRunTheirCommand :
    let s := { State.reset with schedule := issue (.bwPut 32) (some 5#32) none }
    (Instr.bwPut 32).wellFormed = true ∧ s.status.busy = false ∧ s.rstLow = false ∧
      s.schedule = issue (.bwPut 32) (some 5#32) none ++ [] := by decide

end Sys2Proof.Tests
end

section
/-! SUPPORT. Accesses of the register window by register, and what every step keeps of the parameters
(spec/10_state.md R22, R36–R38; 00_scope.md R6). -/

namespace Sys2Proof.Machine

/-! ### Accesses of the register window -/

/-- The word offset of a register finds that register. -/
theorem regAt_wordOffset_of_offset {a : BitVec 24} {r : Reg} (h : a.toNat / 4 = r.offset / 4) :
    regAt (wordOffset a) = some r := by
  rw [regAt_wordOffset, h]
  cases r <;> rfl

/-- The registers lie below the first memory window (R61). -/
theorem Reg.offset_div_lt (r : Reg) : r.offset / 4 < 16 := by cases r <;> decide

/-- A register's read returns its value and changes nothing else, idle or busy. -/
theorem hostRead_register {a : BitVec 24} {r : Reg} (h : a.toNat / 4 = r.offset / 4) (s : State) :
    hostRead a s = { s with rdata := s.regRead r } := by
  have ha : a.toNat < 0x400 := by have := r.offset_div_lt; omega
  simp [hostRead, inRegWindow_wordOffset, ha, regAt_wordOffset_of_offset h, State.answer]

/-- A write at a register's word is that register's write, idle or busy. -/
theorem hostWrite_register {a : BitVec 24} {r : Reg} (h : a.toNat / 4 = r.offset / 4) (v : Word) (s : State) :
    hostWrite a v s = s.regWrite r v := by
  have ha : a.toNat < 0x400 := by have := r.offset_div_lt; omega
  simp [hostWrite, inRegWindow_wordOffset, ha, regAt_wordOffset_of_offset h]

/-- No register stands at a reserved offset (R38). -/
theorem regAt_wordOffset_reserved {a : BitVec 24} (h : 0x040 ≤ a.toNat) : regAt (wordOffset a) = none := by
  rw [regAt_wordOffset, if_neg (by omega)]

theorem hostRead_reserved {a : BitVec 24} (h : 0x040 ≤ a.toNat) (ha : a.toNat < 0x400) (s : State) :
    hostRead a s = { s with rdata := 0#32 } := by
  simp [hostRead, inRegWindow_wordOffset, ha, regAt_wordOffset_reserved h, State.answer]

theorem hostWrite_reserved {a : BitVec 24} (h : 0x040 ≤ a.toNat) (ha : a.toNat < 0x400) (v : Word) (s : State) :
    hostWrite a v s = s := by
  simp [hostWrite, inRegWindow_wordOffset, ha, regAt_wordOffset_reserved h]

/-! ### The parameters -/

@[simp] theorem hostRead_cfg (a : BitVec 24) (s : State) : (hostRead a s).cfg = s.cfg := by
  rcases hostRead_cases a s with ⟨d, n, h⟩ | ⟨-, -, h⟩ <;> rw [h]

theorem WriteEffect.cfg_eq {a : BitVec 24} {v : Word} {s t : State} (h : WriteEffect a v s t) : t.cfg = s.cfg := by
  cases h <;> rfl

@[simp] theorem hostWrite_cfg (a : BitVec 24) (v : Word) (s : State) : (hostWrite a v s).cfg = s.cfg :=
  (hostWrite_effect a v s).cfg_eq

theorem exec_cfg {i : Instr} {s t : State} (h : exec i s = .next t) : t.cfg = s.cfg := by
  obtain ⟨u, o, hf, rfl, -⟩ := exec_next h
  rw [complete_cfg, hf.cfg, begin_cfg]

/-- R6: no step changes the parameters. -/
theorem step_cfg {s t : State} (h : step s = .next t) : t.cfg = s.cfg := by
  cases step_effect h with
  | command i _ _ _ he => exact exec_cfg (s := popEvent s) he
  | illegal => simp [completeIllegal]
  | idle => rfl
  | read => simp
  | write => simp
  | rstFall => rfl
  | rstRise => rfl

/-- Settles O16: the constant registers by their rows of the register map, the reserved offsets by having none, the
parameters by cases on the step. -/
theorem constantRegistersAndReservedOffsets : Obligations.ConstantRegistersAndReservedOffsets := by
  refine ⟨fun s a v => ⟨fun h => ?_, fun h => ?_, fun h => ?_, fun h ha => ?_⟩, fun s t h => step_cfg h⟩
  · exact ⟨hostRead_register (r := .id) h s, hostWrite_register (r := .id) h v s⟩
  · exact ⟨hostRead_register (r := .capbuf) h s, hostWrite_register (r := .capbuf) h v s⟩
  · exact ⟨hostRead_register (r := .capbits) h s, hostWrite_register (r := .capbits) h v s⟩
  · exact ⟨hostRead_reserved h ha s, hostWrite_reserved h ha v s⟩

end Sys2Proof.Machine
end

section
/-! SUPPORT. The validity flags `TREEV`, `CODEV` and `LONE`: their writers, their resets and the commands they gate
(spec/10_state.md R51). -/

namespace Sys2Proof.Machine

/-! ### The engine's turn -/

/-- On the engine's turn the step is the command of the latched word (R102). -/
theorem step_of_engineRuns {s : State} {i : Instr} (hr : engineRuns s = true) (hd : decode s.latch.w = .ok i) :
    step s = exec i (popEvent s) := by
  simp [step, hr, fetch, hd]

/-- Without a pending soft reset, a command that finishes commits its state with the flags of a success. -/
theorem exec_of_done {i : Instr} {s u : State} (h : runOf i (begin s) = .done () u) (hp : s.srstPend = false) :
    exec i s = .next { u with status := u.status.succeeded } := by
  have hf := runOf_framed i (begin s)
  rw [h] at hf
  rw [exec_eq, h]
  exact congrArg _ (complete_eq none u (hf.srstPend.trans hp))

/-- Without a pending soft reset, a command that raises commits its state with the flags of the error (R203). -/
theorem exec_of_raised {i : Instr} {s u : State} {e : ErrorKind} (h : runOf i (begin s) = .raised e u)
    (hp : s.srstPend = false) : exec i s = .next { u with status := u.status.failed e.errcode } := by
  have hf := runOf_framed i (begin s)
  rw [h] at hf
  rw [exec_eq, h]
  exact congrArg _ (complete_eq (some e) u (hf.srstPend.trans hp))

/-- A command that gets stuck faults. -/
theorem exec_of_stuck {i : Instr} {s : State} {f : Fault} (h : runOf i (begin s) = .stuck f) :
    exec i s = .fault f := by
  rw [exec_eq, h]
  rfl

/-! ### The flags in the `STATUS` word -/

theorem Status.word_treev (t : Status) : t.word.getLsbD 3 = t.treev := by
  simp only [Status.word, BitVec.getLsbD_append]
  simp

theorem Status.word_codev (t : Status) : t.word.getLsbD 4 = t.codev := by
  simp only [Status.word, BitVec.getLsbD_append]
  simp

theorem Status.word_lone (t : Status) : t.word.getLsbD 5 = t.lone := by
  simp only [Status.word, BitVec.getLsbD_append]
  simp

/-- At the reset values no validity flag is set. -/
theorem validity_of_atReset {t : State} (h : AtReset t) :
    t.status.treev = false ∧ t.status.codev = false ∧ t.status.lone = false := by
  obtain ⟨-, hw, -⟩ := h
  change t.status.word = 0#32 at hw
  rw [← t.status.word_treev, ← t.status.word_codev, ← t.status.word_lone, hw]
  decide

/-! ### What keeps the flags -/

/-- The three validity flags of `t` are those of `s`. -/
def SameValidity (s t : State) : Prop :=
  t.status.treev = s.status.treev ∧ t.status.codev = s.status.codev ∧ t.status.lone = s.status.lone

theorem SameValidity.refl (s : State) : SameValidity s s := ⟨rfl, rfl, rfl⟩

/-- A completion keeps the validity flags unless it ends in a soft reset. -/
theorem sameValidity_complete (o : Option ErrorKind) {s : State} (h : ¬ AtReset (complete o s)) :
    SameValidity s (complete o s) := by
  rcases complete_cases o s with ⟨-, hc⟩ | ⟨-, hc⟩
  · rw [hc]; exact ⟨rfl, rfl, rfl⟩
  · exact absurd (hc ▸ atReset_softReset _) h

/-- A host read keeps them. -/
theorem sameValidity_hostRead (a : BitVec 24) (s : State) : SameValidity s (hostRead a s) := by
  rcases hostRead_cases a s with ⟨d, n, h⟩ | ⟨-, -, h⟩ <;> rw [h] <;> exact ⟨rfl, rfl, rfl⟩

/-- A host write keeps them unless it is a soft reset. -/
theorem WriteEffect.sameValidity {a : BitVec 24} {v : Word} {s t : State} (h : WriteEffect a v s t)
    (hn : ¬ AtReset t) : SameValidity s t := by
  cases h with
  | ctrlReset => exact absurd (atReset_softReset s) hn
  | _ => exact ⟨rfl, rfl, rfl⟩

/-- A command that moves neither the tree nor the codes keeps them unless it ends in a soft reset. -/
theorem sameValidity_exec {i : Instr} {s t : State} (ht : .tree ∉ partsOf i) (hc : .codes ∉ partsOf i)
    (h : exec i s = .next t) (hn : ¬ AtReset t) : SameValidity s t := by
  obtain ⟨u, o, hf, rfl, -⟩ := exec_next h
  obtain ⟨h1, h2, h3⟩ := sameValidity_complete o hn
  exact ⟨h1.trans (hf.treev ht), h2.trans (hf.codev hc), h3.trans (hf.lone ht)⟩

/-- HUF_BUILD and HUF_CODES are the only commands that move the tree or the codes. -/
theorem movesValidity_iff (i : Instr) :
    (.tree ∈ partsOf i ∨ .codes ∈ partsOf i) ↔ i = .hufBuild ∨ i = .hufCodes := by
  cases i <;> simp [partsOf]

/-! ### The writers of the flags -/

/-- HUF_BUILD, when it answers, has built a tree of at most 256 leaves and never raises (R161). -/
theorem runHufBuild_cases (s : State) :
    (∃ u k, runHufBuild s = .done () u ∧ k ≤ 256 ∧ u.nleaf = wordOf k ∧ u.status = s.status.treeBuilt k) ∨
      runHufBuild s = .stuck (.unwritten .freq) := by
  cases h : s.wordsAt .freq 0 256 with
  | none => exact .inr (runHufBuild_stuck h)
  | some ws =>
    have hk : (leavesFrom 0 (ws.map BitVec.toNat)).length ≤ 256 := by
      rw [leavesFrom_length, ← (wordsAt_eq_some.1 h).1, ← List.length_map (f := BitVec.toNat)]
      exact List.countP_le_length
    unfold runHufBuild
    rw [h]
    exact .inl ⟨_, _, rfl, hk, rfl, rfl⟩

/-- A count of at most 256 leaves is 1 exactly when its register reads 1. -/
theorem wordOf_eq_one_iff {k : Nat} (h : k ≤ 256) : wordOf k = 1#32 ↔ k = 1 := by
  unfold wordOf
  constructor
  · intro he
    have := congrArg BitVec.toNat he
    simp only [BitVec.toNat_ofNat] at this
    omega
  · rintro rfl; rfl

/-- R51: the flags HUF_BUILD leaves. -/
theorem exec_hufBuild_validity {s t : State} (h : exec .hufBuild s = .next t) (hp : s.srstPend = false) :
    t.status.treev = true ∧ t.status.codev = false ∧ t.status.lone = decide (t.nleaf = 1#32) := by
  rcases runHufBuild_cases (begin s) with ⟨u, k, hu, hk, hn, hs⟩ | hu
  · rw [exec_of_done (i := .hufBuild) hu hp] at h
    cases h
    show u.status.treev = true ∧ u.status.codev = false ∧ u.status.lone = decide (u.nleaf = 1#32)
    simp [hs, hn, Status.treeBuilt, wordOf_eq_one_iff hk]
  · rw [exec_of_stuck (i := .hufBuild) hu] at h
    cases h

/-- R162: without a tree HUF_CODES raises `SEQUENCE`. -/
theorem runHufCodes_sequence {s : State} (h : s.status.treev = false) : runHufCodes s = .raised .sequence s := by
  simp [runHufCodes, h]

/-- With a tree HUF_CODES sets `CODEV` or meets an entry it cannot read. -/
theorem runHufCodes_cases {s : State} (h : s.status.treev = true) :
    (∃ u, runHufCodes s = .done () u ∧ u.status = s.status.codesBuilt) ∨ ∃ f, runHufCodes s = .stuck f := by
  unfold runHufCodes
  rw [if_neg (by simp [h])]
  cases assignedCodes s with
  | error f => exact .inr ⟨f, rfl⟩
  | ok codes => exact .inl ⟨_, rfl, rfl⟩

/-- R51: the flags HUF_CODES leaves when there is a tree. -/
theorem exec_hufCodes_validity {s t : State} (h : exec .hufCodes s = .next t) (hp : s.srstPend = false)
    (hv : s.status.treev = true) :
    t.status.codev = true ∧ t.status.treev = true ∧ t.status.lone = s.status.lone := by
  rcases runHufCodes_cases (s := begin s) hv with ⟨u, hu, hs⟩ | ⟨f, hu⟩
  · rw [exec_of_done (i := .hufCodes) hu hp] at h
    cases h
    show u.status.codev = true ∧ u.status.treev = true ∧ u.status.lone = s.status.lone
    rw [hs]
    exact ⟨rfl, hv, rfl⟩
  · rw [exec_of_stuck (i := .hufCodes) hu] at h
    cases h

/-- HUF_CODES without a tree leaves the flags, unless it ends in a soft reset. -/
theorem sameValidity_hufCodes {s t : State} (h : exec .hufCodes s = .next t) (hv : s.status.treev = false)
    (hn : ¬ AtReset t) : SameValidity s t := by
  have hr : runOf .hufCodes (begin s) = .raised .sequence (begin s) := runHufCodes_sequence hv
  rw [exec_eq, hr] at h
  cases h
  exact sameValidity_complete (some .sequence) hn

/-- R51: every other step keeps the flags, resets apart. -/
theorem sameValidity_step {s t : State} (h : step s = .next t)
    (hb : ¬ (engineRuns s = true ∧ decode s.latch.w = .ok .hufBuild))
    (hc : ¬ (engineRuns s = true ∧ decode s.latch.w = .ok .hufCodes ∧ s.status.treev = true)) (hn : ¬ AtReset t) :
    SameValidity s t := by
  cases step_effect h with
  | command i _ hr hd he =>
    by_cases hi : i = .hufCodes
    · subst hi
      have hv : s.status.treev = false := by simpa using fun hv => hc ⟨hr, hd, hv⟩
      exact sameValidity_hufCodes (s := popEvent s) he hv hn
    · have hmoves : ¬ (.tree ∈ partsOf i ∨ .codes ∈ partsOf i) := by
        rw [movesValidity_iff]
        rintro (rfl | rfl)
        · exact hb ⟨hr, hd⟩
        · exact hi rfl
      obtain ⟨htree, hcodes⟩ := not_or.1 hmoves
      exact sameValidity_exec (s := popEvent s) htree hcodes he hn
  | illegal => exact sameValidity_complete (s := begin (popEvent s)) _ hn
  | idle => exact .refl s
  | read a => exact sameValidity_hostRead a (popEvent s)
  | write a v => exact (hostWrite_effect a v (popEvent s)).sameValidity hn
  | rstFall => exact absurd (atReset_powerOn s.cfg) hn
  | rstRise => exact .refl s

/-! ### The commands the flags gate -/

/-- R51: the commands that need a flag that is not set. -/
def MissesFlag (i : Instr) (t : Status) : Prop :=
  (i = .hufCodes ∧ t.treev = false) ∨ (∃ b, i = .hufEncode b ∧ t.codev = false) ∨
    ∃ b, i = .hufDecode b ∧ t.treev = false

/-- A command that needs a flag that is not set raises `SEQUENCE` before anything else. -/
theorem runOf_missesFlag {i : Instr} {s : State} (h : MissesFlag i s.status) : runOf i s = .raised .sequence s := by
  rcases h with ⟨rfl, hv⟩ | ⟨b, rfl, hv⟩ | ⟨b, rfl, hv⟩
  · exact runHufCodes_sequence hv
  · simp [runOf, runHufEncode, hv]
  · simp [runOf, runHufDecode, hv]

theorem exec_missesFlag_status {i : Instr} {s t : State} (hi : MissesFlag i s.status) (h : exec i s = .next t)
    (hp : s.srstPend = false) : t.status = s.status.failed 3#4 := by
  rw [exec_of_raised (runOf_missesFlag (s := begin s) hi) hp] at h
  cases h
  rfl

/-- Settles O57: the writers by what their rules leave, the resets by the `STATUS` word they read, every other step by
its frame, the gates by the first check of the three commands. -/
theorem validityFlagsChangeOnlyAsStated : Obligations.ValidityFlagsChangeOnlyAsStated := by
  intro s t h
  refine ⟨fun hr hd hp => ?_, fun hr hd hp hv => ?_, validity_of_atReset, sameValidity_step h, fun hr hp hg => ?_⟩
  · rw [step_of_engineRuns hr hd] at h
    exact exec_hufBuild_validity (s := popEvent s) h hp
  · rw [step_of_engineRuns hr hd] at h
    exact exec_hufCodes_validity (s := popEvent s) h hp hv
  · obtain ⟨i, hd, hm⟩ : ∃ i, decode s.latch.w = .ok i ∧ MissesFlag i s.status := by
      rcases hg with ⟨hd, hv⟩ | ⟨b, hd, hv⟩ | ⟨b, hd, hv⟩
      · exact ⟨_, hd, .inl ⟨rfl, hv⟩⟩
      · exact ⟨_, hd, .inr (.inl ⟨b, rfl, hv⟩)⟩
      · exact ⟨_, hd, .inr (.inr ⟨b, rfl, hv⟩)⟩
    rw [step_of_engineRuns hr hd] at h
    exact exec_missesFlag_status (s := popEvent s) hm h hp

end Sys2Proof.Machine
end

section
/-! SUPPORT. The offset of a host access: its low bits do not count, and past the registers it is blocked while a
command runs (spec R66, R67). -/

namespace Sys2Proof.Machine

/-! ### The low address bits -/

/-- Clearing address bits 1..0 leaves the word index. -/
theorem clearLowBits_toNat_div (a : BitVec 24) : (a &&& ~~~3#24).toNat / 4 = a.toNat / 4 := by
  have hshift : (a &&& ~~~3#24) >>> 2 = a >>> 2 := by
    have hmask : (~~~3#24) >>> 2 = BitVec.allOnes 24 >>> 2 := by decide
    rw [BitVec.ushiftRight_and_distrib, hmask, ← BitVec.ushiftRight_and_distrib, BitVec.and_allOnes]
  simpa [Nat.shiftRight_eq_div_pow] using congrArg BitVec.toNat hshift

theorem wordOffset_clearLowBits (a : BitVec 24) : wordOffset (a &&& ~~~3#24) = wordOffset a := by
  rw [wordOffset, wordOffset, clearLowBits_toNat_div]

/-- A read depends on its address only through the word offset. -/
theorem hostRead_congr {a b : BitVec 24} (h : wordOffset a = wordOffset b) (s : State) :
    hostRead a s = hostRead b s := by
  rw [hostRead, hostRead, h]

/-- A write depends on its address only through the word offset. -/
theorem hostWrite_congr {a b : BitVec 24} (h : wordOffset a = wordOffset b) (v : Word) (s : State) :
    hostWrite a v s = hostWrite b v s := by
  rw [hostWrite, hostWrite, h]

/-- Settles O18: both accesses go by the word offset, which the low bits do not move. -/
theorem addressLowBitsAreIgnored : Obligations.AddressLowBitsAreIgnored := by
  intro s a v
  have h : wordOffset a = wordOffset (a &&& ~~~3#24) := (wordOffset_clearLowBits a).symm
  exact ⟨hostRead_congr h s, hostWrite_congr h v s⟩

/-! ### Accesses past the registers while a command runs -/

/-- A read past the registers while busy is a blocked read of 0, whether a window or a reserved range is there. -/
theorem hostRead_busy {a : BitVec 24} {s : State} (hb : s.status.busy = true) (ha : 0x400 ≤ a.toNat) :
    hostRead a s = (blockAccess s).answer 0#32 := by
  have hr : inRegWindow (wordOffset a) = false := by simpa [inRegWindow_wordOffset] using ha
  simp [hostRead, hr, hb]

/-- A write past the registers while busy is a blocked access. -/
theorem hostWrite_busy {a : BitVec 24} {s : State} (hb : s.status.busy = true) (ha : 0x400 ≤ a.toNat) (v : Word) :
    hostWrite a v s = blockAccess s := by
  have hr : inRegWindow (wordOffset a) = false := by simpa [inRegWindow_wordOffset] using ha
  simp [hostWrite, hr, hb]

/-- Settles O19: past the registers the test of `BUSY` comes before the choice of the window. -/
theorem windowsAreBlockedWhileBusy : Obligations.WindowsAreBlockedWhileBusy := by
  intro s a v hb ha
  exact ⟨hostRead_busy hb ha, hostWrite_busy hb ha v⟩

end Sys2Proof.Machine
end

section
/-! SUPPORT. The command word by its five fields: what a row's mask keeps of them, when a word decodes and to what
(spec/30_encoding.md R80–R83, R86, R87, R91). -/

namespace Sys2Proof

/-! ### A word is its fields -/

/-- R80: the five fields, side by side, are the word. -/
theorem append_fields (w : Word) :
    w.extractLsb' 21 11 ++ w.extractLsb' 16 5 ++ w.extractLsb' 9 7 ++ w.extractLsb' 8 1 ++ w.extractLsb' 0 8 = w := by
  have h16 : w.extractLsb' 21 11 ++ w.extractLsb' 16 5 = w.extractLsb' 16 16 :=
    BitVec.extractLsb'_append_extractLsb'_eq_extractLsb' rfl
  have h9 : w.extractLsb' 16 16 ++ w.extractLsb' 9 7 = w.extractLsb' 9 23 :=
    BitVec.extractLsb'_append_extractLsb'_eq_extractLsb' rfl
  have h8 : w.extractLsb' 9 23 ++ w.extractLsb' 8 1 = w.extractLsb' 8 24 :=
    BitVec.extractLsb'_append_extractLsb'_eq_extractLsb' rfl
  have h0 : w.extractLsb' 8 24 ++ w.extractLsb' 0 8 = w.extractLsb' 0 32 :=
    BitVec.extractLsb'_append_extractLsb'_eq_extractLsb' rfl
  rw [h16, h9, h8, h0, BitVec.extractLsb'_eq_self]

/-- The one-bit field at bit 8 is the bit `S`. -/
theorem extractLsb'_eight_one (w : Word) : w.extractLsb' 8 1 = BitVec.ofBool (sField w) := by
  ext j hj
  obtain rfl : j = 0 := by omega
  simp [sField]

/-- Two words are equal when their five fields are. -/
theorem word_eq_iff_fields {v w : Word} :
    v = w ↔ opcField v = opcField w ∧ reservedLow v = reservedLow w ∧ reservedHigh v = reservedHigh w ∧
      sField v = sField w ∧ cntm1Field v = cntm1Field w := by
  refine ⟨by rintro rfl; simp, fun ⟨hopc, hlow, hhigh, hs, hcnt⟩ => ?_⟩
  rw [← append_fields v, ← append_fields w, extractLsb'_eight_one, extractLsb'_eight_one, hs,
    BitVec.eq_of_toNat_eq hopc, BitVec.eq_of_toNat_eq hlow, BitVec.eq_of_toNat_eq hhigh, BitVec.eq_of_toNat_eq hcnt]

theorem reservedLow_eq_zero {w : Word} : reservedLow w = 0 ↔ w.extractLsb' 9 7 = 0#7 := by
  rw [reservedLow, ← BitVec.toNat_inj, BitVec.toNat_ofNat, Nat.zero_mod]

theorem reservedHigh_eq_zero {w : Word} : reservedHigh w = 0 ↔ w.extractLsb' 21 11 = 0#11 := by
  rw [reservedHigh, ← BitVec.toNat_inj, BitVec.toNat_ofNat, Nat.zero_mod]

theorem cntm1Field_eq_zero {w : Word} : cntm1Field w = 0 ↔ w.extractLsb' 16 5 = 0#5 := by
  rw [cntm1Field, ← BitVec.toNat_inj, BitVec.toNat_ofNat, Nat.zero_mod]

/-! ### The rows of the opcode table -/

/-- R81: the opcode says whether `S` is used. -/
theorem Instr.usesS_iff_opc (i : Instr) : i.usesS = true ↔ i.opc ∈ [0x01, 0x04, 0x05, 0x20, 0x21, 0x22] := by
  cases i <;> simp [Instr.usesS, Instr.opc]

/-- R81: the opcode says whether `CNTM1` is used. -/
theorem Instr.usesCount_iff_opc (i : Instr) : i.usesCount = true ↔ i.opc ∈ [0x11, 0x14] := by
  cases i <;> simp [Instr.usesCount, Instr.opc]

/-- Every command has its row. -/
theorem exists_tableRow (i : Instr) : ∃ r ∈ tableRows, r.opc = i.opc := by
  cases i <;> simp [tableRows, Instr.opc]

/-- The rows' opcodes are those of R81. -/
theorem tableRows_map_opc : tableRows.map Instr.opc =
    [0x00, 0x01, 0x02, 0x03, 0x04, 0x05, 0x10, 0x11, 0x12, 0x13, 0x14, 0x20, 0x21, 0x22] := rfl

theorem tableRows_eq_of_opc : ∀ r ∈ tableRows, ∀ r' ∈ tableRows, r.opc = r'.opc → r = r' := by decide

/-- The word has the command's opcode, no reserved bit, and zero in each field the opcode does not use (R86). -/
def FitsRow (i : Instr) (w : Word) : Prop :=
  opcField w = i.opc ∧ reservedLow w = 0 ∧ reservedHigh w = 0 ∧
    (sField w = true → i.usesS = true) ∧ (cntm1Field w ≠ 0 → i.usesCount = true)

/-- Fitting a row speaks of the row's opcode only. -/
theorem fitsRow_congr {i j : Instr} (h : i.opc = j.opc) (w : Word) : FitsRow i w ↔ FitsRow j w := by
  simp only [FitsRow, Instr.usesS_iff_opc, Instr.usesCount_iff_opc, h]

/-- R86: a word fits a row when it breaks none of the rules of an illegal word. -/
theorem exists_fitsRow_iff (w : Word) :
    (∃ r ∈ tableRows, FitsRow r w) ↔
      opcField w ∈ [0x00, 0x01, 0x02, 0x03, 0x04, 0x05, 0x10, 0x11, 0x12, 0x13, 0x14, 0x20, 0x21, 0x22] ∧
      reservedLow w = 0 ∧ reservedHigh w = 0 ∧
      (sField w = true → opcField w ∈ [0x01, 0x04, 0x05, 0x20, 0x21, 0x22]) ∧
      (cntm1Field w ≠ 0 → opcField w ∈ [0x11, 0x14]) := by
  simp only [FitsRow, Instr.usesS_iff_opc, Instr.usesCount_iff_opc, ← tableRows_map_opc, List.mem_map]
  constructor
  · rintro ⟨r, hr, hopc, hrest⟩
    exact ⟨⟨r, hr, hopc.symm⟩, hopc ▸ hrest⟩
  · rintro ⟨⟨r, hr, hopc⟩, hrest⟩
    exact ⟨r, hr, hopc.symm, hopc ▸ hrest⟩

/-- R81: no opcode uses both `S` and `CNTM1`. -/
theorem Instr.usesCount_eq_false_of_usesS {i : Instr} (h : i.usesS = true) : i.usesCount = false := by
  cases i <;> simp_all [Instr.usesS, Instr.usesCount]

/-! ### The fields under a row's mask and in its match -/

@[simp] theorem opcField_and_tableMask (w : Word) (i : Instr) : opcField (w &&& i.tableMask) = opcField w := by
  have h : i.tableMask.extractLsb' 0 8 = BitVec.allOnes 8 := by
    unfold Instr.tableMask; split_ifs <;> rfl
  rw [opcField, BitVec.extractLsb'_and, h, BitVec.and_allOnes, opcField]

@[simp] theorem reservedLow_and_tableMask (w : Word) (i : Instr) :
    reservedLow (w &&& i.tableMask) = reservedLow w := by
  have h : i.tableMask.extractLsb' 9 7 = BitVec.allOnes 7 := by
    unfold Instr.tableMask; split_ifs <;> rfl
  rw [reservedLow, BitVec.extractLsb'_and, h, BitVec.and_allOnes, reservedLow]

@[simp] theorem reservedHigh_and_tableMask (w : Word) (i : Instr) :
    reservedHigh (w &&& i.tableMask) = reservedHigh w := by
  have h : i.tableMask.extractLsb' 21 11 = BitVec.allOnes 11 := by
    unfold Instr.tableMask; split_ifs <;> rfl
  rw [reservedHigh, BitVec.extractLsb'_and, h, BitVec.and_allOnes, reservedHigh]

@[simp] theorem sField_and_tableMask (w : Word) (i : Instr) :
    sField (w &&& i.tableMask) = (sField w && !i.usesS) := by
  have h : i.tableMask.getLsbD 8 = !i.usesS := by
    unfold Instr.tableMask; cases i.usesS <;> cases i.usesCount <;> rfl
  rw [sField, BitVec.getLsbD_and, h, sField]

@[simp] theorem cntm1Field_and_tableMask (w : Word) (i : Instr) :
    cntm1Field (w &&& i.tableMask) = if i.usesCount then 0 else cntm1Field w := by
  have h : i.tableMask.extractLsb' 16 5 = if i.usesCount then 0#5 else BitVec.allOnes 5 := by
    unfold Instr.tableMask
    cases hs : i.usesS with
    | true => rw [Instr.usesCount_eq_false_of_usesS hs]; rfl
    | false => cases i.usesCount <;> rfl
  rw [cntm1Field, BitVec.extractLsb'_and, h]
  cases i.usesCount with
  | true => rw [if_pos rfl, if_pos rfl, BitVec.and_zero]; rfl
  | false => rw [if_neg (by decide), if_neg (by decide), BitVec.and_allOnes, cntm1Field]

@[simp] theorem opcField_tableMatch (i : Instr) : opcField i.tableMatch = i.opc := by
  cases i <;> simp [Instr.tableMatch, Instr.opc, opcField]
@[simp] theorem reservedLow_tableMatch (i : Instr) : reservedLow i.tableMatch = 0 := by
  cases i <;> simp [Instr.tableMatch, Instr.opc, reservedLow]
@[simp] theorem reservedHigh_tableMatch (i : Instr) : reservedHigh i.tableMatch = 0 := by
  cases i <;> simp [Instr.tableMatch, Instr.opc, reservedHigh]
@[simp] theorem sField_tableMatch (i : Instr) : sField i.tableMatch = false := by
  cases i <;> simp [Instr.tableMatch, Instr.opc, sField]
@[simp] theorem cntm1Field_tableMatch (i : Instr) : cntm1Field i.tableMatch = 0 := by
  cases i <;> simp [Instr.tableMatch, Instr.opc, cntm1Field]

/-- A word has a row's match under the row's mask when its fields fit the row. -/
theorem and_tableMask_eq_tableMatch_iff (w : Word) (i : Instr) :
    w &&& i.tableMask = i.tableMatch ↔ FitsRow i w := by
  rw [word_eq_iff_fields, FitsRow]
  cases hs : i.usesS <;> cases hc : i.usesCount <;> simp [hs, hc]

/-! ### The decoder -/

@[simp] theorem sOfBuf_bufOfS (x : Bool) : sOfBuf (bufOfS x) = x := by cases x <;> rfl

/-- Every opcode of a command is listed. -/
theorem exists_commandOf_opc (i : Instr) (b : Buf) (cnt : Nat) : ∃ j, commandOf i.opc b cnt = some j := by
  cases i <;> exact ⟨_, rfl⟩

/-- R81–R83: the command of an opcode has that opcode, and the buffer and the bit count where it uses them. -/
theorem commandOf_fields {opc cnt : Nat} {b : Buf} {i : Instr} (h : commandOf opc b cnt = some i) :
    i.opc = opc ∧ i.s = (i.usesS && sOfBuf b) ∧ i.cntm1 = (if i.usesCount then cnt - 1 else 0) ∧
      ∀ c, i = .bwPut c ∨ i = .brGet c → c = cnt := by
  unfold commandOf at h
  split at h <;> cases h <;> simp [Instr.opc, Instr.s, Instr.cntm1, Instr.usesS, Instr.usesCount]

/-- R87: a word decodes to the command of its fields, when it fits that command's row. -/
theorem decode_eq_ok_iff {w : Word} {i : Instr} :
    decode w = .ok i ↔ commandOf (opcField w) (bufOfS (sField w)) (cntm1Field w + 1) = some i ∧ FitsRow i w := by
  unfold decode
  cases hc : commandOf (opcField w) (bufOfS (sField w)) (cntm1Field w + 1) with
  | none => simp
  | some j =>
    have hopc := (commandOf_fields hc).1
    simp only [FitsRow, Option.some.injEq]
    split_ifs with hres hs hcnt
    · simp only [false_iff]
      rintro ⟨-, -, hlow, hhigh, -⟩
      exact hres.elim (· hlow) (· hhigh)
    · simp only [false_iff]
      rintro ⟨rfl, -, -, -, hused, -⟩
      simp [hused hs.1] at hs
    · simp only [false_iff]
      rintro ⟨rfl, -, -, -, -, hused⟩
      simp [hused hcnt.1] at hcnt
    · simp only [Except.ok.injEq, iff_self_and]
      rintro rfl
      obtain ⟨hlow, hhigh⟩ := not_or.mp hres
      exact ⟨hopc.symm, not_ne_iff.mp hlow, not_ne_iff.mp hhigh, by simpa using hs, by simpa using hcnt⟩

/-- R87: the legal words are those that fit a row. -/
theorem exists_decode_eq_ok_iff (w : Word) : (∃ i, decode w = .ok i) ↔ ∃ r ∈ tableRows, FitsRow r w := by
  constructor
  · rintro ⟨i, h⟩
    obtain ⟨r, hr, hopc⟩ := exists_tableRow i
    exact ⟨r, hr, (fitsRow_congr hopc w).mpr (decode_eq_ok_iff.mp h).2⟩
  · rintro ⟨r, -, hfit⟩
    obtain ⟨j, hj⟩ := exists_commandOf_opc r (bufOfS (sField w)) (cntm1Field w + 1)
    rw [← hfit.1] at hj
    have hopc : r.opc = j.opc := hfit.1.symm.trans (commandOf_fields hj).1.symm
    exact ⟨j, decode_eq_ok_iff.mpr ⟨hj, (fitsRow_congr hopc w).mp hfit⟩⟩

/-- R87: an illegal word is one that decodes to no command. -/
theorem exists_decode_eq_error_iff (w : Word) : (∃ e, decode w = .error e) ↔ ¬ ∃ i, decode w = .ok i := by
  cases decode w <;> simp

/-- R80–R83: a legal word's command has the word's fields. -/
theorem decode_fields {w : Word} {i : Instr} (h : decode w = .ok i) :
    i.opc = opcField w ∧ i.s = sField w ∧ i.cntm1 = cntm1Field w ∧
      ∀ cnt, i = .bwPut cnt ∨ i = .brGet cnt → cnt = cntm1Field w + 1 := by
  obtain ⟨hc, -, -, -, hs, hcnt⟩ := decode_eq_ok_iff.mp h
  obtain ⟨hopc, his, hic, hcount⟩ := commandOf_fields hc
  refine ⟨hopc, ?_, ?_, hcount⟩
  · rw [his, sOfBuf_bufOfS]
    cases hw : sField w with
    | false => simp
    | true => simp [hs hw]
  · rw [hic, Nat.add_sub_cancel]
    split
    · rfl
    next hu => exact (not_ne_iff.mp (mt hcnt hu)).symm

/-- Settles O4: a word is legal exactly when its fields fit a row, which is what the row's mask and match compare. -/
theorem decodingIsTheTables : Obligations.DecodingIsTheTables := by
  intro w
  simp only [and_tableMask_eq_tableMatch_iff]
  refine ⟨?_, fun i => decode_fields, exists_decode_eq_ok_iff w, fun r hr r' hr' h h' => ?_⟩
  · rw [exists_decode_eq_error_iff, exists_decode_eq_ok_iff, exists_fitsRow_iff, Ne, Ne, Ne, Ne, ← reservedLow_eq_zero,
      ← reservedHigh_eq_zero, ← cntm1Field_eq_zero, ← opcField, ← sField]
    tauto
  · exact tableRows_eq_of_opc r hr r' hr' (h.1.symm.trans h'.1)

/-! ### The encoder -/

/-- R80: a row's match is the word with the row's opcode and zero in every other field. -/
theorem Instr.tableMatch_eq_append (i : Instr) :
    i.tableMatch = 0#11 ++ 0#5 ++ 0#7 ++ 0#1 ++ BitVec.ofNat 8 i.opc := by
  cases i <;> simp [Instr.tableMatch, Instr.opc]

/-- R80: the word of a command without `S` is the opcode and `CNTM1` in bits 20..16. -/
theorem encode_of_s_eq_false {i : Instr} (hs : i.s = false) (hc : i.cntm1 < 32) :
    encode i = i.tableMatch ||| BitVec.ofNat 32 i.cntm1 <<< 16 := by
  have hshift : BitVec.ofNat 32 i.cntm1 <<< 16 = 0#11 ++ BitVec.ofNat 5 i.cntm1 ++ 0#7 ++ 0#1 ++ 0#8 := by
    apply BitVec.eq_of_toNat_eq
    rw [BitVec.toNat_append, BitVec.toNat_append, BitVec.toNat_append, BitVec.toNat_append]
    simp [Nat.shiftLeft_eq]
    omega
  rw [encode, hs, Instr.tableMatch_eq_append, hshift, BitVec.or_append, BitVec.or_append, BitVec.or_append,
    BitVec.or_append]
  simp

/-- Settles O1: the listed words by evaluation, those of BW_PUT and BR_GET by their fields. -/
theorem referenceWordsEncodeAndDecode : Obligations.ReferenceWordsEncodeAndDecode := by
  refine ⟨by decide, fun cnt h1 h2 => ?_⟩
  have hc : cnt - 1 < 32 := by omega
  exact ⟨encode_of_s_eq_false (i := .bwPut cnt) rfl hc, encode_of_s_eq_false (i := .brGet cnt) rfl hc⟩

end Sys2Proof
end

section
/-! SUPPORT. What a host access can do while a command runs, and why no access stops it
(spec/40_command_engine.md R101, R106). -/

namespace Sys2Proof.Machine

/-! ### The effect of an access while busy -/

/-- `t` is `s` but for what an access while busy can change: `IE`, `SRSTPEND`, the flags that are neither `BUSY` nor a
validity flag, the read data and the count of free bytes. -/
def HostSideOnly (s t : State) : Prop :=
  t = { s with ie := t.ie, srstPend := t.srstPend, status := t.status, rdata := t.rdata, freeCount := t.freeCount } ∧
    t.status.busy = s.status.busy ∧ SameValidity s t

/-- A host read, idle or busy, stays on the host's side. -/
theorem hostSideOnly_hostRead (a : BitVec 24) (s : State) : HostSideOnly s (hostRead a s) := by
  rcases hostRead_cases a s with ⟨d, n, h⟩ | ⟨-, -, h⟩ <;> rw [h] <;> exact ⟨rfl, rfl, rfl, rfl, rfl⟩

/-- R101: so does a host write while busy, since what would accept, reset or store needs `BUSY = 0`. -/
theorem WriteEffect.hostSideOnly {a : BitVec 24} {v : Word} {s t : State} (h : WriteEffect a v s t)
    (hb : s.status.busy = true) : HostSideOnly s t := by
  cases h with
  | ctrlReset hi | ctrlIdle hi | accepted hi | arg0 hi | arg1 hi | stored _ _ hi => simp [hb] at hi
  | _ => exact ⟨rfl, rfl, rfl, rfl, rfl⟩

theorem hostSideOnly_hostWrite (a : BitVec 24) (v : Word) {s : State} (hb : s.status.busy = true) :
    HostSideOnly s (hostWrite a v s) :=
  (hostWrite_effect a v s).hostSideOnly hb

/-- An access on the host's side changes what no register but `CTRL` and `STATUS` reads. -/
theorem HostSideOnly.regRead_eq {s t : State} (h : HostSideOnly s t) {r : Reg} (hc : r ≠ .ctrl) (hs : r ≠ .status) :
    t.regRead r = s.regRead r := by
  obtain ⟨ht, -⟩ := h
  rw [ht]
  cases r with
  | ctrl => exact absurd rfl hc
  | status => exact absurd rfl hs
  | _ => rfl

/-- A write at word 0 or past `ARG1` within the register window is ignored while busy. -/
theorem hostWrite_ignored_of_busy {a : BitVec 24} {s : State} (hb : s.status.busy = true) (ha : a.toNat < 0x400)
    (hr : a.toNat / 4 = 0 ∨ 6 ≤ a.toNat / 4) (v : Word) : hostWrite a v s = s := by
  have he := hostWrite_effect a v s
  generalize hostWrite a v s = t at he
  cases he with
  | ignored => rfl
  | stored _ _ h => simp [hb] at h
  | _ => omega

/-! ### The `STATUS` word -/

/-- R24: the eight flags in bits 7..0. -/
theorem Status.word_flags (t : Status) {j : Nat} (hj : j < 8) :
    t.word.getLsbD j = [t.busy, t.done, t.err, t.treev, t.codev, t.lone, t.accv, t.ovr].getD j false := by
  simp only [Status.word, BitVec.getLsbD_append]
  interval_cases j <;> simp

/-- R24: `ERRCODE` in bits 19..16, and the reserved bits. -/
theorem Status.word_fields (t : Status) :
    t.word.extractLsb' 16 4 = t.errcode ∧ t.word.extractLsb' 8 8 = 0#8 ∧ t.word.extractLsb' 20 12 = 0#12 := by
  refine ⟨?_, ?_, ?_⟩ <;>
    · ext j hj
      simp only [Status.word, BitVec.getElem_extractLsb', BitVec.getLsbD_append]
      interval_cases j <;> simp

/-- Settles O8: the writes by the register they reach, the reads by the register map, what stays by the host's side of
an access, the `STATUS` word by its fields. -/
theorem busyRegisterAccesses : Obligations.BusyRegisterAccesses := by
  intro s a v hb hd he hcode
  obtain ⟨herr, hres8, hres20⟩ := s.status.word_fields
  refine ⟨?_, fun ha => ?_, fun ha => ?_, fun ha hr => hostWrite_ignored_of_busy hb ha hr v,
    fun r ha => hostRead_register ha s, fun r hc hs => ⟨?_, ?_⟩, fun j hj => ?_, herr.trans hcode, hres8, hres20⟩
  · rintro (ha | ha | ha)
    · rw [hostWrite_register (r := .cmd) ha, State.regWrite, if_pos hb, dropWrite]
    · rw [hostWrite_register (r := .arg0) ha, State.regWrite, if_pos hb, dropWrite]
    · rw [hostWrite_register (r := .arg1) ha, State.regWrite, if_pos hb, dropWrite]
  · rw [hostWrite_register (r := .ctrl) ha, State.regWrite, writeCtrl, if_pos hb]
  · rw [hostWrite_register (r := .status) ha, State.regWrite, Status.writeOneToClear]
    simp [hd]
  · exact (hostSideOnly_hostRead a s).regRead_eq hc hs
  · exact (hostSideOnly_hostWrite a v hb).regRead_eq hc hs
  · rw [State.regRead, Status.word_flags _ hj, hb, hd, he]

/-! ### A running command -/

/-- A completed command leaves the HCB idle. -/
theorem exec_busy {i : Instr} {s t : State} (h : exec i s = .next t) : t.status.busy = false := by
  obtain ⟨u, o, -, rfl, -⟩ := exec_next h
  exact complete_busy o u

/-- An access on the host's side leaves a running command what it works on. -/
theorem HostSideOnly.running {s t : State} (h : HostSideOnly s t) (hb : s.status.busy = true) :
    t.status.busy = true ∧ t.latch = s.latch ∧ t.mem = s.mem ∧ t.wbits = s.wbits ∧ t.rcur = s.rcur ∧
      t.rlim = s.rlim ∧ t.root = s.root ∧ t.nleaf = s.nleaf := by
  obtain ⟨ht, hbusy, -⟩ := h
  refine ⟨hbusy.trans hb, ?_⟩
  rw [ht]
  exact ⟨rfl, rfl, rfl, rfl, rfl, rfl, rfl⟩

/-- Settles O9: by what the step was; an access while busy stays on the host's side. -/
theorem noAccessStopsARunningCommand : Obligations.NoAccessStopsARunningCommand := by
  intro s t hb h
  cases step_effect h with
  | command i _ hr _ he => exact .inr (.inl ⟨hr, exec_busy he⟩)
  | illegal _ hr => exact .inr (.inl ⟨hr, complete_busy _ _⟩)
  | idle _ hi => simp [hb] at hi
  | read a => exact .inl ((hostSideOnly_hostRead a (popEvent s)).running hb)
  | write a v => exact .inl ((hostSideOnly_hostWrite a v (s := popEvent s) hb).running hb)
  | rstFall he => exact .inr (.inr ⟨he, rfl, atReset_powerOn s.cfg⟩)
  | rstRise => exact .inl ⟨hb, rfl, rfl, rfl, rfl, rfl, rfl, rfl⟩

end Sys2Proof.Machine
end

section
/-! SUPPORT. A command's rule reads the latched command, the memories and the registers the commands use, and nothing
of the host's side: run on another host's side it does the same there (spec/40_command_engine.md R100, R108). -/

namespace Sys2Proof.Machine

/-! ### One state's engine side on another's host side -/

/-- `s` on the host side of `h`: what a command reads and writes is `s`'s, everything else `h`'s. -/
def State.onto (s h : State) : State :=
  { h with
    cfg := s.cfg
    latch := s.latch
    mem := s.mem
    res0 := s.res0
    res1 := s.res1
    wbits := s.wbits
    rcur := s.rcur
    rlim := s.rlim
    nleaf := s.nleaf
    nnode := s.nnode
    root := s.root
    status := { h.status with treev := s.status.treev, codev := s.status.codev, lone := s.status.lone } }

/-- A result whose state, if it has one, is moved to the host side of `h`. -/
def Result.onto {α : Type} (h : State) : Result α → Result α
  | .done a s => .done a (s.onto h)
  | .raised e s => .raised e (s.onto h)
  | .stuck f => .stuck f

/-- Both sides take the same branch, whatever decides their condition. -/
theorem Result.ite_onto {α : Type} {h : State} {c : Prop} {d d' : Decidable c} {x y x' y' : Result α}
    (hx : x' = x.onto h) (hy : y' = y.onto h) : @ite _ c d' x' y' = (@ite _ c d x y).onto h := by
  by_cases hc : c
  · rw [if_pos hc, if_pos hc, hx]
  · rw [if_neg hc, if_neg hc, hy]

/-! ### What a command reads of a state -/

@[simp] theorem State.onto_cfg (s h : State) : (s.onto h).cfg = s.cfg := rfl
@[simp] theorem State.onto_latch (s h : State) : (s.onto h).latch = s.latch := rfl
@[simp] theorem State.onto_wbits (s h : State) : (s.onto h).wbits = s.wbits := rfl
@[simp] theorem State.onto_rcur (s h : State) : (s.onto h).rcur = s.rcur := rfl
@[simp] theorem State.onto_rlim (s h : State) : (s.onto h).rlim = s.rlim := rfl
@[simp] theorem State.onto_nleaf (s h : State) : (s.onto h).nleaf = s.nleaf := rfl
@[simp] theorem State.onto_root (s h : State) : (s.onto h).root = s.root := rfl
@[simp] theorem State.onto_treev (s h : State) : (s.onto h).status.treev = s.status.treev := rfl
@[simp] theorem State.onto_codev (s h : State) : (s.onto h).status.codev = s.status.codev := rfl
@[simp] theorem State.argN_onto (s h : State) : (s.onto h).argN = s.argN := rfl
@[simp] theorem State.argP_onto (s h : State) : (s.onto h).argP = s.argP := rfl
@[simp] theorem State.byteAt_onto (s h : State) (w : Window) (o : Nat) : (s.onto h).byteAt w o = s.byteAt w o := rfl
@[simp] theorem State.source_onto (s h : State) (b : Buf) (n : Nat) : (s.onto h).source b n = s.source b n := rfl
@[simp] theorem State.wordAt_onto (s h : State) (w : Window) (i : Nat) : (s.onto h).wordAt w i = s.wordAt w i := rfl
@[simp] theorem State.codeLen_onto (s h : State) (c : Byte) : (s.onto h).codeLen c = s.codeLen c := rfl
@[simp] theorem State.codeBit_onto (s h : State) (c : Byte) (j : Nat) : (s.onto h).codeBit c j = s.codeBit c j := rfl

@[simp] theorem State.wordsAt_onto (s h : State) (w : Window) (i n : Nat) :
    (s.onto h).wordsAt w i n = s.wordsAt w i n := by
  induction n generalizing i with
  | zero => rfl
  | succ n ih => simp only [State.wordsAt, State.wordAt_onto, ih]

@[simp] theorem State.slotAt_onto (s h : State) (i : Nat) : (s.onto h).slotAt i = s.slotAt i := by
  simp only [State.slotAt, State.wordsAt_onto]

@[simp] theorem State.codeBits_onto (s h : State) (c : Byte) (j n : Nat) :
    (s.onto h).codeBits c j n = s.codeBits c j n := by
  induction n generalizing j with
  | zero => rfl
  | succ n ih => simp only [State.codeBits, State.codeBit_onto, ih]

@[simp] theorem walkCodes_onto (s h : State) (d i : Nat) (c : List Bool) :
    walkCodes (s.onto h) d i c = walkCodes s d i c := by
  induction d generalizing i c with
  | zero => rfl
  | succ d ih => simp only [walkCodes, State.slotAt_onto, ih]

@[simp] theorem assignedCodes_onto (s h : State) : assignedCodes (s.onto h) = assignedCodes s := by
  simp only [assignedCodes, State.onto_nleaf, State.onto_root, State.slotAt_onto, walkCodes_onto]

/-! ### The loops of the rules -/

theorem putBit_onto (v : Bool) (s h : State) : putBit v (s.onto h) = (putBit v s).onto h := by
  simp only [putBit, State.onto_wbits, State.byteAt_onto]
  refine Result.ite_onto rfl ?_
  cases s.byteAt .bits (s.wbits.toNat / 8) <;> rfl

theorem putBits_onto (vs : List Bool) (s h : State) : putBits vs (s.onto h) = (putBits vs s).onto h := by
  induction vs generalizing s with
  | nil => rfl
  | cons v vs ih =>
    rw [putBits, putBits, putBit_onto]
    cases putBit v s with
    | done _ s' => exact ih s'
    | raised _ _ => rfl
    | stuck _ => rfl

theorem getBit_onto (s h : State) : getBit (s.onto h) = (getBit s).onto h := by
  simp only [getBit, State.onto_rcur, State.onto_rlim, State.byteAt_onto]
  refine Result.ite_onto rfl ?_
  cases s.byteAt .bits (s.rcur.toNat / 8) <;> rfl

theorem getBits_onto (cnt v : Nat) (s h : State) : getBits cnt v (s.onto h) = (getBits cnt v s).onto h := by
  induction cnt generalizing v s with
  | zero => rfl
  | succ cnt ih =>
    rw [getBits, getBits, getBit_onto]
    cases getBit s with
    | done b s' => exact ih _ s'
    | raised _ _ => rfl
    | stuck _ => rfl

theorem encodeFrom_onto (b : Buf) (i k : Nat) (s h : State) :
    encodeFrom b i k (s.onto h) = (encodeFrom b i k s).onto h := by
  induction k generalizing i s with
  | zero => rfl
  | succ k ih =>
    simp only [encodeFrom, State.byteAt_onto, State.codeLen_onto, State.codeBits_onto, State.onto_cfg,
      State.onto_wbits, putBits_onto]
    cases s.byteAt (bufWindow b) i with
    | none => rfl
    | some c =>
      dsimp only
      cases s.codeLen c with
      | none => rfl
      | some len =>
        refine Result.ite_onto rfl (Result.ite_onto rfl ?_)
        cases s.codeBits c 0 len with
        | none => rfl
        | some bits =>
          dsimp only
          cases putBits bits s with
          | done _ s' => exact ih _ s'
          | raised _ _ => rfl
          | stuck _ => rfl

theorem walkDown_onto (i start left node : Nat) (s h : State) :
    walkDown i start left node (s.onto h) = (walkDown i start left node s).onto h := by
  induction left generalizing node s with
  | zero =>
    rw [walkDown, walkDown, State.slotAt_onto]
    rcases s.slotAt node with _ | _ | _ <;> rfl
  | succ left ih =>
    rw [walkDown, walkDown, State.slotAt_onto, getBit_onto]
    rcases s.slotAt node with _ | _ | _
    · rfl
    · rfl
    · dsimp only
      cases getBit s with
      | done b s' => exact ih _ s'
      | raised _ _ => rfl
      | stuck _ => rfl

theorem decodeFrom_onto (b : Buf) (start i k : Nat) (s h : State) :
    decodeFrom b start i k (s.onto h) = (decodeFrom b start i k s).onto h := by
  induction k generalizing i s with
  | zero => rfl
  | succ k ih =>
    simp only [decodeFrom, State.onto_rlim, State.onto_rcur, State.onto_root, walkDown_onto]
    cases walkDown i start (s.rlim.toNat - s.rcur.toNat) s.root.toNat s with
    | done sym s' => exact ih _ (s'.storeBytes (bufWindow b) i [sym])
    | raised _ _ => rfl
    | stuck _ => rfl

theorem decodeLone_onto (b : Buf) (n : Nat) (s h : State) :
    decodeLone b n (s.onto h) = (decodeLone b n s).onto h := by
  simp only [decodeLone, State.onto_root, State.slotAt_onto]
  refine Result.ite_onto rfl ?_
  cases s.slotAt s.root.toNat <;> rfl

theorem runRankList_onto (f : List Byte → List Byte → List Byte × List Byte) (b : Buf) (s h : State) :
    runRankList f b (s.onto h) = (runRankList f b s).onto h := by
  simp only [runRankList, State.onto_cfg, State.argN_onto, State.source_onto]
  refine Result.ite_onto rfl ?_
  cases s.source b s.argN <;> rfl

/-! ### The rules -/

/-- R108: the rule of every command does on another host side what it does on its own. -/
theorem runOf_onto (i : Instr) (s h : State) : runOf i (s.onto h) = (runOf i s).onto h := by
  cases i with
  | nop => rfl
  | freqCount b =>
    simp only [runOf, runFreqCount, State.onto_cfg, State.argN_onto, State.source_onto]
    refine Result.ite_onto rfl ?_
    cases s.source b s.argN <;> rfl
  | hufBuild =>
    simp only [runOf, runHufBuild, State.wordsAt_onto]
    cases s.wordsAt .freq 0 256 <;> rfl
  | hufCodes =>
    simp only [runOf, runHufCodes, State.onto_treev, assignedCodes_onto]
    refine Result.ite_onto rfl ?_
    cases assignedCodes s <;> rfl
  | hufEncode b =>
    simp only [runOf, runHufEncode, State.onto_codev, State.onto_cfg, State.argN_onto, encodeFrom_onto]
    exact Result.ite_onto rfl (Result.ite_onto rfl rfl)
  | hufDecode b =>
    simp only [runOf, runHufDecode, State.onto_treev, State.onto_cfg, State.onto_nleaf, State.onto_rlim,
      State.onto_rcur, State.argN_onto, decodeLone_onto, decodeFrom_onto]
    iterate 4 refine Result.ite_onto rfl ?_
    exact Result.ite_onto rfl rfl
  | bwInit => rfl
  | bwPut cnt =>
    simp only [runOf, runBwPut, State.onto_cfg, State.onto_wbits, State.onto_latch, putBits_onto]
    refine Result.ite_onto rfl ?_
    cases putBits (lowBits s.latch.a0 cnt) s <;> rfl
  | bwFlush => rfl
  | brInit =>
    simp only [runOf, runBrInit, State.onto_cfg, State.argN_onto, State.argP_onto]
    exact Result.ite_onto rfl (Result.ite_onto rfl rfl)
  | brGet cnt =>
    simp only [runOf, runBrGet, State.onto_rlim, State.onto_rcur, getBits_onto]
    refine Result.ite_onto rfl ?_
    cases getBits cnt 0 s <;> rfl
  | mtfFwd b => exact runRankList_onto _ b s h
  | mtfInv b => exact runRankList_onto _ b s h
  | bwtInv b =>
    simp only [runOf, runBwtInv, State.onto_cfg, State.argN_onto, State.argP_onto, State.source_onto]
    refine Result.ite_onto rfl (Result.ite_onto rfl ?_)
    cases s.source b s.argN <;> rfl

/-! ### Two states with the same inputs -/

/-- R108: `s` and `s'` agree on what a command depends on. -/
def SameInputs (s s' : State) : Prop :=
  s'.cfg = s.cfg ∧ s'.latch = s.latch ∧ s'.mem = s.mem ∧ s'.wbits = s.wbits ∧ s'.rcur = s.rcur ∧
    s'.rlim = s.rlim ∧ s'.nleaf = s.nleaf ∧ s'.nnode = s.nnode ∧ s'.root = s.root ∧
    s'.status.treev = s.status.treev ∧ s'.status.codev = s.status.codev ∧ s'.status.lone = s.status.lone

/-- States with the same inputs start a command as one state on two host sides. -/
theorem SameInputs.begin_eq {s s' : State} (h : SameInputs s s') : begin s' = (begin s).onto (begin s') := by
  obtain ⟨hcfg, hlatch, hmem, hwbits, hrcur, hrlim, hnleaf, hnnode, hroot, htreev, hcodev, hlone⟩ := h
  simp only [State.onto, begin, ← hcfg, ← hlatch, ← hmem, ← hwbits, ← hrcur, ← hrlim, ← hnleaf, ← hnnode, ← hroot,
    ← htreev, ← hcodev, ← hlone]

theorem SameInputs.runOf_eq {s s' : State} (h : SameInputs s s') (i : Instr) :
    runOf i (begin s') = (runOf i (begin s)).onto (begin s') := by
  rw [h.begin_eq]
  exact runOf_onto i (begin s) (begin s')

/-- Both completions of a command in states with the same inputs, from the state its rule ends in. -/
theorem SameInputs.exec_next {i : Instr} {s s' t : State} (h : SameInputs s s') (hp : s.srstPend = false)
    (hp' : s'.srstPend = false) (he : exec i s = .next t) :
    ∃ u o, Frame (writesOf i) (partsOf i) (begin s) u ∧ t = { u with status := u.status.completed o } ∧
      exec i s' = .next { u.onto s' with status := (u.onto s').status.completed o } := by
  have hf := runOf_framed i (begin s)
  have hr' := h.runOf_eq i
  rw [exec_eq, commit_next_iff] at he
  rcases he with ⟨u, hr, rfl⟩ | ⟨e, u, hr, rfl⟩
  · rw [hr] at hf hr'
    exact ⟨u, none, hf, complete_eq _ u (hf.srstPend.trans hp), exec_of_done hr' hp'⟩
  · rw [hr] at hf hr'
    exact ⟨u, some e, hf, complete_eq _ u (hf.srstPend.trans hp), exec_of_raised hr' hp'⟩

/-- A command faults alike in states with the same inputs. -/
theorem SameInputs.exec_fault {i : Instr} {s s' : State} {f : Fault} (h : SameInputs s s')
    (he : exec i s = .fault f) : exec i s' = .fault f := by
  rw [exec_eq, commit_fault_iff] at he
  have hr' := h.runOf_eq i
  rw [he] at hr'
  exact exec_of_stuck hr'

/-- An access on the host's side leaves the inputs of the running command. -/
theorem HostSideOnly.sameInputs {s t : State} (h : HostSideOnly s t) : SameInputs s t := by
  obtain ⟨ht, -, htreev, hcodev, hlone⟩ := h
  refine ⟨?_, ?_, ?_, ?_, ?_, ?_, ?_, ?_, ?_, htreev, hcodev, hlone⟩ <;> rw [ht]

/-- Settles O13: the rules commute with a change of the host side, and an access while busy stays on it. -/
theorem outcomeDependsOnLatchAndStateAlone : Obligations.OutcomeDependsOnLatchAndStateAlone := by
  refine ⟨?_, ?_⟩
  · intro i s s' hp hp' hcfg hlatch hmem hwbits hrcur hrlim hnleaf hnnode hroot htreev hcodev hlone
    have h : SameInputs s s' :=
      ⟨hcfg, hlatch, hmem, hwbits, hrcur, hrlim, hnleaf, hnnode, hroot, htreev, hcodev, hlone⟩
    refine ⟨fun t he => ?_, fun f => h.exec_fault⟩
    obtain ⟨u, o, hf, rfl, he'⟩ := h.exec_next hp hp' he
    have hc : u.cfg = s'.cfg := hf.cfg.trans hcfg.symm
    have hl : u.latch = s'.latch := hf.latch.trans hlatch.symm
    rw [he', State.onto, hc, hl]
    rfl
  · rintro s s' a hb (rfl | ⟨v, rfl⟩)
    · exact (hostSideOnly_hostRead a s).sameInputs
    · exact (hostSideOnly_hostWrite a v hb).sameInputs

/-! ### Acceptance -/

/-- R100: a `CMD` write while idle, legal or not, is the acceptance of its word. -/
theorem hostWrite_cmd_idle {a : BitVec 24} {s : State} (hb : s.status.busy = false) (ha : a.toNat / 4 = 3)
    (v : Word) : hostWrite a v s = accept v s := by
  rw [hostWrite_register (r := .cmd) ha, State.regWrite, hb, if_neg Bool.false_ne_true]

/-- What a command leaves is on the host side it started from. -/
theorem Frame.onto_self {ws : List Window} {ps : List Part} {s u : State} (h : Frame ws ps s u) : u.onto s = u := by
  simp only [State.onto, ← h.ie, ← h.cmd, ← h.arg0, ← h.arg1, ← h.srstPend, ← h.rstLow, ← h.rdata, ← h.schedule,
    ← h.freeCount, ← h.busy, ← h.done, ← h.err, ← h.errcode, ← h.accv, ← h.ovr]

/-- R100: `ARG0` and `ARG1` as they stand when a command runs are kept and change nothing else. -/
theorem exec_with_args {i : Instr} {s t : State} (x y : Word) (hp : s.srstPend = false) (h : exec i s = .next t) :
    exec i { s with arg0 := x, arg1 := y } = .next { t with arg0 := x, arg1 := y } := by
  have hin : SameInputs s { s with arg0 := x, arg1 := y } :=
    ⟨rfl, rfl, rfl, rfl, rfl, rfl, rfl, rfl, rfl, rfl, rfl, rfl⟩
  obtain ⟨u, o, hf, rfl, he'⟩ := hin.exec_next hp hp h
  have hu : u.onto { s with arg0 := x, arg1 := y } = { u with arg0 := x, arg1 := y } :=
    congrArg (fun z : State => { z with arg0 := x, arg1 := y }) hf.onto_self
  rw [he', hu]

/-- Settles O7: acceptance by the write of `CMD`, the operands by the same inputs with and without them. -/
theorem acceptanceLatchesTheCommand : Obligations.AcceptanceLatchesTheCommand := by
  refine ⟨fun s a v hb ha => ?_, fun i s t x y hp h => exec_with_args x y hp h⟩
  rw [hostWrite_cmd_idle hb ha]
  exact ⟨rfl, by simp [State.irq, Status.accepted]⟩

end Sys2Proof.Machine
end

section
/-! SUPPORT. NOP: its word and its completion (spec/40_command_engine.md R103). -/

namespace Sys2Proof.Machine

/-- R103: NOP without a pending soft reset changes the results and the flags of its success alone. -/
theorem exec_nop {s : State} (hp : s.srstPend = false) :
    exec .nop s = .next { s with res0 := 0#32, res1 := 0#32, status := s.status.succeeded } :=
  exec_of_done (i := .nop) rfl hp

/-- R86, R91: the zero word alone is NOP, since a word that fits NOP's row has zero in every field. -/
theorem decode_eq_nop_iff (w : Word) : decode w = .ok .nop ↔ w = 0x00000000#32 := by
  constructor
  · intro h
    obtain ⟨-, hopc, hlow, hhigh, hs, hcnt⟩ := decode_eq_ok_iff.mp h
    refine word_eq_iff_fields.mpr ⟨hopc, hlow, hhigh, ?_, ?_⟩
    · exact Bool.eq_false_iff.mpr fun h => Bool.false_ne_true (hs h)
    · exact not_ne_iff.mp fun h => Bool.false_ne_true (hcnt h)
  · rintro rfl
    decide

/-- R24: `STATUS` after a success reads `DONE` alone where no other flag is set. -/
theorem Status.word_succeeded {t : Status} (htreev : t.treev = false) (hcodev : t.codev = false)
    (hlone : t.lone = false) (haccv : t.accv = false) (hovr : t.ovr = false) :
    t.succeeded.word = 0x00000002#32 := by
  simp only [Status.word, Status.succeeded, htreev, hcodev, hlone, haccv, hovr]
  decide

/-- Settles O23: the word by its fields, the rest by the state NOP leaves. -/
theorem nopCompletes : Obligations.NopCompletes := by
  refine ⟨decode_eq_nop_iff, fun s hp => ⟨exec_nop hp, fun t h => ?_⟩⟩
  rw [exec_nop hp] at h
  cases h
  exact ⟨Bool.and_true _, fun htreev hcodev hlone haccv hovr =>
    Status.word_succeeded htreev hcodev hlone haccv hovr⟩

end Sys2Proof.Machine
end

section
/-! SUPPORT. The bit-stream unit: what several calls of `PutBit` and `GetBit` come to, and what each command of the
unit leaves (spec/41_bitstream.md R120–R126). -/

namespace Sys2Proof.Machine

/-! ### Words and the numbers they hold -/

@[simp] theorem wordOf_toNat (v : Word) : wordOf v.toNat = v := by simp [wordOf]

theorem toNat_wordOf {n : Nat} (h : n < 2 ^ 32) : (wordOf n).toNat = n :=
  (BitVec.toNat_ofNat n 32).trans (Nat.mod_eq_of_lt h)

/-- R6: the bound on `BITCAP` that keeps every stream position below `2^32`. -/
theorem bitcap_le_of_legal {c : Config} (h : c.legal) : c.bitcap ≤ 2 ^ 20 := by
  obtain ⟨-, -, -, hle, -⟩ := h
  exact hle

/-! ### The writer set and rounded: BW_INIT, BW_FLUSH -/

/-- Settles O24: BW_INIT finishes at once, with the writer at 0. -/
theorem bwInitRewindsTheWriter : Obligations.BwInitRewindsTheWriter :=
  ⟨by decide, fun _ hp => exec_of_done (i := .bwInit) rfl hp⟩

/-- R124: the pad bits reach the next byte boundary. -/
theorem add_padOf (p : Nat) : p + padOf p = 8 * ((p + 7) / 8) := by
  unfold padOf
  omega

/-- R124: BW_FLUSH without a pending soft reset. -/
theorem exec_bwFlush {s : State} (hp : s.srstPend = false) :
    exec .bwFlush s = .next
      { s with
        wbits := wordOf (s.wbits.toNat + padOf s.wbits.toNat)
        res0 := wordOf ((s.wbits.toNat + padOf s.wbits.toNat) / 8)
        res1 := wordOf (padOf s.wbits.toNat)
        status := s.status.succeeded } :=
  exec_of_done (i := .bwFlush) rfl hp

/-- Settles O26: the pad reaches the boundary, and every value it computes fits a word. -/
theorem bwFlushRoundsUpToAByte : Obligations.BwFlushRoundsUpToAByte := by
  refine ⟨by decide, fun s hp hc hw => ⟨_, exec_bwFlush hp, rfl, ?_⟩⟩
  have hcap := bitcap_le_of_legal hc
  have hpad := add_padOf s.wbits.toNat
  dsimp only
  rw [toNat_wordOf (by omega), toNat_wordOf (by omega), toNat_wordOf (by omega)]
  omega

/-! ### Bits appended: BW_PUT -/

/-- R63: a byte stored into `BITS` is what its eight stream bits read; every other stream bit reads as before. -/
theorem streamAt_storeBytes_singleton (s : State) (o q : Nat) (b : Byte) :
    (s.storeBytes .bits o [b]).streamAt q = if q / 8 = o then some (b.getLsbD (7 - q % 8)) else s.streamAt q := by
  unfold State.streamAt
  rw [State.byteAt_storeBytes]
  by_cases h : q / 8 = o
  · simp [h]
  · rw [if_neg (by simp; omega), if_neg h]

/-- R120: ORing stream bit `p` into its byte changes that bit alone. -/
theorem getLsbD_or_streamMask (b : Byte) (v : Bool) {p q : Nat} (h : q / 8 = p / 8) :
    (b ||| streamMask v p).getLsbD (7 - q % 8) = ((decide (q = p) && v) || b.getLsbD (7 - q % 8)) := by
  have hmask : (streamMask v p).getLsbD (7 - q % 8) = (decide (q = p) && v) := by
    rw [streamMask, BitVec.getLsbD_shiftLeft, BitVec.getLsbD_setWidth, BitVec.getLsbD_ofBool]
    by_cases hq : q = p
    · simp [hq, show 7 - p % 8 < 8 by omega]
    · have hoff : 7 - q % 8 < 7 - p % 8 ∨ 7 - q % 8 - (7 - p % 8) ≠ 0 := by omega
      rcases hoff with h | h <;> simp [h, hq]
  rw [BitVec.getLsbD_or, hmask, Bool.or_comm]

/-- R120: nothing appended, nothing changed. -/
theorem bitsAppended_nil (s : State) : BitsAppended s [] s := by
  simp [BitsAppended]

/-- Bit `q` of a stream that holds `xs` from position `p` on and 0 elsewhere. -/
def bitFrom (xs : List Bool) (p q : Nat) : Bool := decide (p ≤ q) && xs.getD (q - p) false

theorem bitFrom_eq_false {xs : List Bool} {p q : Nat} (h : q < p ∨ p + xs.length ≤ q) : bitFrom xs p q = false := by
  rcases h with h | h
  · rw [bitFrom, decide_eq_false h.not_ge, Bool.false_and]
  · rw [bitFrom, List.getD_eq_default _ _ (by omega), Bool.and_false]

theorem bitFrom_append (xs ys : List Bool) (p q : Nat) :
    bitFrom (xs ++ ys) p q = (bitFrom xs p q || bitFrom ys (p + xs.length) q) := by
  rcases lt_or_ge q (p + xs.length) with h | h
  · rw [bitFrom_eq_false (xs := ys) (.inl h), Bool.or_false, bitFrom, bitFrom]
    by_cases hp : p ≤ q
    · rw [List.getD_append _ _ _ _ (by omega)]
    · simp [hp]
  · rw [bitFrom_eq_false (xs := xs) (.inr h), Bool.false_or, bitFrom, bitFrom,
      List.getD_append_right _ _ _ _ (by omega), decide_eq_true h, decide_eq_true (by omega : p ≤ q), Nat.sub_sub]

theorem bitFrom_singleton (v : Bool) (p q : Nat) : bitFrom [v] p q = (decide (q = p) && v) := by
  by_cases h : q = p
  · simp [bitFrom, h]
  · rw [bitFrom_eq_false (by simp; omega), decide_eq_false h, Bool.false_and]

/-- Two lists of bits appended one after the other are their concatenation appended: in a byte both reach, the second
finds the first as the partial byte. -/
theorem BitsAppended.append {s t u : State} {xs ys : List Bool} (h : BitsAppended s xs t) (k : BitsAppended t ys u)
    (hlt : s.wbits.toNat + xs.length < 2 ^ 32) : BitsAppended s (xs ++ ys) u := by
  obtain ⟨hw, hs⟩ := h
  obtain ⟨kw, ks⟩ := k
  have hp : t.wbits.toNat = s.wbits.toNat + xs.length := by rw [hw]; exact toNat_wordOf hlt
  rw [hp] at kw ks
  refine ⟨by rw [kw, List.length_append, Nat.add_assoc], fun q => ?_⟩
  rw [ks q, hs q, List.length_append, ← bitFrom, ← bitFrom, ← bitFrom, bitFrom_append]
  generalize s.wbits.toNat = p
  by_cases hx : 0 < xs.length ∧ p / 8 ≤ q / 8 ∧ 8 * (q / 8) < p + xs.length
  · by_cases hy : 0 < ys.length ∧ (p + xs.length) / 8 ≤ q / 8 ∧ 8 * (q / 8) < p + xs.length + ys.length
    · have hpart : (p + xs.length) % 8 ≠ 0 ∧ q / 8 = (p + xs.length) / 8 := by omega
      rw [if_pos hy, if_pos hx, if_pos (by omega), decide_eq_true hpart]
      simp [Bool.or_assoc, Bool.or_left_comm]
    · rw [if_neg hy, if_pos hx, if_pos (by omega), bitFrom_eq_false (xs := ys) (by omega), Bool.or_false]
  · by_cases hy : 0 < ys.length ∧ (p + xs.length) / 8 ≤ q / 8 ∧ 8 * (q / 8) < p + xs.length + ys.length
    · have hpart : ((p + xs.length) % 8 ≠ 0 ∧ q / 8 = (p + xs.length) / 8) ↔ (p % 8 ≠ 0 ∧ q / 8 = p / 8) := by
        omega
      simp only [hpart]
      rw [if_pos hy, if_neg hx, if_pos (by omega), bitFrom_eq_false (xs := xs) (by omega), Bool.false_or]
    · rw [if_neg hy, if_neg hx, if_neg (by omega)]

/-- The byte the writer is in the middle of stays written. -/
theorem BitsAppended.partialByteWritten {s t : State} {xs : List Bool} (h : BitsAppended s xs t)
    (hlt : s.wbits.toNat + xs.length < 2 ^ 32) (hs : s.partialByteWritten) : t.partialByteWritten := by
  obtain ⟨hw, hq⟩ := h
  have hp : t.wbits.toNat = s.wbits.toNat + xs.length := by rw [hw]; exact toNat_wordOf hlt
  intro hmod
  rw [hp] at hmod ⊢
  have hbit : (t.streamAt (s.wbits.toNat + xs.length)).isSome := by
    rw [hq]
    split
    · rfl
    · obtain rfl : xs = [] := List.length_eq_zero_iff.mp (by omega)
      simpa [State.streamAt] using hs hmod
  simpa [State.streamAt] using hbit

/-- R120: `PutBit` appends its bit. -/
theorem putBit_appends (v : Bool) {s : State} (hs : s.partialByteWritten) :
    ∃ t, putBit v s = .done () t ∧ BitsAppended s [v] t := by
  rcases putBit_cases v s with ⟨b, hput, hb⟩ | ⟨hmod, hnone, -⟩
  · refine ⟨_, hput, rfl, fun q => ?_⟩
    show (s.storeBytes .bits (s.wbits.toNat / 8) [b]).streamAt q = _
    rw [streamAt_storeBytes_singleton]
    by_cases h : q / 8 = s.wbits.toNat / 8
    · rw [if_pos h, if_pos ⟨by simp, by omega, by simp; omega⟩, ← bitFrom, bitFrom_singleton]
      rcases hb with ⟨hmod, rfl⟩ | ⟨hmod, b0, hb0, rfl⟩
      · rw [getLsbD_or_streamMask _ _ h]
        simp [hmod]
      · rw [getLsbD_or_streamMask _ _ h]
        simp [hmod, h, hb0, State.streamAt]
    · rw [if_neg h, if_neg (by simp; omega)]
  · exact absurd (hs hmod) (by simp [hnone])

/-- R120: `PutBit` of several bits appends them. -/
theorem putBits_appends (vs : List Bool) {s : State} (hs : s.partialByteWritten)
    (hlt : s.wbits.toNat + vs.length < 2 ^ 32) : ∃ t, putBits vs s = .done () t ∧ BitsAppended s vs t := by
  induction vs generalizing s with
  | nil => exact ⟨s, rfl, bitsAppended_nil s⟩
  | cons v vs ih =>
    rw [List.length_cons] at hlt
    obtain ⟨t, ht, hv⟩ := putBit_appends v hs
    have hp : t.wbits.toNat = s.wbits.toNat + 1 := by rw [hv.1]; exact toNat_wordOf (by simp; omega)
    obtain ⟨u, hu, hvs⟩ := ih (hv.partialByteWritten (by simp; omega) hs) (by omega)
    exact ⟨u, by rw [putBits, ht]; exact hu, hv.append hvs (by simp; omega)⟩

/-- R123: the bits BW_PUT hands to `PutBit`. -/
theorem lowBits_eq_lowBitList (v : Word) (cnt : Nat) : lowBits v cnt = lowBitList v cnt := by
  induction cnt with
  | zero => rfl
  | succ cnt ih =>
    rw [lowBits, ih, lowBitList, lowBitList, List.range_succ_eq_map, List.map_cons, List.map_map]
    congr 1
    refine List.map_congr_left fun j _ => ?_
    simp only [Function.comp]
    congr 1
    omega

@[simp] theorem length_lowBitList (v : Word) (cnt : Nat) : (lowBitList v cnt).length = cnt := by simp [lowBitList]

/-- What moves the writer alone changes `WBITS`, the results and the memories alone. -/
theorem Frame.eq_of_writer {ws : List Window} {s u : State} (h : Frame ws [.writer] s u) :
    u = { s with wbits := u.wbits, res0 := u.res0, res1 := u.res1, mem := u.mem } := by
  calc u = u.onto s := h.onto_self.symm
    _ = _ := by
      simp only [State.onto, h.cfg, h.latch, h.rcur (by decide), h.rlim (by decide), h.nleaf (by decide),
        h.nnode (by decide), h.root (by decide), h.treev (by decide), h.codev (by decide), h.lone (by decide)]

/-- R123: BW_PUT whose bits all fit. -/
theorem exec_bwPut {s u : State} {cnt : Nat} (hp : s.srstPend = false)
    (hfit : s.wbits.toNat + cnt ≤ 8 * s.cfg.bitcap)
    (h : putBits (lowBits s.latch.a0 cnt) (begin s) = .done () u) :
    exec (.bwPut cnt) s = .next
      { s with wbits := u.wbits, res0 := u.wbits, res1 := 0#32, status := s.status.succeeded, mem := u.mem } := by
  have hf : Frame [.bits] [.writer] (begin s) u := by
    have hf := putBits_framed (lowBits s.latch.a0 cnt) (begin s)
    rwa [h] at hf
  have hrun : runOf (.bwPut cnt) (begin s) = .done () (u.setRes u.wbits.toNat 0) := by
    simp only [runOf, runBwPut, begin_cfg, begin_wbits, begin_latch, if_neg hfit.not_gt, h]
  rw [exec_of_done hrun hp, State.setRes, wordOf_toNat, hf.eq_of_writer]
  rfl

/-- R123: BW_PUT whose bits do not all fit writes nothing. -/
theorem exec_bwPut_overflow {s : State} {cnt : Nat} (hp : s.srstPend = false)
    (h : 8 * s.cfg.bitcap < s.wbits.toNat + cnt) :
    exec (.bwPut cnt) s = .next { s with res0 := s.wbits, res1 := 0#32, status := s.status.failed 6#4 } := by
  have hrun : runOf (.bwPut cnt) (begin s) = .raised .bufferOverflow ((begin s).setRes s.wbits.toNat 0) := if_pos h
  rw [exec_of_raised hrun hp, State.setRes, wordOf_toNat]
  rfl

/-- Settles O25: the bits by `PutBit` one after the other, or the check before the first of them. -/
theorem bwPutAppendsItsBits : Obligations.BwPutAppendsItsBits := by
  intro s cnt hp hc h1 h32
  refine ⟨encode_of_s_eq_false (i := .bwPut cnt) rfl (show cnt - 1 < 32 by omega), fun hfit hs => ?_,
    fun h => exec_bwPut_overflow hp h⟩
  have hcap := bitcap_le_of_legal hc
  obtain ⟨u, hu, hbits⟩ := putBits_appends (s := begin s) (lowBitList s.latch.a0 cnt) hs
    (by rw [length_lowBitList, begin_wbits]; omega)
  rw [← lowBits_eq_lowBitList] at hu
  have he := exec_bwPut hp hfit hu
  obtain ⟨-, -, -, -, hsame⟩ := exec_next he
  exact ⟨_, he, rfl, hbits, hsame⟩

/-! ### The reader set: BR_INIT -/

/-- R125: BR_INIT with operands in range. -/
theorem exec_brInit {s : State} (hp : s.srstPend = false) (hlen : s.argP ≤ s.cfg.bitcap)
    (hstart : s.argN ≤ 8 * s.argP) :
    exec .brInit s = .next
      { s with
        rcur := s.latch.a0
        rlim := wordOf (8 * s.argP)
        res0 := wordOf (8 * s.argP - s.argN)
        res1 := 0#32
        status := s.status.succeeded } := by
  have hrun : runOf .brInit (begin s) = .done ()
      ({ begin s with rcur := wordOf s.argN, rlim := wordOf (8 * s.argP) }.setRes (8 * s.argP - s.argN) 0) :=
    (if_neg hlen.not_gt).trans (if_neg hstart.not_gt)
  rw [exec_of_done hrun hp, State.argN, wordOf_toNat]
  rfl

/-- R125: BR_INIT with an operand out of range reports `BAD_ARG` and leaves the reader. -/
theorem exec_brInit_badArg {s : State} (hp : s.srstPend = false)
    (h : s.cfg.bitcap < s.argP ∨ 8 * s.argP < s.argN) :
    exec .brInit s = .next { s with res0 := 0#32, res1 := 0#32, status := s.status.failed 2#4 } := by
  have hrun : runOf .brInit (begin s) = .raised .badArg (begin s) := by
    by_cases hlen : s.cfg.bitcap < s.argP
    · exact if_pos hlen
    · exact (if_neg hlen).trans (if_pos (h.resolve_left hlen))
  exact exec_of_raised hrun hp

/-- Settles O27: the two checks split the operands; in range, `8 · len` fits a word. -/
theorem brInitSetsTheReader : Obligations.BrInitSetsTheReader := by
  refine ⟨by decide, fun s hp hc => ⟨fun hlen hstart => ⟨_, exec_brInit hp hlen hstart, rfl, ?_⟩,
    fun h => exec_brInit_badArg hp h⟩⟩
  have hcap := bitcap_le_of_legal hc
  have hlim : (wordOf (8 * s.argP)).toNat = 8 * s.argP := toNat_wordOf (by unfold State.argP; omega)
  refine ⟨hlim, ?_⟩
  dsimp only
  rw [hlim, toNat_wordOf (by unfold State.argP; omega), State.argN]

/-! ### Bits read: BR_GET -/

/-- R121: `GetBit` before the end, over a written bit. -/
theorem getBit_done {s : State} {b : Bool} (hlim : s.rcur.toNat < s.rlim.toNat)
    (hb : s.streamAt s.rcur.toNat = some b) : getBit s = .done b (s.setRcur (s.rcur.toNat + 1)) := by
  rcases getBit_cases s with ⟨-, c, hc, h⟩ | ⟨hle, -⟩ | ⟨-, hn, -⟩
  · rwa [← Option.some.inj (hc.symm.trans hb)]
  · omega
  · exact absurd (hn.symm.trans hb) nofun

/-- R126: `cnt` calls of `GetBit` over written bits before the end move the cursor past them and gather them, the first
one highest, below the bits gathered before. -/
theorem getBits_done {cnt : Nat} (v : Nat) {s : State} (hlim : s.rcur.toNat + cnt ≤ s.rlim.toNat)
    (hw : ∀ j, j < cnt → (s.streamAt (s.rcur.toNat + j)).isSome) :
    ∃ n, getBits cnt v s = .done n (s.setRcur (s.rcur.toNat + cnt)) ∧
      ∀ j, n.testBit j =
        if j < cnt then (s.streamAt (s.rcur.toNat + (cnt - 1 - j))).getD false else v.testBit (j - cnt) := by
  induction cnt generalizing v s with
  | zero => exact ⟨v, by simp [getBits, State.setRcur], by simp⟩
  | succ cnt ih =>
    obtain ⟨b, hb⟩ : ∃ b, s.streamAt s.rcur.toNat = some b := Option.isSome_iff_exists.mp (hw 0 (by omega))
    have hcur : (s.setRcur (s.rcur.toNat + 1)).rcur.toNat = s.rcur.toNat + 1 := toNat_wordOf (by omega)
    obtain ⟨n, hn, hbits⟩ := ih (2 * v + b.toNat) (s := s.setRcur (s.rcur.toNat + 1))
      (by rw [hcur, State.setRcur_rlim]; omega)
      (fun j hj => by rw [hcur, Nat.add_right_comm]; exact hw (j + 1) (by omega))
    rw [hcur] at hn hbits
    refine ⟨n, ?_, fun j => ?_⟩
    · rw [getBits, getBit_done (by omega) hb]
      exact hn.trans (by rw [Nat.add_right_comm]; rfl)
    · rw [hbits j, ← Nat.bit_val]
      rcases lt_trichotomy j cnt with hj | rfl | hj
      · rw [if_pos hj, if_pos (by omega),
          show s.rcur.toNat + (cnt + 1 - 1 - j) = s.rcur.toNat + 1 + (cnt - 1 - j) by omega]
        rfl
      · simp [hb]
      · obtain ⟨k, rfl⟩ := Nat.exists_eq_add_of_lt hj
        rw [if_neg (by omega), if_neg (by omega), show cnt + k + 1 - cnt = k + 1 by omega, Nat.testBit_bit_succ]
        congr 1
        omega

/-- R126: BR_GET with enough written bits before the end. -/
theorem exec_brGet {s : State} {cnt n : Nat} (hp : s.srstPend = false) (hlim : s.rcur.toNat + cnt ≤ s.rlim.toNat)
    (h : getBits cnt 0 (begin s) = .done n ((begin s).setRcur (s.rcur.toNat + cnt))) :
    exec (.brGet cnt) s = .next
      { s with
        rcur := wordOf (s.rcur.toNat + cnt)
        res0 := wordOf n
        res1 := wordOf (s.rcur.toNat + cnt)
        status := s.status.succeeded } := by
  have hcur : (wordOf (s.rcur.toNat + cnt)).toNat = s.rcur.toNat + cnt := toNat_wordOf (by omega)
  have hrun : runOf (.brGet cnt) (begin s) = .done ()
      (((begin s).setRcur (s.rcur.toNat + cnt)).setRes n (s.rcur.toNat + cnt)) := by
    simp only [runOf, runBrGet, begin_rlim, begin_rcur, if_neg hlim.not_gt, h, State.setRcur_rcur, hcur]
  exact exec_of_done hrun hp

/-- Settles O28: the bits gathered by `GetBit`, or the check before the first of them. -/
theorem brGetReturnsTheNextBits : Obligations.BrGetReturnsTheNextBits := by
  intro s cnt hp h1 h32
  refine ⟨encode_of_s_eq_false (i := .brGet cnt) rfl (show cnt - 1 < 32 by omega), fun hlim hw => ?_,
    fun hlim => exec_of_raised (i := .brGet cnt) (if_pos hlim) hp⟩
  obtain ⟨n, hn, hbits⟩ := getBits_done (s := begin s) 0 hlim hw
  refine ⟨_, exec_brGet hp hlim hn, rfl, toNat_wordOf (by omega), fun j => ?_⟩
  show (BitVec.ofNat 32 n).getLsbD j = _
  rw [BitVec.getLsbD_ofNat, hbits j]
  by_cases hj : j < cnt
  · rw [if_pos hj, decide_eq_true hj, decide_eq_true (by omega : j < 32)]
    rfl
  · simp [hj]

end Sys2Proof.Machine
end

section
/-! SUPPORT. The recency list and the two rank-list transforms: what a move to the front makes of the list, and the one
relation of bytes to ranks that MTF_FWD and MTF_INV compute in opposite directions (spec/42_rankmap.md R140, R142,
R143, R146). -/

namespace Sys2Proof.Machine

/-! ### The recency list -/

theorem recencyList_nil : recencyList [] = identityOrder := by
  simp [recencyList, identityOrder]

theorem nodup_identityOrder : identityOrder.Nodup := by
  refine List.nodup_range.map_on fun i hi j hj h => ?_
  rw [List.mem_range] at hi hj
  simpa [Nat.mod_eq_of_lt, hi, hj] using congrArg BitVec.toNat h

/-- R140: every byte value is in the recency list. -/
theorem mem_recencyList (xs : List Byte) (c : Byte) : c ∈ recencyList xs := by
  by_cases h : c ∈ xs
  · simp [recencyList, h]
  · have hc : c ∈ identityOrder := List.mem_map.mpr ⟨c.toNat, List.mem_range.mpr c.isLt, by simp⟩
    exact List.mem_append_right _ (List.mem_filter.mpr ⟨hc, by simpa using h⟩)

/-- R140: no byte value is in it twice. -/
theorem nodup_recencyList (xs : List Byte) : (recencyList xs).Nodup := by
  refine List.Nodup.append (List.nodup_reverse.mpr xs.nodup_dedup) (nodup_identityOrder.filter _) fun c hc hc' => ?_
  have hmem : c ∈ xs := by simpa using hc
  have hnot : c ∉ xs := by simpa using (List.mem_filter.mp hc').2
  exact hnot hmem

@[simp] theorem length_recencyList (xs : List Byte) : (recencyList xs).length = 256 := by
  have hperm : (recencyList xs).Perm (recencyList []) :=
    (List.perm_ext_iff_of_nodup (nodup_recencyList xs) (nodup_recencyList [])).mpr fun c =>
      iff_of_true (mem_recencyList xs c) (mem_recencyList [] c)
  rw [hperm.length_eq, recencyList_nil, identityOrder, List.length_map, List.length_range]

/-- The distinct bytes of a sequence, when one more byte comes to it: that byte moves to the end. -/
theorem dedup_append_singleton (xs : List Byte) (c : Byte) :
    (xs ++ [c]).dedup = xs.dedup.filter (· != c) ++ [c] := by
  induction xs with
  | nil => simp
  | cons x xs ih =>
    by_cases hx : x ∈ xs
    · rw [List.cons_append, List.dedup_cons_of_mem (List.mem_append_left _ hx), ih, List.dedup_cons_of_mem hx]
    · rw [List.dedup_cons_of_notMem hx]
      by_cases hc : x = c
      · subst hc
        simp [List.dedup_cons_of_mem, ih]
      · rw [List.cons_append, List.dedup_cons_of_notMem (by simp [hx, hc]), ih]
        simp [hc]

/-- R140: the recency list of a sequence and one more byte has that byte first and the others in their order. -/
theorem recencyList_append_singleton (xs : List Byte) (c : Byte) :
    recencyList (xs ++ [c]) = c :: (recencyList xs).erase c := by
  have hrest : identityOrder.filter (· ∉ xs ++ [c]) = (identityOrder.filter (· ∉ xs)).filter (· != c) := by
    rw [List.filter_filter]
    exact List.filter_congr fun b _ => by rw [Bool.eq_iff_iff]; simp [and_comm]
  rw [(nodup_recencyList xs).erase_eq_filter, recencyList, recencyList, dedup_append_singleton, ← identityOrder, hrest]
  simp

/-- R140: moving the entry of rank `r` to the front is what the byte there, coming next, does to the list. -/
theorem moveToFront_recencyList {xs : List Byte} {r : Nat} {c : Byte} (h : (recencyList xs)[r]? = some c) :
    moveToFront (recencyList xs) r = recencyList (xs ++ [c]) := by
  obtain ⟨hr, hc⟩ := List.getElem?_eq_some_iff.mp h
  have hidx : (recencyList xs).idxOf c = r := hc ▸ (nodup_recencyList xs).idxOf_getElem r hr
  rw [moveToFront, List.getD_eq_getElem?_getD, h, Option.getD_some, recencyList_append_singleton, ← hidx,
    List.eraseIdx_idxOf_eq_erase]

/-- R142: the rank of a byte is where it stands. -/
theorem getElem?_rankIn_recencyList (xs : List Byte) (c : Byte) :
    (recencyList xs)[rankIn (recencyList xs) c]? = some c :=
  List.getElem?_idxOf (mem_recencyList xs c)

/-- R142: a rank fits a byte. -/
theorem toNat_rankIn_recencyList (xs : List Byte) (c : Byte) :
    (BitVec.ofNat 8 (rankIn (recencyList xs) c)).toNat = rankIn (recencyList xs) c := by
  have h : rankIn (recencyList xs) c < (recencyList xs).length := List.idxOf_lt_length_of_mem (mem_recencyList xs c)
  rw [length_recencyList] at h
  exact (BitVec.toNat_ofNat _ _).trans (Nat.mod_eq_of_lt h)

/-! ### Bytes and their ranks -/

/-- After the bytes `pre`, the bytes `xs` have the ranks `rs`: each rank is where its byte stands in the recency list
of the bytes before it. -/
inductive RankedAs : List Byte → List Byte → List Byte → Prop where
  | nil (pre : List Byte) : RankedAs pre [] []
  | cons {pre cs rs : List Byte} {c r : Byte} (hc : (recencyList pre)[r.toNat]? = some c)
      (hcs : RankedAs (pre ++ [c]) cs rs) : RankedAs pre (c :: cs) (r :: rs)

theorem RankedAs.length_eq {pre xs rs : List Byte} (h : RankedAs pre xs rs) : rs.length = xs.length := by
  induction h with
  | nil => rfl
  | cons _ _ ih => rw [List.length_cons, List.length_cons, ih]

/-- The relation position by position. -/
theorem RankedAs.getElem? {pre xs rs : List Byte} (h : RankedAs pre xs rs) {i : Nat} (hi : i < xs.length) :
    (recencyList (pre ++ xs.take i))[(rs.getD i 0#8).toNat]? = xs[i]? := by
  induction h generalizing i with
  | nil => exact absurd hi (Nat.not_lt_zero i)
  | cons hc _ ih =>
    cases i with
    | zero => simpa using hc
    | succ i =>
      have hstep := ih (Nat.lt_of_succ_lt_succ hi)
      rwa [List.append_assoc] at hstep

/-- R142: MTF_FWD's loop finds the ranks of the bytes. -/
theorem mtfForward_recencyList (pre xs : List Byte) :
    RankedAs pre xs (mtfForward (recencyList pre) xs).1 ∧
      (mtfForward (recencyList pre) xs).2 = recencyList (pre ++ xs) := by
  induction xs generalizing pre with
  | nil => exact ⟨.nil pre, by simp [mtfForward]⟩
  | cons c cs ih =>
    have hc := getElem?_rankIn_recencyList pre c
    obtain ⟨hranks, hlist⟩ := ih (pre ++ [c])
    simp only [mtfForward, moveToFront_recencyList hc]
    refine ⟨.cons ?_ hranks, by simp [hlist]⟩
    rw [toNat_rankIn_recencyList, hc]

/-- R143, R146: MTF_INV's loop gives back the bytes of the ranks and leaves their recency list. -/
theorem RankedAs.mtfInverse_eq {pre xs rs : List Byte} (h : RankedAs pre xs rs) :
    mtfInverse (recencyList pre) rs = (xs, recencyList (pre ++ xs)) := by
  induction h with
  | nil pre => simp [mtfInverse]
  | cons hc _ ih => simp [mtfInverse, moveToFront_recencyList hc, ih, List.getD_eq_getElem?_getD, hc]

/-- R143: every byte value is a valid rank, so any input is the ranks of some bytes. -/
theorem exists_rankedAs (pre rs : List Byte) : ∃ xs, RankedAs pre xs rs := by
  induction rs generalizing pre with
  | nil => exact ⟨[], .nil pre⟩
  | cons r rs ih =>
    have hr : r.toNat < (recencyList pre).length := by rw [length_recencyList]; exact r.isLt
    obtain ⟨cs, hcs⟩ := ih (pre ++ [(recencyList pre)[r.toNat]])
    exact ⟨_ :: cs, .cons (List.getElem?_eq_getElem hr) hcs⟩

/-! ### The two commands -/

theorem overwritten_storeBytes (s : State) (w : Window) (bs : List Byte) : Overwritten w bs s (s.storeBytes w 0 bs) := by
  intro o
  simp [State.byteAt_storeBytes]

theorem Overwritten.holds {w : Window} {bs : List Byte} {s t : State} (h : Overwritten w bs s t) : t.holds w 0 bs := by
  intro i hi
  rw [Nat.zero_add, h i, if_pos hi]

@[simp] theorem otherBuf_otherBuf (b : Buf) : otherBuf (otherBuf b) = b := by cases b <;> rfl

theorem rlist_ne_bufWindow (b : Buf) : Window.rlist ≠ bufWindow b := by cases b <;> decide

/-- What a rank-list command whose loop answers `out` leaves: `out`'s bytes in the destination, its list in `RLIST`. -/
def RankListDone (b : Buf) (out : List Byte × List Byte) (s t : State) : Prop :=
  t = { s with res0 := s.latch.a0, res1 := 0#32, status := s.status.succeeded, mem := t.mem } ∧
    Overwritten (bufWindow (otherBuf b)) out.1 s t ∧ Overwritten .rlist out.2 s t ∧
    SameBut [bufWindow (otherBuf b), .rlist] s t

/-- R142, R143: a rank-list command whose source is written and fits. -/
theorem exec_rankList {i : Instr} {f : List Byte → List Byte → List Byte × List Byte} {b : Buf} {s : State}
    {xs : List Byte} (hi : runOf i = runRankList f b) (hw : writesOf i = [bufWindow (otherBuf b), .rlist])
    (hp : s.srstPend = false) (hn : s.latch.a0.toNat = xs.length) (hcap : xs.length ≤ s.cfg.nbuf)
    (hx : s.holds (bufWindow b) 0 xs) : ∃ t, exec i s = .next t ∧ RankListDone b (f identityOrder xs) s t := by
  have hsrc : (begin s).source b s.latch.a0.toNat = some xs := source_eq_some.mpr ⟨hn.symm, hx⟩
  have hrun : runOf i (begin s) = .done ()
      ((((begin s).storeBytes (bufWindow (otherBuf b)) 0 (f identityOrder xs).1).storeBytes .rlist 0
        (f identityOrder xs).2).setRes s.latch.a0.toNat 0) := by
    rw [hi, runRankList]
    simp only [State.argN, begin_latch, begin_cfg, hsrc]
    exact if_neg (by omega)
  have he := exec_of_done hrun hp
  obtain ⟨-, -, -, -, hsame⟩ := exec_next he
  refine ⟨_, he, by rw [State.setRes, wordOf_toNat]; rfl, fun o => ?_, fun o => ?_, hw ▸ hsame⟩
  · exact (State.byteAt_storeBytes_ne _ 0 o _ (rlist_ne_bufWindow _).symm).trans
      (overwritten_storeBytes (begin s) _ (f identityOrder xs).1 o)
  · refine (overwritten_storeBytes _ .rlist (f identityOrder xs).2 o).trans ?_
    rw [State.byteAt_storeBytes_ne _ 0 o _ (rlist_ne_bufWindow _)]
    rfl

/-- R142, R143: a rank-list command whose length exceeds `NBUF`. -/
theorem exec_rankList_badArg {i : Instr} {f : List Byte → List Byte → List Byte × List Byte} {b : Buf} {s : State}
    (hi : runOf i = runRankList f b) (hp : s.srstPend = false) (hcap : s.cfg.nbuf < s.latch.a0.toNat) :
    exec i s = .next { s with res0 := 0#32, res1 := 0#32, status := s.status.failed 2#4 } := by
  have hrun : runOf i (begin s) = .raised .badArg (begin s) := by rw [hi]; exact if_pos hcap
  exact exec_of_raised hrun hp

/-- Settles O31: the ranks and the list of MTF_FWD's loop, started from the empty sequence's recency list. -/
theorem mtfFwdEmitsRanks : Obligations.MtfFwdEmitsRanks := by
  refine ⟨by decide, by decide, fun s b hp => ⟨fun xs hn hcap hx => ?_, exec_rankList_badArg (i := .mtfFwd b) rfl hp⟩⟩
  obtain ⟨t, he, hregs, hout, hlist, hsame⟩ := exec_rankList (i := .mtfFwd b) rfl rfl hp hn hcap hx
  obtain ⟨hranks, hrlist⟩ := mtfForward_recencyList [] xs
  rw [← recencyList_nil] at hout hlist
  rw [hrlist] at hlist
  exact ⟨t, _, he, hregs, hranks.length_eq, fun i hi => hranks.getElem? hi, hout, hlist, hsame⟩

/-- Settles O32: the ranks are those of some bytes, which MTF_INV's loop gives back. -/
theorem mtfInvEmitsBytes : Obligations.MtfInvEmitsBytes := by
  refine ⟨by decide, by decide, fun s b hp => ⟨fun rs hn hcap hx => ?_, exec_rankList_badArg (i := .mtfInv b) rfl hp⟩⟩
  obtain ⟨t, he, hregs, hout, hlist, hsame⟩ := exec_rankList (i := .mtfInv b) rfl rfl hp hn hcap hx
  obtain ⟨xs, hranks⟩ := exists_rankedAs [] rs
  rw [← recencyList_nil, hranks.mtfInverse_eq] at hout hlist
  exact ⟨t, xs, he, hregs, hranks.length_eq.symm, fun i hi => (hranks.getElem? (hranks.length_eq ▸ hi)).symm, hout,
    hlist, hsame⟩

/-- Settles O33: the ranks MTF_FWD leaves in the other buffer are the bytes', so MTF_INV gives the bytes back. -/
theorem rankListTransformInverts : Obligations.RankListTransformInverts := by
  intro s b xs n hp hn hcap hx
  obtain ⟨t, he, hregs, hout, hlist, -⟩ :=
    exec_rankList (i := .mtfFwd b) (s := issued (.mtfFwd b) n 0#32 s) rfl rfl hp hn hcap hx
  obtain ⟨hranks, hrlist⟩ := mtfForward_recencyList [] xs
  rw [← recencyList_nil] at hout hlist
  rw [hrlist] at hlist
  refine ⟨t, he, fun t' ht' hsame => ?_⟩
  have hregs' : t'.srstPend = false ∧ t'.cfg = s.cfg := by rw [ht', hregs]; exact ⟨hp, rfl⟩
  obtain ⟨hp', hcfg⟩ := hregs'
  have hx' : t'.holds (bufWindow (otherBuf b)) 0 (mtfForward (recencyList []) xs).1 := fun i hi => by
    rw [hsame _ (by simpa using (bufWindow_ne_otherBuf b).symm)]
    exact hout.holds i hi
  obtain ⟨u, hu, huregs, huout, hulist, -⟩ :=
    exec_rankList (i := .mtfInv (otherBuf b)) (s := issued (.mtfInv (otherBuf b)) n 0#32 t') rfl rfl hp'
      (hn.trans hranks.length_eq.symm) (by rw [hranks.length_eq]; exact hcfg ▸ hcap) hx'
  rw [← recencyList_nil, hranks.mtfInverse_eq] at huout hulist
  rw [otherBuf_otherBuf] at huout
  refine ⟨u, hu, by rw [huregs]; rfl, huout.holds, fun o => ?_⟩
  have hkept : t'.byteAt .rlist o = t.byteAt .rlist o := hsame _ (by simpa using rlist_ne_bufWindow b) o
  rw [hulist o, hlist o]
  split
  · rfl
  · exact hkept.trans ((hlist o).trans (if_neg ‹_›))

end Sys2Proof.Machine
end

section
/-! SUPPORT. BWT_INV: its two tables as counts of the source, the walk over them as steps of `LF`, and what the command
leaves (spec/42_rankmap.md R141, R145). -/

namespace Sys2Proof.Machine

/-! ### Counts of a sequence -/

/-- The bytes below `k + 1` are those below `k` and those equal to it. -/
theorem countP_toNat_lt_succ (xs : List Byte) {k : Nat} (hk : k < 256) :
    xs.countP (fun x => x.toNat < k + 1) = xs.countP (fun x => x.toNat < k) + xs.count (BitVec.ofNat 8 k) := by
  have heq : ∀ x : Byte, x = BitVec.ofNat 8 k ↔ x.toNat = k := fun x => by
    rw [← BitVec.toNat_inj, BitVec.toNat_ofNat, Nat.mod_eq_of_lt hk]
  induction xs with
  | nil => rfl
  | cons x xs ih =>
    simp only [List.countP_cons, List.count_cons, ih, beq_iff_eq, heq, decide_eq_true_eq]
    split_ifs <;> omega

/-- The bytes below `c`, by their numbers. -/
theorem countP_lt_eq (xs : List Byte) (c : Byte) :
    xs.countP (fun x => x < c) = xs.countP (fun x => x.toNat < c.toNat) := rfl

/-- R145: `LF` of a position lies in the sequence: the bytes it counts are not the one at that position. -/
theorem lfOf_lt {xs : List Byte} {i : Nat} (hi : i < xs.length) : lfOf xs i < xs.length := by
  have hc : xs.getD i 0#8 = xs[i] := List.getD_eq_getElem _ _ hi
  have hbefore : (xs.take i).count xs[i] < xs.count xs[i] := by
    have hle := (List.take_sublist (i + 1) xs).count_le xs[i]
    rw [List.take_add_one, List.getElem?_eq_getElem hi, Option.toList_some, List.count_append] at hle
    simpa using hle
  have hsum := countP_toNat_lt_succ xs xs[i].isLt
  rw [BitVec.ofNat_toNat, BitVec.setWidth_eq] at hsum
  have hlen := xs.countP_le_length (p := fun x => decide (x.toNat < xs[i].toNat + 1))
  rw [lfOf, hc, countP_lt_eq]
  omega

/-! ### The tables -/

/-- R141: a count raised by one, read at any byte. -/
theorem getD_set_succ {cnt : List Nat} (h : cnt.length = 256) (c d : Byte) :
    (cnt.set c.toNat (cnt.getD c.toNat 0 + 1)).getD d.toNat 0 = cnt.getD d.toNat 0 + [c].count d := by
  have hc : c.toNat < cnt.length := by rw [h]; exact c.isLt
  by_cases hd : c = d
  · subst hd
    simp [List.getD_eq_getElem?_getD, hc]
  · have hne : c.toNat ≠ d.toNat := fun he => hd (BitVec.eq_of_toNat_eq he)
    simp [List.getD_eq_getElem?_getD, List.getElem?_set_ne hne, hd]

/-- R141, first loop: the final counts. -/
theorem rankPass_counts (xs : List Byte) {cnt : List Nat} (h : cnt.length = 256) :
    (rankPass cnt xs).2.length = 256 ∧
      ∀ c : Byte, (rankPass cnt xs).2.getD c.toNat 0 = cnt.getD c.toNat 0 + xs.count c := by
  induction xs generalizing cnt with
  | nil => exact ⟨h, fun c => rfl⟩
  | cons x xs ih =>
    obtain ⟨hlen, hcount⟩ := ih (cnt := cnt.set x.toNat (cnt.getD x.toNat 0 + 1)) (by simpa using h)
    refine ⟨hlen, fun c => ?_⟩
    rw [← List.singleton_append, List.count_append, ← Nat.add_assoc, ← getD_set_succ h]
    exact hcount c

theorem length_rankPass (cnt : List Nat) (xs : List Byte) : (rankPass cnt xs).1.length = xs.length := by
  induction xs generalizing cnt with
  | nil => rfl
  | cons x xs ih => simp [rankPass, ih]

/-- R141, first loop: the rank of a position, above the count its byte starts from. -/
theorem rankPass_getElem? {xs : List Byte} {cnt : List Nat} (h : cnt.length = 256) {i : Nat} (hi : i < xs.length) :
    (rankPass cnt xs).1[i]? =
      some (cnt.getD (xs.getD i 0#8).toNat 0 + (xs.take i).count (xs.getD i 0#8)) := by
  induction xs generalizing cnt i with
  | nil => exact absurd hi (Nat.not_lt_zero i)
  | cons x xs ih =>
    cases i with
    | zero => simp [rankPass]
    | succ i =>
      have hstep := ih (cnt := cnt.set x.toNat (cnt.getD x.toNat 0 + 1)) (by simpa using h)
        (Nat.lt_of_succ_lt_succ hi)
      rw [getD_set_succ h, Nat.add_assoc, ← List.count_append] at hstep
      exact hstep

/-- R141, second loop: the sum of the counts before. -/
theorem firstPass_getElem? {cnt : List Nat} (acc : Nat) {i : Nat} (hi : i < cnt.length) :
    (firstPass acc cnt)[i]? = some (acc + (cnt.take i).sum) := by
  induction cnt generalizing acc i with
  | nil => exact absurd hi (Nat.not_lt_zero i)
  | cons k cnt ih =>
    cases i with
    | zero => simp [firstPass]
    | succ i => simp [firstPass, ih _ (Nat.lt_of_succ_lt_succ hi), Nat.add_assoc]

theorem length_firstPass (acc : Nat) (cnt : List Nat) : (firstPass acc cnt).length = cnt.length := by
  induction cnt generalizing acc with
  | nil => rfl
  | cons k cnt ih => simp [firstPass, ih]

/-- The first `k` counts of a sequence's bytes add up to the number of bytes below `k`. -/
theorem sum_take_counts {xs : List Byte} {cnt : List Nat} (hlen : cnt.length = 256)
    (hcount : ∀ c : Byte, cnt.getD c.toNat 0 = xs.count c) {k : Nat} (hk : k ≤ 256) :
    (cnt.take k).sum = xs.countP (fun x => x.toNat < k) := by
  induction k with
  | zero => simp
  | succ k ih =>
    have hc := hcount (BitVec.ofNat 8 k)
    rw [BitVec.toNat_ofNat, Nat.mod_eq_of_lt (by omega : k < 2 ^ 8), List.getD_eq_getElem _ _ (by omega)] at hc
    rw [List.sum_take_succ _ _ (by omega), ih (by omega), hc, countP_toNat_lt_succ xs (by omega)]

@[simp] theorem length_rankTable (xs : List Byte) : (rankTable xs).length = xs.length := length_rankPass _ _

theorem length_zeroCounts : zeroCounts.length = 256 := List.length_replicate

theorem getD_zeroCounts (i : Nat) : zeroCounts.getD i 0 = 0 := by
  simp only [zeroCounts, List.getD_eq_getElem?_getD, List.getElem?_replicate]
  split <;> rfl

@[simp] theorem length_firstTable (xs : List Byte) : (firstTable xs).length = 256 :=
  (length_firstPass _ _).trans (rankPass_counts xs length_zeroCounts).1

/-- 00_scope.md section 7, `rankOf`: the number of equal bytes before. -/
theorem rankTable_getElem? {xs : List Byte} {i : Nat} (hi : i < xs.length) :
    (rankTable xs)[i]? = some ((xs.take i).count (xs.getD i 0#8)) := by
  rw [rankTable, rankPass_getElem? length_zeroCounts hi, getD_zeroCounts, Nat.zero_add]

/-- 00_scope.md section 7, `firstOccurrence`: the number of smaller bytes. -/
theorem firstTable_getElem? (xs : List Byte) (c : Byte) :
    (firstTable xs)[c.toNat]? = some (xs.countP (fun x => x < c)) := by
  obtain ⟨hlen, hcount⟩ := rankPass_counts xs length_zeroCounts
  have hcount' : ∀ d : Byte, (rankPass zeroCounts xs).2.getD d.toNat 0 = xs.count d := fun d => by
    rw [hcount, getD_zeroCounts, Nat.zero_add]
  rw [firstTable, firstPass_getElem? 0 (hlen.symm ▸ c.isLt), Nat.zero_add, sum_take_counts hlen hcount' c.isLt.le,
    countP_lt_eq]

/-! ### The walk -/

/-- R141: the map of the tables is `LF` by the glossary's counts. -/
theorem lfMap_eq_lfOf {xs : List Byte} {i : Nat} (hi : i < xs.length) :
    lfMap xs (firstTable xs) (rankTable xs) i = lfOf xs i := by
  simp only [lfMap, lfOf, List.getD_eq_getElem?_getD (l := firstTable xs), firstTable_getElem?,
    List.getD_eq_getElem?_getD (l := rankTable xs), rankTable_getElem? hi, Option.getD_some]

/-- R141: a walk that starts in the sequence stays in it, and goes by `LF`. -/
theorem lfMap_iterate {xs : List Byte} {p : Nat} (hp : p < xs.length) (k : Nat) :
    (lfMap xs (firstTable xs) (rankTable xs))^[k] p = (lfOf xs)^[k] p ∧ (lfOf xs)^[k] p < xs.length := by
  induction k with
  | zero => exact ⟨rfl, hp⟩
  | succ k ih =>
    obtain ⟨heq, hlt⟩ := ih
    rw [Function.iterate_succ_apply', Function.iterate_succ_apply', heq, lfMap_eq_lfOf hlt]
    exact ⟨rfl, lfOf_lt hlt⟩

/-- R141, third loop: the bytes at the indices the walk meets, the last one met first. -/
theorem bwtWalk_eq (src : List Byte) (first rank : List Nat) (steps idx : Nat) (out : List Byte) :
    bwtWalk src first rank steps idx out =
      (((List.iterate (lfMap src first rank) idx steps).map (src.getD · 0#8)).reverse ++ out,
        (lfMap src first rank)^[steps] idx) := by
  induction steps generalizing idx out with
  | zero => rfl
  | succ steps ih => simp [bwtWalk, ih, List.iterate]

theorem length_bwtWalk (src : List Byte) (first rank : List Nat) (steps idx : Nat) :
    (bwtWalk src first rank steps idx []).1.length = steps := by
  simp [bwtWalk_eq]

/-- R141: output byte `j` is the byte met after `steps − 1 − j` steps. -/
theorem bwtWalk_getElem? {xs : List Byte} {p steps j : Nat} (hp : p < xs.length) (hj : j < steps) :
    (bwtWalk xs (firstTable xs) (rankTable xs) steps p []).1[j]? = xs[(lfOf xs)^[steps - 1 - j] p]? := by
  obtain ⟨heq, hlt⟩ := lfMap_iterate hp (steps - 1 - j)
  rw [bwtWalk_eq, List.append_nil, List.getElem?_reverse (by simpa using hj), List.length_map, List.length_iterate,
    List.getElem?_map, List.getElem?_iterate _ _ _ _ (by omega), heq, List.getElem?_eq_getElem hlt, Option.map_some,
    List.getD_eq_getElem _ _ hlt]

theorem bwtWalk_snd {xs : List Byte} {p : Nat} (hp : p < xs.length) (steps : Nat) :
    (bwtWalk xs (firstTable xs) (rankTable xs) steps p []).2 = (lfOf xs)^[steps] p := by
  rw [bwtWalk_eq]
  exact (lfMap_iterate hp steps).1

/-! ### The command -/

/-- The memories after BWT_INV: the tables in `RANK` and `FIRST`, the walk's output in the destination. -/
def State.storeWalk (s : State) (b : Buf) (xs : List Byte) : State :=
  ((s.storeWords .rank 0 ((rankTable xs).map wordOf)).storeWords .first 0 ((firstTable xs).map wordOf)).storeBytes
    (bufWindow (otherBuf b)) 0 (bwtWalk xs (firstTable xs) (rankTable xs) xs.length s.argP []).1

/-- The walk's stores change the memories alone. -/
theorem State.storeWalk_eq (s : State) (b : Buf) (xs : List Byte) :
    s.storeWalk b xs = { s with mem := (s.storeWalk b xs).mem } := rfl

theorem State.storeWalk_begin_mem (s : State) (b : Buf) (xs : List Byte) :
    ((begin s).storeWalk b xs).mem = (s.storeWalk b xs).mem := rfl

theorem rank_ne_bufWindow (b : Buf) : Window.rank ≠ bufWindow b := by cases b <;> decide
theorem first_ne_bufWindow (b : Buf) : Window.first ≠ bufWindow b := by cases b <;> decide

/-- A store of bytes leaves the words of every other memory alone. -/
theorem wordAt_storeBytes_ne (s : State) {w w' : Window} (o i : Nat) (bs : List Byte) (h : w' ≠ w) :
    (s.storeBytes w o bs).wordAt w' i = s.wordAt w' i :=
  wordAt_congr fun _ _ => State.byteAt_storeBytes_ne s o _ bs h

/-- R141: `dst[j]`, filled back to front. -/
theorem byteAt_storeWalk_dst (s : State) (b : Buf) {xs : List Byte} (hp : s.argP < xs.length) (j : Nat) :
    (s.storeWalk b xs).byteAt (bufWindow (otherBuf b)) j =
      if j < xs.length then xs[(lfOf xs)^[xs.length - 1 - j] s.argP]? else s.byteAt (bufWindow (otherBuf b)) j := by
  rw [State.storeWalk, overwritten_storeBytes _ _ _ j, length_bwtWalk]
  split
  next hj => exact bwtWalk_getElem? hp hj
  · simp [byteAt_storeWords, (rank_ne_bufWindow (otherBuf b)).symm, (first_ne_bufWindow (otherBuf b)).symm]

/-- R141: `RANK[i]`. -/
theorem wordAt_storeWalk_rank (s : State) (b : Buf) {xs : List Byte} {i : Nat} (hi : i < xs.length) :
    (s.storeWalk b xs).wordAt .rank i = some (wordOf ((xs.take i).count (xs.getD i 0#8))) := by
  rw [State.storeWalk, wordAt_storeBytes_ne _ _ _ _ (rank_ne_bufWindow _), wordAt_storeWords, if_neg (by simp),
    wordAt_storeWords, if_pos (by simpa using hi), Nat.sub_zero, List.getElem?_map, rankTable_getElem? hi,
    Option.map_some]

/-- R141: `RANK[n..]` is unchanged. -/
theorem byteAt_storeWalk_rank (s : State) (b : Buf) {xs : List Byte} {o : Nat} (ho : 4 * xs.length ≤ o) :
    (s.storeWalk b xs).byteAt .rank o = s.byteAt .rank o := by
  rw [State.storeWalk, State.byteAt_storeBytes_ne _ _ _ _ (rank_ne_bufWindow _), byteAt_storeWords, if_neg (by simp),
    byteAt_storeWords, if_neg (by simpa using ho)]

/-- R141: `FIRST[c]`. -/
theorem wordAt_storeWalk_first (s : State) (b : Buf) (xs : List Byte) (c : Byte) :
    (s.storeWalk b xs).wordAt .first c.toNat = some (wordOf (xs.countP fun x => x < c)) := by
  rw [State.storeWalk, wordAt_storeBytes_ne _ _ _ _ (first_ne_bufWindow _), wordAt_storeWords,
    if_pos (by simpa using c.isLt), Nat.sub_zero, List.getElem?_map, firstTable_getElem?, Option.map_some]

/-- R141: the rule of BWT_INV with a written source and a primary index inside it. -/
theorem runBwtInv_done {s : State} {b : Buf} {xs : List Byte} (hn : s.argN = xs.length)
    (hcap : xs.length ≤ s.cfg.nbuf) (hp : s.argP < xs.length) (hx : s.holds (bufWindow b) 0 xs) :
    runBwtInv b s = .done () ((s.storeWalk b xs).setRes (xs.length - 1) ((lfOf xs)^[xs.length] s.argP)) := by
  have hsrc : s.source b xs.length = some xs := source_eq_some.mpr ⟨rfl, hx⟩
  have harg : ¬ (xs.length = 0 ∨ s.cfg.nbuf < xs.length) := by omega
  simp only [runBwtInv, hn, if_neg harg, if_neg (not_le.mpr hp), hsrc, bwtWalk_snd hp]
  rfl

/-- R141: what BWT_INV with a written source and a primary index inside it leaves. -/
theorem exec_bwtInv {s : State} {b : Buf} {xs : List Byte} (hs : s.srstPend = false)
    (hn : s.argN = xs.length) (hcap : xs.length ≤ s.cfg.nbuf) (hp : s.argP < xs.length)
    (hx : s.holds (bufWindow b) 0 xs) :
    exec (.bwtInv b) s = .next
      { s with
        res0 := wordOf (xs.length - 1)
        res1 := wordOf ((lfOf xs)^[xs.length] s.argP)
        status := s.status.succeeded
        mem := (s.storeWalk b xs).mem } := by
  have hrun := runBwtInv_done (s := begin s) hn hcap hp hx
  rw [State.storeWalk_eq, State.storeWalk_begin_mem] at hrun
  exact exec_of_done (i := .bwtInv b) hrun hs

/-- R141: BWT_INV with no byte or more than `NBUF`. -/
theorem exec_bwtInv_badArg {s : State} {b : Buf} (hs : s.srstPend = false)
    (h : s.latch.a0.toNat = 0 ∨ s.cfg.nbuf < s.latch.a0.toNat) :
    exec (.bwtInv b) s = .next { s with res0 := 0#32, res1 := 0#32, status := s.status.failed 2#4 } := by
  have hrun : runOf (.bwtInv b) (begin s) = .raised .badArg (begin s) := if_pos h
  exact exec_of_raised hrun hs

/-- R141: BWT_INV with a primary index outside the sequence. -/
theorem exec_bwtInv_malformed {s : State} {b : Buf} (hs : s.srstPend = false) (hn : 0 < s.latch.a0.toNat)
    (hcap : s.latch.a0.toNat ≤ s.cfg.nbuf) (hp : s.latch.a0.toNat ≤ s.latch.a1.toNat) :
    exec (.bwtInv b) s = .next { s with res0 := 0#32, res1 := 0#32, status := s.status.failed 4#4 } := by
  have hrun : runOf (.bwtInv b) (begin s) = .raised .malformedHeader (begin s) :=
    (if_neg (not_or.mpr ⟨hn.ne', hcap.not_gt⟩)).trans (if_pos hp)
  exact exec_of_raised hrun hs

/-- Settles O34: the tables and the walk by what BWT_INV stores, the errors by its two checks; both results fit a word,
since the length does and the walk stays below it. -/
theorem bwtInvWalksTheRankMap : Obligations.BwtInvWalksTheRankMap := by
  refine ⟨by decide, by decide, fun s b hs => ⟨fun xs hn _ hcap hp hx => ?_, exec_bwtInv_badArg hs,
    exec_bwtInv_malformed hs⟩⟩
  have he := exec_bwtInv hs hn hcap hp hx
  obtain ⟨-, -, -, -, hsame⟩ := exec_next he
  have hlen : xs.length < 2 ^ 32 := hn ▸ s.latch.a0.isLt
  have hend := (lfMap_iterate hp xs.length).2
  exact ⟨_, he, rfl, toNat_wordOf (by omega), toNat_wordOf (hend.trans hlen), byteAt_storeWalk_dst s b hp,
    fun i hi => wordAt_storeWalk_rank s b hi, fun o ho => byteAt_storeWalk_rank s b ho,
    wordAt_storeWalk_first s b xs, hsame⟩

end Sys2Proof.Machine
end

section
/-! SUPPORT. FREQ_COUNT: the 256 counts, the number of distinct symbols, and what the command leaves
(spec/43_huffman.md R160). -/

namespace Sys2Proof.Machine

/-! ### The counts -/

@[simp] theorem length_frequencies (xs : List Byte) : (frequencies xs).length = 256 := by simp [frequencies]

/-- R160: the count of a symbol. -/
theorem frequencies_getElem? (xs : List Byte) (c : Byte) : (frequencies xs)[c.toNat]? = some (xs.count c) := by
  simp [frequencies, List.getElem?_range c.isLt]

theorem mem_identityOrder (c : Byte) : c ∈ identityOrder := by
  rw [← recencyList_nil]
  exact mem_recencyList [] c

/-- R160: the symbols with a non-zero count are the distinct symbols of the sequence. -/
theorem distinct_frequencies (xs : List Byte) : distinct (frequencies xs) = xs.dedup.length := by
  have hcount : distinct (frequencies xs) = identityOrder.countP (· ∈ xs) := by
    rw [distinct, frequencies, identityOrder, List.countP_map, List.countP_map]
    exact List.countP_congr fun c _ => by simp [List.count_pos_iff]
  have hperm : (identityOrder.filter (· ∈ xs)).Perm xs.dedup :=
    (List.perm_ext_iff_of_nodup (nodup_identityOrder.filter _) xs.nodup_dedup).mpr fun c => by
      simp [mem_identityOrder c]
  rw [hcount, List.countP_eq_length_filter, hperm.length_eq]

/-! ### The command -/

/-- R160: FREQ_COUNT of a source that is written and fits. -/
theorem exec_freqCount {s : State} {b : Buf} {xs : List Byte} (hp : s.srstPend = false)
    (hn : s.latch.a0.toNat = xs.length) (hcap : xs.length ≤ s.cfg.nbuf) (hx : s.holds (bufWindow b) 0 xs) :
    exec (.freqCount b) s = .next
      { s with
        res0 := s.latch.a0
        res1 := wordOf xs.dedup.length
        status := s.status.succeeded
        mem := (s.storeWords .freq 0 ((frequencies xs).map wordOf)).mem } := by
  have hsrc : (begin s).source b s.latch.a0.toNat = some xs := source_eq_some.mpr ⟨hn.symm, hx⟩
  have hrun : runOf (.freqCount b) (begin s) = .done ()
      (((begin s).storeWords .freq 0 ((frequencies xs).map wordOf)).setRes s.latch.a0.toNat xs.dedup.length) := by
    rw [runOf, runFreqCount]
    simp only [State.argN, begin_latch, begin_cfg, hsrc, distinct_frequencies]
    exact if_neg (by omega)
  rw [exec_of_done hrun hp, State.setRes, wordOf_toNat]
  rfl

/-- R160: FREQ_COUNT of more symbols than a buffer holds. -/
theorem exec_freqCount_badArg {s : State} {b : Buf} (hp : s.srstPend = false)
    (h : s.cfg.nbuf < s.latch.a0.toNat) :
    exec (.freqCount b) s = .next { s with res0 := 0#32, res1 := 0#32, status := s.status.failed 2#4 } :=
  exec_of_raised (i := .freqCount b) (if_pos h) hp

/-- Settles O37: the counts by what FREQ_COUNT stores, the distinct symbols as those with a non-zero count. -/
theorem freqCountCountsTheSymbols : Obligations.FreqCountCountsTheSymbols := by
  refine ⟨by decide, by decide, fun s b hp => ⟨fun xs hn hcap hx => ?_, exec_freqCount_badArg hp⟩⟩
  have he := exec_freqCount hp hn hcap hx
  obtain ⟨-, -, -, -, hsame⟩ := exec_next he
  have hlen : xs.dedup.length < 2 ^ 32 := (List.dedup_sublist xs).length_le.trans_lt (hn ▸ s.latch.a0.isLt)
  refine ⟨_, he, rfl, toNat_wordOf hlen, fun c => ?_, hsame⟩
  show (s.storeWords .freq 0 ((frequencies xs).map wordOf)).wordAt .freq c.toNat = _
  rw [wordAt_storeWords, if_pos (by simpa using c.isLt), Nat.sub_zero, List.getElem?_map, frequencies_getElem?]
  rfl

end Sys2Proof.Machine
end

section
/-! SUPPORT. What `TREE` and `CODE` hold, read back: the slots of the nodes stored there and the bits of the codes
(spec/10_state.md R43, R44). -/

namespace Sys2Proof.Machine

/-! ### Blocks of words -/

/-- Item `j` of block `i` of a list of blocks of `n` items. -/
theorem flatMap_getElem?_block {α β : Type} {f : α → List β} {n : Nat} (hf : ∀ a, (f a).length = n) (l : List α)
    (i : Nat) {j : Nat} (hj : j < n) : (l.flatMap f)[n * i + j]? = l[i]?.bind fun a => (f a)[j]? := by
  induction l generalizing i with
  | nil => simp
  | cons a l ih =>
    rw [List.flatMap_cons]
    cases i with
    | zero => rw [List.getElem?_append_left (by rw [hf]; omega)]; simp
    | succ i =>
      rw [List.getElem?_append_right (by rw [hf, Nat.mul_succ]; omega), hf,
        show n * (i + 1) + j - n = n * i + j by rw [Nat.mul_succ]; omega, ih]
      simp

theorem length_flatMap_block {α β : Type} {f : α → List β} {n : Nat} (hf : ∀ a, (f a).length = n) (l : List α) :
    (l.flatMap f).length = n * l.length := by
  simp [List.length_flatMap, hf, Nat.mul_comm]

/-! ### Slots -/

/-- R43: the fields of a node fit a slot. -/
def Node.Fits : Node → Prop
  | .leaf _ f => f < 2 ^ 40
  | .internal k l r f => k < 2 ^ 9 ∧ l < 2 ^ 9 ∧ r < 2 ^ 9 ∧ f < 2 ^ 40

/-- R43: the two frequency words hold the frequency. -/
theorem freqWords_toNat {f : Nat} (h : f < 2 ^ 40) :
    (BitVec.ofNat 32 f).toNat + 2 ^ 32 * (((BitVec.ofNat 8 (f / 2 ^ 32)).setWidth 32).extractLsb' 0 8).toNat = f := by
  simp only [BitVec.extractLsb'_toNat, BitVec.toNat_setWidth, BitVec.toNat_ofNat, Nat.shiftRight_zero]
  omega

/-- R43: a slot gives back the node stored in it. -/
theorem unpackNode_packNode {nd : Node} {w0 w1 w2 w3 : Word} (hf : nd.Fits) (h : packNode nd = [w0, w1, w2, w3]) :
    unpackNode w0 w1 w2 w3 = nd := by
  cases nd with
  | leaf c f =>
    simp only [packNode, freqWords, List.cons.injEq] at h
    obtain ⟨rfl, rfl, rfl, rfl, -⟩ := h
    have htag : (0#24 ++ c).getLsbD 31 = false := by simp only [BitVec.getLsbD_append]; simp
    have hsym : (0#24 ++ c).extractLsb' 0 8 = c := BitVec.extractLsb'_append_eq_right
    rw [unpackNode, htag, hsym, freqWords_toNat hf]
    rfl
  | internal k l r f =>
    simp only [packNode, freqWords, List.cons.injEq] at h
    obtain ⟨rfl, rfl, rfl, rfl, -⟩ := h
    obtain ⟨hk, hl, hr, hf⟩ := hf
    have htag : (1#1 ++ 0#22 ++ BitVec.ofNat 9 k).getLsbD 31 = true := by simp only [BitVec.getLsbD_append]; simp
    have hkey : (1#1 ++ 0#22 ++ BitVec.ofNat 9 k).extractLsb' 0 9 = BitVec.ofNat 9 k :=
      BitVec.extractLsb'_append_eq_right
    have hleft : (0#7 ++ BitVec.ofNat 9 r ++ 0#7 ++ BitVec.ofNat 9 l).extractLsb' 0 9 = BitVec.ofNat 9 l :=
      BitVec.extractLsb'_append_eq_right
    have hright : (0#7 ++ BitVec.ofNat 9 r ++ 0#7 ++ BitVec.ofNat 9 l).extractLsb' 16 9 = BitVec.ofNat 9 r := by
      ext j hj
      simp only [BitVec.getElem_extractLsb', BitVec.getLsbD_append]
      simp [show ¬ 16 + j < 9 by omega, show ¬ 16 + j - 9 < 7 by omega, show 16 + j - 9 - 7 = j by omega, hj]
    rw [unpackNode, htag, hkey, hleft, hright, freqWords_toNat hf, BitVec.toNat_ofNat, BitVec.toNat_ofNat,
      BitVec.toNat_ofNat, Nat.mod_eq_of_lt hk, Nat.mod_eq_of_lt hl, Nat.mod_eq_of_lt hr]
    rfl

/-- R43: a slot whose four words are a node's holds that node. -/
theorem slotAt_of_holdsWords {s : State} {i : Nat} {nd : Node} (hf : nd.Fits)
    (h : s.holdsWords .tree (4 * i) (packNode nd)) : s.slotAt i = some nd := by
  have hws : s.wordsAt .tree (4 * i) 4 = some (packNode nd) :=
    wordsAt_eq_some.mpr ⟨packNode_length nd, fun j hj => h j (by rwa [packNode_length])⟩
  obtain ⟨w0, w1, w2, w3, hw⟩ : ∃ w0 w1 w2 w3, packNode nd = [w0, w1, w2, w3] := by
    cases nd <;> exact ⟨_, _, _, _, rfl⟩
  rw [State.slotAt, hws, hw]
  exact congrArg some (unpackNode_packNode hf hw)

/-- A slot is read from `TREE` alone. -/
theorem slotAt_congr {s t : State} (h : ∀ o, t.byteAt .tree o = s.byteAt .tree o) (i : Nat) :
    t.slotAt i = s.slotAt i := by
  have hword : ∀ j, t.wordAt .tree j = s.wordAt .tree j := fun j => wordAt_congr fun k _ => h _
  simp only [State.slotAt, State.wordsAt, hword]

/-- What leaves `TREE` alone leaves the tree stored there. -/
theorem treeStored_congr {s t : State} {nodes : List Node} (h : TreeStored s nodes)
    (hb : ∀ o, t.byteAt .tree o = s.byteAt .tree o) : TreeStored t nodes :=
  fun i hi => (slotAt_congr hb i).trans (h i hi)

/-- R161: slot `i` of the words HUF_BUILD stores holds node `i`. -/
theorem treeWords_getElem?_node {nodes : List Node} {i j : Nat} {nd : Node} (h : nodes[i]? = some nd) (hj : j < 4) :
    (treeWords nodes)[4 * i + j]? = (packNode nd)[j]? := by
  obtain ⟨hi, -⟩ := List.getElem?_eq_some_iff.mp h
  rw [treeWords, List.getElem?_append_left (by rw [length_flatMap_block packNode_length]; omega),
    flatMap_getElem?_block packNode_length _ _ hj, h, Option.bind_some]

/-- R161: the words after the nodes are zero. -/
theorem treeWords_getElem?_zero {nodes : List Node} {j : Nat} (hlo : 4 * nodes.length ≤ j) (hhi : j < 2048) :
    (treeWords nodes)[j]? = some 0#32 := by
  have hzero : (List.replicate (512 - nodes.length) emptySlot).flatten =
      List.replicate ((512 - nodes.length) * 4) 0#32 :=
    List.flatten_replicate_replicate (m := 4)
  rw [treeWords, List.getElem?_append_right (by rw [length_flatMap_block packNode_length]; omega),
    length_flatMap_block packNode_length, hzero, List.getElem?_replicate, if_pos (by omega)]

/-! ### Code entries -/

/-- R162: entry `c` of the words HUF_CODES stores holds the code of `c`. -/
theorem codeIs_of_codeWords {s : State} {codes : List (Byte × List Bool)}
    (h : s.holdsWords .code 0 (codeWords codes)) (c : Byte) : s.codeIs c (codeIn codes c) := by
  intro j hj
  rw [packCode_length] at hj
  have hc := c.isLt
  have hword := h (16 * c.toNat + j) (by rw [codeWords_length]; omega)
  rw [Nat.zero_add] at hword
  rw [hword, codeWords, flatMap_getElem?_block (fun _ => packCode_length _) _ _ hj, List.getElem?_range hc,
    Option.bind_some, BitVec.ofNat_toNat, BitVec.setWidth_eq]

/-- R44: gathered bits, the first one highest. -/
theorem testBit_foldl_bits (f : Nat → Bool) (n i : Nat) :
    ((List.range n).foldl (fun v j => 2 * v + (f j).toNat) 0).testBit i = (decide (i < n) && f (n - 1 - i)) := by
  induction n generalizing i with
  | zero => simp
  | succ n ih =>
    rw [List.range_succ, List.foldl_append, List.foldl_cons, List.foldl_nil, ← Nat.bit_val]
    cases i with
    | zero => simp
    | succ i =>
      rw [Nat.testBit_bit_succ, ih]
      congr 2
      · simp
      · omega

/-- R44: code bit `j` in its word. -/
theorem getLsbD_codeWord (bits : List Bool) (j : Nat) :
    (codeWord bits (j / 32)).getLsbD (31 - j % 32) = bits.getD j false := by
  rw [codeWord, BitVec.getLsbD_ofNat, testBit_foldl_bits fun j' => bits.getD (32 * (j / 32) + j') false]
  have hlt : 31 - j % 32 < 32 := by omega
  simp only [hlt, decide_true, Bool.true_and]
  congr 1
  omega

/-- R44: the length of a code that stands in `CODE`. -/
theorem codeLen_of_codeIs {s : State} {c : Byte} {bits : List Bool} (h : s.codeIs c bits) (hlen : bits.length ≤ 255) :
    s.codeLen c = some bits.length := by
  have hword := h 0 (by simp)
  rw [Nat.add_zero] at hword
  rw [State.codeLen, hword]
  simp only [packCode, List.cons_append, List.getElem?_cons_zero, Option.map_some, BitVec.extractLsb'_toNat,
    BitVec.toNat_setWidth, BitVec.toNat_ofNat, Nat.shiftRight_zero]
  congr 1
  omega

/-- R44: bit `j` of a code that stands in `CODE`. -/
theorem codeBit_of_codeIs {s : State} {c : Byte} {bits : List Bool} (h : s.codeIs c bits) {j : Nat} (hj : j < 256) :
    s.codeBit c j = some (bits.getD j false) := by
  have hk : j / 32 < 8 := by omega
  have hword := h (1 + j / 32) (by rw [packCode_length]; omega)
  have hentry : (packCode bits)[1 + j / 32]? = some (codeWord bits (j / 32)) := by
    rw [packCode, List.cons_append, Nat.add_comm, List.getElem?_cons_succ,
      List.getElem?_append_left (by simpa using hk)]
    simp [List.getElem?_range hk]
  rw [State.codeBit, Nat.add_assoc, hword, hentry, Option.map_some, getLsbD_codeWord]

/-- R44: the bits of a code that stands in `CODE`, from bit `j` on. -/
theorem codeBits_of_codeIs {s : State} {c : Byte} {bits : List Bool} (h : s.codeIs c bits) (hlen : bits.length ≤ 255)
    {n j : Nat} (hn : j + n = bits.length) : s.codeBits c j n = some (bits.drop j) := by
  induction n generalizing j with
  | zero => simp [State.codeBits, List.drop_eq_nil_of_le (by omega : bits.length ≤ j)]
  | succ n ih =>
    rw [State.codeBits, codeBit_of_codeIs h (by omega), ih (by omega),
      List.drop_eq_getElem_cons (by omega : j < bits.length), List.getD_eq_getElem _ _ (by omega)]

/-- A code is read from `CODE` alone. -/
theorem codeIs_congr {s t : State} {c : Byte} {bits : List Bool} (h : s.codeIs c bits)
    (hb : ∀ o, t.byteAt .code o = s.byteAt .code o) : t.codeIs c bits :=
  fun j hj => (wordAt_congr fun _ _ => hb _).trans (h j hj)

end Sys2Proof.Machine
end

section
/-! SUPPORT. The merge loop of HUF_BUILD: what one merge takes from the pool, the rule by which a fact is kept through
all merges, and that the nodes it makes are the tree of the merge rule (spec/43_huffman.md R161). -/

namespace Sys2Proof.Machine

/-! ### The leaves -/

/-- The leaf of symbol `c` of a frequency table. -/
def leafOf (fs : List Nat) (c : Nat) : Node := .leaf (BitVec.ofNat 8 c) (fs.getD c 0)

theorem leavesFrom_eq_map (fs : List Nat) (c : Nat) :
    leavesFrom c fs =
      ((List.range fs.length).filter fun i => 0 < fs.getD i 0).map fun i =>
        .leaf (BitVec.ofNat 8 (c + i)) (fs.getD i 0) := by
  induction fs generalizing c with
  | nil => rfl
  | cons f fs ih =>
    rw [leavesFrom, ih, List.length_cons, List.range_succ_eq_map, List.filter_cons, List.filter_map]
    by_cases hf : 0 < f <;> simp [hf, Function.comp_def, Nat.add_assoc, Nat.add_comm 1]

/-- R161: one leaf for each symbol with a non-zero count, in ascending symbol order. -/
theorem leavesFrom_zero {fs : List Nat} (h : fs.length = 256) :
    leavesFrom 0 fs = (codedSymbols fs).map (leafOf fs) := by
  rw [leavesFrom_eq_map, h, codedSymbols]
  simp only [Nat.zero_add]
  rfl

theorem length_leavesFrom_zero {fs : List Nat} (h : fs.length = 256) :
    (leavesFrom 0 fs).length = (codedSymbols fs).length := by
  rw [leavesFrom_zero h, List.length_map]

theorem length_codedSymbols_le (fs : List Nat) : (codedSymbols fs).length ≤ 256 :=
  (List.length_filter_le _ _).trans_eq List.length_range

theorem lt_of_mem_codedSymbols {fs : List Nat} {c : Nat} (h : c ∈ codedSymbols fs) : c < 256 :=
  List.mem_range.mp (List.mem_of_mem_filter h)

theorem slotsFrom_eq (i : Nat) (l : List Node) : slotsFrom i l = (l.zipIdx i).map Prod.swap := by
  induction l generalizing i with
  | nil => rfl
  | cons x l ih => simp [slotsFrom, ih]

/-- The slots of a list of nodes, in order. -/
theorem map_fst_slotsFrom (i : Nat) (l : List Node) : (slotsFrom i l).map Prod.fst = List.range' i l.length := by
  rw [slotsFrom_eq, List.map_map]
  exact List.zipIdx_map_snd i l

theorem map_snd_slotsFrom (i : Nat) (l : List Node) : (slotsFrom i l).map Prod.snd = l := by
  rw [slotsFrom_eq, List.map_map]
  exact List.zipIdx_map_fst i l

theorem mem_slotsFrom_zero {l : List Node} {x : Nat × Node} : x ∈ slotsFrom 0 l ↔ l[x.1]? = some x.2 := by
  rw [slotsFrom_eq, List.mem_map]
  constructor
  · rintro ⟨y, hy, rfl⟩
    exact List.mem_zipIdx_iff_getElem?.mp hy
  · exact fun h => ⟨x.swap, List.mem_zipIdx_iff_getElem?.mpr h, Prod.swap_swap x⟩

/-! ### The order of extraction -/

/-- R161: what the order of extraction compares. -/
def Node.rank (a : Node) : Nat ×ₗ Nat := toLex (a.freq, a.key)

theorem before_iff {a b : Node} : a.before b = true ↔ a.rank < b.rank := by
  simp [Node.before, Node.rank, Prod.Lex.toLex_lt_toLex]

theorem comesBefore_iff {a b : Node} : ComesBefore a b ↔ a.rank < b.rank := by
  simp [ComesBefore, Node.rank, Prod.Lex.toLex_lt_toLex]

/-- Nodes with different keys have different ranks. -/
theorem rank_ne_of_key_ne {a b : Node} (h : a.key ≠ b.key) : a.rank ≠ b.rank := by
  simp [Node.rank, h]

/-- No node comes before the least one. -/
theorem leastOf_le {x : Nat × Node} {ys : List (Nat × Node)} {y : Nat × Node} (hy : y ∈ x :: ys) :
    (leastOf x ys).2.rank ≤ y.2.rank := by
  induction ys generalizing x y with
  | nil => rw [List.mem_singleton.mp hy, leastOf]
  | cons z zs ih =>
    rw [leastOf]
    rcases List.mem_cons.mp hy with rfl | hy
    · split
      next hz => exact (ih List.mem_cons_self).trans (before_iff.mp hz).le
      next => exact ih List.mem_cons_self
    · split
      next => exact ih hy
      next hz =>
        rcases List.mem_cons.mp hy with rfl | hy
        · exact (ih List.mem_cons_self).trans (not_lt.mp fun h => hz (before_iff.mpr h))
        · exact ih (List.mem_cons_of_mem _ hy)

/-- R161: taking the least node out of a pool of distinct slots leaves the others, and none of them comes before it. -/
theorem takeLeast_spec {pool : List (Nat × Node)} (hne : pool ≠ []) (hslots : (pool.map Prod.fst).Nodup) :
    ∃ a rest, takeLeast pool = some (a, rest) ∧ pool.Perm (a :: rest) ∧ ∀ y ∈ rest, a.2.rank ≤ y.2.rank := by
  obtain ⟨x, xs, rfl⟩ := List.exists_cons_of_ne_nil hne
  have ha : leastOf x xs ∈ x :: xs := List.mem_cons.mpr (leastOf_mem x xs)
  refine ⟨_, _, rfl, ?_, fun y hy => leastOf_le (List.mem_of_mem_filter hy)⟩
  have hnodup : (x :: xs).Nodup := hslots.of_map
  have hkept : ∀ y : Nat × Node, y ∈ (x :: xs).filter (fun y => !Nat.beq y.1 (leastOf x xs).1) ↔
      y ∈ x :: xs ∧ y.1 ≠ (leastOf x xs).1 := fun y => by
    rw [List.mem_filter, Bool.not_eq_true', ← Bool.not_eq_true, Nat.beq_eq]
  refine (List.perm_ext_iff_of_nodup hnodup (List.nodup_cons.mpr ⟨fun h => ((hkept _).mp h).2 rfl,
    hnodup.filter _⟩)).mpr fun y => ?_
  rw [List.mem_cons (a := y) (b := leastOf x xs), hkept]
  by_cases hy : y.1 = (leastOf x xs).1
  · have heq : y ∈ x :: xs ↔ y = leastOf x xs :=
      ⟨fun hmem => List.inj_on_of_nodup_map hslots hmem ha hy, fun h => h ▸ ha⟩
    rw [heq]
    exact ⟨.inl, fun h => h.elim id And.left⟩
  · exact ⟨fun hmem => .inr ⟨hmem, hy⟩, fun h => h.elim (fun h => h ▸ ha) And.left⟩

/-! ### One merge -/

/-- `a` and `b` are the first and the second node taken out of the pool, `rest` what they leave in it. -/
structure LeastTwo (pool : List (Nat × Node)) (a b : Nat × Node) (rest : List (Nat × Node)) : Prop where
  perm : pool.Perm (a :: b :: rest)
  first : ∀ y ∈ b :: rest, a.2.rank ≤ y.2.rank
  second : ∀ y ∈ rest, b.2.rank ≤ y.2.rank

/-- The nodes made before merge `m` of a tree of `k` leaves, by slot, and the pool of that moment. -/
structure PoolOf (k m : Nat) (nodes : List Node) (pool : List (Nat × Node)) : Prop where
  length : nodes.length = k + m
  count : pool.length + m = k
  slots : (pool.map Prod.fst).Nodup
  stored : ∀ x ∈ pool, nodes[x.1]? = some x.2
  newest : ∃ x ∈ pool, x.1 + 1 = k + m

theorem PoolOf.slot_lt {k m : Nat} {nodes : List Node} {pool : List (Nat × Node)} (h : PoolOf k m nodes pool)
    {x : Nat × Node} (hx : x ∈ pool) : x.1 < k + m :=
  h.length ▸ (List.getElem?_eq_some_iff.mp (h.stored x hx)).1

/-- Before the first merge the pool is the leaves. -/
theorem poolOf_leaves {leaves : List Node} (h : leaves ≠ []) :
    PoolOf leaves.length 0 leaves (slotsFrom 0 leaves) where
  length := rfl
  count := by rw [slotsFrom_eq, List.length_map, List.length_zipIdx, Nat.add_zero]
  slots := by rw [map_fst_slotsFrom]; exact List.nodup_range'
  stored := fun _ hx => mem_slotsFrom_zero.mp hx
  newest := ⟨(leaves.length - 1, leaves.getLast h), mem_slotsFrom_zero.mpr (by
    rw [← List.getLast?_eq_getElem?, List.getLast?_eq_some_getLast h]), by
    have := List.length_pos_of_ne_nil h
    dsimp only
    omega⟩

/-- A merge takes two nodes out of the pool and puts its own in. -/
theorem PoolOf.merge {k m : Nat} {nodes : List Node} {pool rest : List (Nat × Node)} {a b : Nat × Node}
    (h : PoolOf k m nodes pool) (ht : LeastTwo pool a b rest) :
    PoolOf k (m + 1) (nodes ++ [mergeNode m a b]) ((k + m, mergeNode m a b) :: rest) where
  length := by rw [List.length_append, h.length, List.length_singleton, Nat.add_assoc]
  count := by
    have := h.count
    rw [ht.perm.length_eq, List.length_cons] at this
    rw [List.length_cons]
    rw [List.length_cons] at this
    omega
  slots := by
    have hslots := (ht.perm.map Prod.fst).nodup_iff.mp h.slots
    refine List.nodup_cons.mpr ⟨fun hmem => ?_, (hslots.of_cons).of_cons⟩
    obtain ⟨x, hx, heq⟩ := List.mem_map.mp hmem
    have := h.slot_lt (ht.perm.mem_iff.mpr (List.mem_cons_of_mem _ (List.mem_cons_of_mem _ hx)))
    dsimp only at heq
    omega
  stored := fun x hx => by
    rcases List.mem_cons.mp hx with rfl | hx
    · rw [← h.length, List.getElem?_concat_length]
    · have hmem := ht.perm.mem_iff.mpr (List.mem_cons_of_mem _ (List.mem_cons_of_mem _ hx))
      rw [List.getElem?_append_left (h.length.symm ▸ h.slot_lt hmem), h.stored x hmem]
  newest := ⟨_, List.mem_cons_self, Nat.add_assoc k m 1⟩

/-! ### All merges -/

/-- Every merge of a tree of `k` leaves keeps `P`. -/
def KeptByMerges (k : Nat) (P : Nat → List Node → List (Nat × Node) → Prop) : Prop :=
  ∀ m nodes pool a b rest, PoolOf k m nodes pool → LeastTwo pool a b rest → P m nodes pool →
    P (m + 1) (nodes ++ [mergeNode m a b]) ((k + m, mergeNode m a b) :: rest)

/-- The loop goes on with the least two nodes while there are two. -/
theorem mergeFrom_succ {k r m : Nat} {pool : List (Nat × Node)} (hslots : (pool.map Prod.fst).Nodup)
    (hlen : 2 ≤ pool.length) :
    ∃ a b rest, LeastTwo pool a b rest ∧
      mergeFrom k (r + 1) m pool = mergeNode m a b :: mergeFrom k r (m + 1) ((k + m, mergeNode m a b) :: rest) := by
  obtain ⟨a, pool1, ha, hperm, hfirst⟩ := takeLeast_spec (List.ne_nil_of_length_pos (by omega)) hslots
  have hslots1 : (pool1.map Prod.fst).Nodup := ((hperm.map Prod.fst).nodup_iff.mp hslots).of_cons
  have hlen1 : 0 < pool1.length := by
    have := hperm.length_eq
    rw [List.length_cons] at this
    omega
  obtain ⟨b, rest, hb, hperm1, hsecond⟩ := takeLeast_spec (List.ne_nil_of_length_pos hlen1) hslots1
  refine ⟨a, b, rest, ⟨hperm.trans (hperm1.cons a), fun y hy => hfirst y (hperm1.mem_iff.mpr hy), hsecond⟩, ?_⟩
  rw [mergeFrom, ha]
  dsimp only
  rw [hb]

/-- What every merge keeps holds after all of them, with one node left in the pool. -/
theorem PoolOf.mergeFrom_keeps {k : Nat} {P : Nat → List Node → List (Nat × Node) → Prop} (hP : KeptByMerges k P)
    {r m : Nat} {nodes : List Node} {pool : List (Nat × Node)} (h : PoolOf k m nodes pool)
    (hr : r + 1 = pool.length) (hp : P m nodes pool) :
    ∃ x, PoolOf k (m + r) (nodes ++ mergeFrom k r m pool) [x] ∧ P (m + r) (nodes ++ mergeFrom k r m pool) [x] := by
  induction r generalizing m nodes pool with
  | zero =>
    obtain ⟨x, rfl⟩ := List.length_eq_one_iff.mp hr.symm
    rw [mergeFrom, List.append_nil]
    exact ⟨x, h, hp⟩
  | succ r ih =>
    obtain ⟨a, b, rest, ht, heq⟩ := mergeFrom_succ (k := k) (r := r) (m := m) h.slots (by omega)
    have hlen : r + 1 = ((k + m, mergeNode m a b) :: rest).length := by
      have := ht.perm.length_eq
      simp only [List.length_cons] at this ⊢
      omega
    obtain ⟨x, hx, hpx⟩ := ih (h.merge ht) hlen (hP m nodes pool a b rest h ht hp)
    rw [heq, List.append_cons, ← Nat.add_assoc, Nat.add_right_comm]
    exact ⟨x, hx, hpx⟩

/-- What the leaves satisfy and every merge keeps holds of the tree. -/
theorem buildNodes_keeps {fs : List Nat} {P : Nat → List Node → List (Nat × Node) → Prop}
    (hP : KeptByMerges (leavesFrom 0 fs).length P) (hne : leavesFrom 0 fs ≠ [])
    (hp : P 0 (leavesFrom 0 fs) (slotsFrom 0 (leavesFrom 0 fs))) :
    ∃ x, PoolOf (leavesFrom 0 fs).length ((leavesFrom 0 fs).length - 1) (buildNodes fs) [x] ∧
      P ((leavesFrom 0 fs).length - 1) (buildNodes fs) [x] := by
  have hpool := poolOf_leaves hne
  have hlen : (leavesFrom 0 fs).length - 1 + 1 = (slotsFrom 0 (leavesFrom 0 fs)).length := by
    have hcount := hpool.count
    have := List.length_pos_of_ne_nil hne
    omega
  simpa only [buildNodes, Nat.zero_add] using hpool.mergeFrom_keeps hP hlen hp

/-- R161: without a leaf the tree has no node. -/
theorem buildNodes_of_no_leaf {fs : List Nat} (h : leavesFrom 0 fs = []) : buildNodes fs = [] := by
  simp [buildNodes, h, mergeFrom]

/-! ### The nodes are the tree of the merge rule -/

/-- R161: the node of merge `m` is as the merge rule says. -/
def MergedAt (nodes : List Node) (k m : Nat) : Prop :=
  ∃ a b na nb,
    nodes[k + m]? = some (.internal (256 + m) a b (na.freq + nb.freq)) ∧
    nodes[a]? = some na ∧ nodes[b]? = some nb ∧
    InPool nodes k m a ∧ InPool nodes k m b ∧ a ≠ b ∧
    (∀ j nj, InPool nodes k m j → nodes[j]? = some nj → j ≠ a → ComesBefore na nj) ∧
    (∀ j nj, InPool nodes k m j → nodes[j]? = some nj → j ≠ a → j ≠ b → ComesBefore nb nj)

/-- The pool before a merge is known from the nodes made before it. -/
theorem inPool_append {nodes : List Node} {k m m' i : Nat} (l : List Node) (hlen : nodes.length = k + m) (hm : m' ≤ m) :
    InPool (nodes ++ l) k m' i ↔ InPool nodes k m' i := by
  have hget : ∀ m'' < m', (nodes ++ l)[k + m'']? = nodes[k + m'']? := fun m'' h =>
    List.getElem?_append_left (by omega)
  unfold InPool
  refine and_congr_right fun _ => forall₂_congr fun m'' h => ?_
  rw [hget m'' h]

theorem MergedAt.append {nodes : List Node} {k m m' : Nat} (l : List Node) (hlen : nodes.length = k + m) (hm : m' < m)
    (h : MergedAt nodes k m') : MergedAt (nodes ++ l) k m' := by
  obtain ⟨a, b, na, nb, hnode, hna, hnb, ha, hb, hne, hfirst, hsecond⟩ := h
  have hget : ∀ {j}, j < nodes.length → (nodes ++ l)[j]? = nodes[j]? := fun hj => List.getElem?_append_left hj
  have hpool : ∀ {j}, InPool (nodes ++ l) k m' j ↔ InPool nodes k m' j := inPool_append l hlen hm.le
  have hslot : ∀ {j}, InPool nodes k m' j → j < nodes.length := fun hj => by have := hj.1; omega
  refine ⟨a, b, na, nb, ?_, ?_, ?_, hpool.mpr ha, hpool.mpr hb, hne, fun j nj hj hnj => ?_, fun j nj hj hnj => ?_⟩
  · rw [hget (by omega), hnode]
  · rw [hget (hslot ha), hna]
  · rw [hget (hslot hb), hnb]
  · rw [hget (hslot (hpool.mp hj))] at hnj
    exact hfirst j nj (hpool.mp hj) hnj
  · rw [hget (hslot (hpool.mp hj))] at hnj
    exact hsecond j nj (hpool.mp hj) hnj

/-- The merges so far follow the rule: the keys rise with the slots, the pool is what `InPool` says, and each node made
is as the rule says. -/
structure RuleFollowed (k m : Nat) (nodes : List Node) (pool : List (Nat × Node)) : Prop where
  keys : (nodes.map Node.key).Pairwise (· < ·)
  keys_lt : ∀ nd ∈ nodes, nd.key < 256 + m
  pool_iff : ∀ i, i ∈ pool.map Prod.fst ↔ InPool nodes k m i
  merged : ∀ m', m' < m → MergedAt nodes k m'

/-- Different slots hold different keys. -/
theorem RuleFollowed.key_ne {k m i j : Nat} {nodes : List Node} {pool : List (Nat × Node)} {x y : Node}
    (h : RuleFollowed k m nodes pool) (hx : nodes[i]? = some x) (hy : nodes[j]? = some y) (hne : i ≠ j) :
    x.key ≠ y.key := by
  have hnodup : (nodes.map Node.key).Nodup := h.keys.imp fun hlt => hlt.ne
  intro heq
  have hi : (nodes.map Node.key)[i]? = some x.key := by rw [List.getElem?_map, hx, Option.map_some]
  have hj : (nodes.map Node.key)[j]? = some x.key := by rw [List.getElem?_map, hy, Option.map_some, heq]
  obtain ⟨hlt, -⟩ := List.getElem?_eq_some_iff.mp hi
  exact hne ((List.getElem?_inj hlt hnodup).mp (hi.trans hj.symm))

/-- In a pool that follows the rule, a least node comes before every node of another slot. -/
theorem RuleFollowed.comesBefore {k m : Nat} {nodes : List Node} {pool : List (Nat × Node)} {x : Nat × Node} {j : Nat}
    {nj : Node} (h : RuleFollowed k m nodes pool) (hx : nodes[x.1]? = some x.2) (hj : nodes[j]? = some nj)
    (hne : j ≠ x.1) (hle : x.2.rank ≤ nj.rank) : ComesBefore x.2 nj :=
  comesBefore_iff.mpr (hle.lt_of_ne (rank_ne_of_key_ne (h.key_ne hx hj hne.symm)))

/-- The children of a node made by a merge lie below it. -/
theorem RuleFollowed.children_lt {k m m' key l r f : Nat} {nodes : List Node} {pool : List (Nat × Node)}
    (h : RuleFollowed k m nodes pool) (hm : m' < m) (hnode : nodes[k + m']? = some (.internal key l r f)) :
    l < k + m' ∧ r < k + m' := by
  obtain ⟨a, b, na, nb, hnode', -, -, ha, hb, -⟩ := h.merged m' hm
  obtain ⟨-, rfl, rfl, -⟩ := Node.internal.inj (Option.some.inj (hnode.symm.trans hnode'))
  exact ⟨ha.1, hb.1⟩

/-- R161: the least two nodes of the pool make the merge the rule asks for. -/
theorem RuleFollowed.mergedAt {k m : Nat} {nodes : List Node} {pool rest : List (Nat × Node)} {a b : Nat × Node}
    (h : RuleFollowed k m nodes pool) (hpool : PoolOf k m nodes pool) (ht : LeastTwo pool a b rest) :
    MergedAt (nodes ++ [mergeNode m a b]) k m := by
  have hin : ∀ {j}, InPool (nodes ++ [mergeNode m a b]) k m j ↔ InPool nodes k m j :=
    inPool_append _ hpool.length le_rfl
  have hget : ∀ {j}, InPool nodes k m j → (nodes ++ [mergeNode m a b])[j]? = nodes[j]? := fun hj =>
    List.getElem?_append_left (hpool.length.symm ▸ hj.1)
  have hmem : ∀ {j nj}, InPool nodes k m j → nodes[j]? = some nj → (j, nj) ∈ a :: b :: rest := fun {j nj} hj hnj => by
    obtain ⟨x, hx, rfl⟩ := List.mem_map.mp ((h.pool_iff j).mpr hj)
    obtain rfl : x.2 = nj := Option.some.inj ((hpool.stored x hx).symm.trans hnj)
    exact ht.perm.mem_iff.mp hx
  have ha : a ∈ pool := ht.perm.mem_iff.mpr (by simp)
  have hb : b ∈ pool := ht.perm.mem_iff.mpr (by simp)
  have hina : InPool nodes k m a.1 := (h.pool_iff a.1).mp (List.mem_map_of_mem ha)
  have hinb : InPool nodes k m b.1 := (h.pool_iff b.1).mp (List.mem_map_of_mem hb)
  have hne : a.1 ≠ b.1 := by
    have hslots := (ht.perm.map Prod.fst).nodup_iff.mp hpool.slots
    rw [List.map_cons, List.map_cons, List.nodup_cons] at hslots
    exact fun heq => hslots.1 (heq ▸ List.mem_cons_self)
  refine ⟨a.1, b.1, a.2, b.2, ?_, ?_, ?_, hin.mpr hina, hin.mpr hinb, hne, fun j nj hj hnj hja => ?_,
    fun j nj hj hnj hja hjb => ?_⟩
  · rw [← hpool.length, List.getElem?_concat_length, mergeNode]
  · rw [hget hina, hpool.stored a ha]
  · rw [hget hinb, hpool.stored b hb]
  · have hj' := hin.mp hj
    rw [hget hj'] at hnj
    have hnext : (j, nj) ∈ b :: rest := List.mem_of_ne_of_mem (fun heq => hja (congrArg Prod.fst heq)) (hmem hj' hnj)
    exact h.comesBefore (hpool.stored a ha) hnj hja (ht.first _ hnext)
  · have hj' := hin.mp hj
    rw [hget hj'] at hnj
    have hnext : (j, nj) ∈ rest := List.mem_of_ne_of_mem (fun heq => hjb (congrArg Prod.fst heq))
      (List.mem_of_ne_of_mem (fun heq => hja (congrArg Prod.fst heq)) (hmem hj' hnj))
    exact h.comesBefore (hpool.stored b hb) hnj hjb (ht.second _ hnext)

/-- What the merge of `a` and `b` adds to the conditions of the pool. -/
theorem inPool_merge_iff {nodes : List Node} {k m i : Nat} (a b : Nat × Node) (hlen : nodes.length = k + m) :
    InPool (nodes ++ [mergeNode m a b]) k (m + 1) i ↔
      i < k + (m + 1) ∧ (∀ m', m' < m → ∀ key l r f, nodes[k + m']? = some (.internal key l r f) → i ≠ l ∧ i ≠ r) ∧
        i ≠ a.1 ∧ i ≠ b.1 := by
  have hnew : (nodes ++ [mergeNode m a b])[k + m]? = some (mergeNode m a b) := by
    rw [← hlen, List.getElem?_concat_length]
  have hold : ∀ m', m' < m → (nodes ++ [mergeNode m a b])[k + m']? = nodes[k + m']? := fun m' hm' =>
    List.getElem?_append_left (by omega)
  constructor
  · rintro ⟨hi, hnot⟩
    exact ⟨hi, fun m' hm' key l r f hn => hnot m' (by omega) key l r f ((hold m' hm').trans hn),
      hnot m (by omega) _ _ _ _ hnew⟩
  · rintro ⟨hi, hnot, hab⟩
    refine ⟨hi, fun m' hm' key l r f hn => ?_⟩
    rcases Nat.lt_succ_iff_lt_or_eq.mp hm' with hlt | rfl
    · exact hnot m' hlt key l r f ((hold m' hlt).symm.trans hn)
    · obtain ⟨-, rfl, rfl, -⟩ := Node.internal.inj (Option.some.inj (hn.symm.trans hnew))
      exact hab

/-- The pool after a merge: the new node, and the others that the merge did not take. -/
theorem RuleFollowed.pool_iff_merge {k m : Nat} {nodes : List Node} {pool rest : List (Nat × Node)} {a b : Nat × Node}
    (h : RuleFollowed k m nodes pool) (hpool : PoolOf k m nodes pool) (ht : LeastTwo pool a b rest) (i : Nat) :
    i ∈ ((k + m, mergeNode m a b) :: rest).map Prod.fst ↔ InPool (nodes ++ [mergeNode m a b]) k (m + 1) i := by
  have hslots := (ht.perm.map Prod.fst).nodup_iff.mp hpool.slots
  simp only [List.map_cons, List.nodup_cons, List.mem_cons, not_or] at hslots
  obtain ⟨⟨-, ha⟩, hb, -⟩ := hslots
  have hmem : i ∈ pool.map Prod.fst ↔ i = a.1 ∨ i = b.1 ∨ i ∈ rest.map Prod.fst := by
    rw [(ht.perm.map Prod.fst).mem_iff]
    simp only [List.map_cons, List.mem_cons]
  have hlt : i ∈ pool.map Prod.fst → i < k + m := fun hi => ((h.pool_iff i).mp hi).1
  rw [inPool_merge_iff a b hpool.length, List.map_cons, List.mem_cons]
  rcases lt_trichotomy i (k + m) with hi | rfl | hi
  · have hold : i ∈ pool.map Prod.fst ↔
        ∀ m', m' < m → ∀ key l r f, nodes[k + m']? = some (.internal key l r f) → i ≠ l ∧ i ≠ r := by
      rw [h.pool_iff, InPool]
      exact and_iff_right hi
    rw [← hold, hmem]
    constructor
    · intro hor
      have hrest : i ∈ rest.map Prod.fst := hor.resolve_left hi.ne
      exact ⟨by omega, .inr (.inr hrest), fun heq => ha (heq ▸ hrest), fun heq => hb (heq ▸ hrest)⟩
    · rintro ⟨-, hor, hna, hnb⟩
      exact .inr ((hor.resolve_left hna).resolve_left hnb)
  · refine iff_of_true (.inl rfl) ⟨by omega, fun m' hm' key l r f hn => ?_, fun heq => ?_, fun heq => ?_⟩
    · have := h.children_lt hm' hn
      omega
    · exact (hlt (hmem.mpr (.inl heq))).ne rfl
    · exact (hlt (hmem.mpr (.inr (.inl heq)))).ne rfl
  · refine iff_of_false (fun hor => ?_) (fun hand => by have := hand.1; omega)
    have := hlt (hmem.mpr (.inr (.inr (hor.resolve_left hi.ne'))))
    omega

/-- Every merge follows the rule. -/
theorem ruleFollowed_kept (k : Nat) : KeptByMerges k (RuleFollowed k) := by
  intro m nodes pool a b rest hpool ht h
  refine ⟨?_, fun nd hnd => ?_, h.pool_iff_merge hpool ht, fun m' hm' => ?_⟩
  · rw [List.map_append, List.pairwise_append]
    refine ⟨h.keys, List.pairwise_singleton _ _, fun x hx y hy => ?_⟩
    obtain ⟨nd, hnd, rfl⟩ := List.mem_map.mp hx
    rw [List.map_singleton, List.mem_singleton] at hy
    exact hy ▸ h.keys_lt nd hnd
  · rcases List.mem_append.mp hnd with hnd | hnd
    · have := h.keys_lt nd hnd
      omega
    · rw [List.mem_singleton.mp hnd]
      exact Nat.lt_succ_self (256 + m)
  · rcases Nat.lt_succ_iff_lt_or_eq.mp hm' with hlt | rfl
    · exact (h.merged m' hlt).append _ hpool.length hlt
    · exact h.mergedAt hpool ht

/-- So does the start. -/
theorem ruleFollowed_leaves {fs : List Nat} (hlen : fs.length = 256) :
    RuleFollowed (leavesFrom 0 fs).length 0 (leavesFrom 0 fs) (slotsFrom 0 (leavesFrom 0 fs)) where
  keys := by
    have hkeys : (leavesFrom 0 fs).map Node.key = codedSymbols fs := by
      rw [leavesFrom_zero hlen, List.map_map]
      refine (List.map_congr_left fun c hc => ?_).trans (List.map_id _)
      exact Nat.mod_eq_of_lt (lt_of_mem_codedSymbols hc)
    rw [hkeys]
    exact List.pairwise_lt_range.filter _
  keys_lt := fun nd hnd => by
    rw [leavesFrom_zero hlen] at hnd
    obtain ⟨c, -, rfl⟩ := List.mem_map.mp hnd
    exact (BitVec.ofNat 8 c).isLt
  pool_iff := fun i => by
    rw [map_fst_slotsFrom, List.mem_range'_1]
    simp [InPool]
  merged := fun m' hm' => absurd hm' (Nat.not_lt_zero m')

/-- R161: HUF_BUILD's nodes are the tree of its table. -/
theorem isHuffmanTree_buildNodes {fs : List Nat} (hlen : fs.length = 256) : IsHuffmanTree fs (buildNodes fs) := by
  have hk := length_leavesFrom_zero hlen
  have hleaf : ∀ i c, (codedSymbols fs)[i]? = some c → (buildNodes fs)[i]? = some (leafOf fs c) := fun i c hc => by
    obtain ⟨hi, -⟩ := List.getElem?_eq_some_iff.mp hc
    rw [buildNodes, List.getElem?_append_left (by omega), leavesFrom_zero hlen, List.getElem?_map, hc, Option.map_some]
  by_cases hne : leavesFrom 0 fs = []
  · have hzero : (codedSymbols fs).length = 0 := by rw [← hk, hne]; rfl
    refine ⟨by rw [buildNodes_of_no_leaf hne, hzero]; rfl, fun i _ c hc => hleaf i c hc, fun m hm => ?_⟩
    omega
  · obtain ⟨x, hpool, hrule⟩ := buildNodes_keeps (ruleFollowed_kept _) hne (ruleFollowed_leaves hlen)
    have hpos := List.length_pos_of_ne_nil hne
    have hnodes := hpool.length
    rw [hk] at hnodes hpos hrule
    refine ⟨?_, fun i _ c hc => hleaf i c hc, fun m hm => hrule.merged m (by omega)⟩
    rw [if_neg hpos.ne']
    omega

end Sys2Proof.Machine
end

section
/-! SUPPORT. HUF_BUILD: the fields of its nodes fit their slots, so `TREE` gives the nodes back, and what the command
leaves (spec/43_huffman.md R161). -/

namespace Sys2Proof.Machine

/-! ### The nodes fit -/

/-- R7, R43: every node made so far fits a slot, and so does any sum of frequencies of the pool. -/
def FitsSlots (_m : Nat) (nodes : List Node) (pool : List (Nat × Node)) : Prop :=
  (∀ nd ∈ nodes, nd.Fits) ∧ (pool.map fun x => x.2.freq).sum < 2 ^ 40

/-- A merge keeps the sum of the pool's frequencies. -/
theorem fitsSlots_kept {k : Nat} (hk : k ≤ 256) : KeptByMerges k FitsSlots := by
  intro m nodes pool a b rest hpool ht ⟨hfits, hsum⟩
  have hcount := hpool.count
  have ha := hpool.slot_lt (ht.perm.mem_iff.mpr (by simp : a ∈ a :: b :: rest))
  have hb := hpool.slot_lt (ht.perm.mem_iff.mpr (by simp : b ∈ a :: b :: rest))
  rw [ht.perm.length_eq, List.length_cons, List.length_cons] at hcount
  rw [(ht.perm.map _).sum_eq, List.map_cons, List.map_cons, List.sum_cons, List.sum_cons] at hsum
  refine ⟨fun nd hnd => ?_, ?_⟩
  · rcases List.mem_append.mp hnd with hnd | hnd
    · exact hfits nd hnd
    · rw [List.mem_singleton.mp hnd]
      exact ⟨by omega, by omega, by omega, by omega⟩
  · rw [List.map_cons, List.sum_cons, mergeNode, Node.freq, Nat.add_assoc]
    exact hsum

theorem map_freq_slotsFrom (i : Nat) (l : List Node) :
    ((slotsFrom i l).map fun x => x.2.freq) = l.map Node.freq := by
  conv_rhs => rw [← map_snd_slotsFrom i l, List.map_map]
  rfl

theorem sum_freq_leavesFrom (c : Nat) (fs : List Nat) : ((leavesFrom c fs).map Node.freq).sum = fs.sum := by
  induction fs generalizing c with
  | nil => rfl
  | cons f fs ih =>
    rw [leavesFrom]
    split
    · rw [List.map_cons, List.sum_cons, ih, List.sum_cons, Node.freq]
    · rw [ih, List.sum_cons]
      omega

theorem fits_of_mem_leavesFrom {c : Nat} {fs : List Nat} (h : ∀ f ∈ fs, f < 2 ^ 32) {nd : Node}
    (hnd : nd ∈ leavesFrom c fs) : nd.Fits := by
  rw [leavesFrom_eq_map] at hnd
  obtain ⟨i, hi, rfl⟩ := List.mem_map.mp hnd
  have hlt : i < fs.length := List.mem_range.mp (List.mem_of_mem_filter hi)
  have := h _ (List.getElem_mem hlt)
  rw [List.getD_eq_getElem _ _ hlt, Node.Fits]
  omega

/-- R7: 256 counts of 32 bits add up to less than `2^40`. -/
theorem sum_freqTable_lt {fs : List Nat} (h : IsFreqTable fs) : fs.sum < 2 ^ 40 := by
  obtain ⟨hlen, hlt⟩ := h
  have hle := List.sum_le_card_nsmul fs (2 ^ 32 - 1) fun f hf => by have := hlt f hf; omega
  rw [hlen, smul_eq_mul] at hle
  omega

theorem fits_of_mem_buildNodes {fs : List Nat} (h : IsFreqTable fs) {nd : Node} (hnd : nd ∈ buildNodes fs) :
    nd.Fits := by
  by_cases hne : leavesFrom 0 fs = []
  · rw [buildNodes_of_no_leaf hne] at hnd
    exact absurd hnd List.not_mem_nil
  · have hk : (leavesFrom 0 fs).length ≤ 256 := (length_leavesFrom_zero h.1).trans_le (length_codedSymbols_le fs)
    have hsum : ((slotsFrom 0 (leavesFrom 0 fs)).map fun x => x.2.freq).sum < 2 ^ 40 := by
      rw [map_freq_slotsFrom, sum_freq_leavesFrom]
      exact sum_freqTable_lt h
    obtain ⟨-, -, hfits, -⟩ := buildNodes_keeps (fitsSlots_kept hk) hne
      ⟨fun nd hnd => fits_of_mem_leavesFrom h.2 hnd, hsum⟩
    exact hfits nd hnd

theorem length_buildNodes {fs : List Nat} (h : fs.length = 256) :
    (buildNodes fs).length = nnodeOf (codedSymbols fs).length := (isHuffmanTree_buildNodes h).1

theorem nnodeOf_le {k : Nat} (h : k ≤ 256) : nnodeOf k ≤ 511 := by
  unfold nnodeOf
  split <;> omega

/-! ### The command -/

/-- The words of `FREQ` as a frequency table. -/
theorem isFreqTable_map_toNat {ws : List Word} (h : ws.length = 256) : IsFreqTable (ws.map BitVec.toNat) := by
  refine ⟨by rw [List.length_map, h], fun f hf => ?_⟩
  obtain ⟨w, -, rfl⟩ := List.mem_map.mp hf
  exact w.isLt

/-- The state HUF_BUILD leaves for the frequency table `fs`. -/
def State.treeOf (s : State) (fs : List Nat) : State :=
  { s with
    nleaf := wordOf (codedSymbols fs).length
    nnode := wordOf (nnodeOf (codedSymbols fs).length)
    root := BitVec.ofNat 9 (rootOf (codedSymbols fs).length)
    res0 := wordOf (codedSymbols fs).length
    res1 := wordOf (nnodeOf (codedSymbols fs).length)
    status := { s.status.succeeded with treev := true, lone := decide ((codedSymbols fs).length = 1), codev := false }
    mem := (s.storeWords .tree 0 (treeWords (buildNodes fs))).mem }

/-- R161: HUF_BUILD on a written table. -/
theorem exec_hufBuild {s : State} {ws : List Word} (hp : s.srstPend = false) (hlen : ws.length = 256)
    (hws : s.holdsWords .freq 0 ws) : exec .hufBuild s = .next (s.treeOf (ws.map BitVec.toNat)) := by
  have hread : (begin s).wordsAt .freq 0 256 = some ws := wordsAt_eq_some.mpr ⟨hlen, fun j hj => hws j (hlen ▸ hj)⟩
  obtain ⟨u, hu⟩ := runHufBuild_done hread
  rw [exec_of_done (i := .hufBuild) hu hp]
  rw [runHufBuild, hread] at hu
  dsimp only at hu
  rw [length_leavesFrom_zero (isFreqTable_map_toNat hlen).1] at hu
  rw [← (Result.done.inj hu).2]
  rfl

/-- The words of `TREE` after HUF_BUILD. -/
theorem wordAt_treeOf {s : State} {fs : List Nat} (h : fs.length = 256) {j : Nat} (hj : j < 2048) :
    (s.treeOf fs).wordAt .tree j = (treeWords (buildNodes fs))[j]? := by
  have hnodes : (buildNodes fs).length ≤ 512 := by
    rw [length_buildNodes h]
    exact (nnodeOf_le (length_codedSymbols_le fs)).trans (by omega)
  have hheld := holdsWords_storeWords s .tree 0 (treeWords (buildNodes fs)) j
    (by rw [treeWords_length _ hnodes]; exact hj)
  rwa [Nat.zero_add] at hheld

/-- R43, R161: the slots of the nodes hold the nodes' words. -/
theorem holdsWords_treeOf {s : State} {fs : List Nat} (h : fs.length = 256) {i : Nat} {nd : Node}
    (hi : (buildNodes fs)[i]? = some nd) : (s.treeOf fs).holdsWords .tree (4 * i) (packNode nd) := by
  intro j hj
  rw [packNode_length] at hj
  have hlt : i < (buildNodes fs).length := (List.getElem?_eq_some_iff.mp hi).1
  have hnodes := length_buildNodes h
  have hle := nnodeOf_le (length_codedSymbols_le fs)
  rw [wordAt_treeOf h (by omega), treeWords_getElem?_node hi hj]

/-- R161: the tree of the table stands in `TREE` after HUF_BUILD. -/
theorem treeStored_treeOf {s : State} {fs : List Nat} (h : IsFreqTable fs) :
    TreeStored (s.treeOf fs) (buildNodes fs) := by
  intro i hi
  have hget := List.getElem?_eq_getElem hi
  rw [hget]
  exact slotAt_of_holdsWords (fits_of_mem_buildNodes h (List.getElem_mem hi)) (holdsWords_treeOf h.1 hget)

/-- R161: after HUF_BUILD the tree registers and `TREE` hold the tree of the table. -/
theorem holdsTreeOf_treeOf {s : State} {fs : List Nat} (h : IsFreqTable fs) : HoldsTreeOf (s.treeOf fs) fs := by
  have hk := length_codedSymbols_le fs
  refine ⟨treeStored_treeOf h, toNat_wordOf (by omega), ?_⟩
  refine (BitVec.toNat_ofNat _ _).trans (Nat.mod_eq_of_lt ?_)
  unfold rootOf
  split <;> omega

/-- Settles O38: the nodes of the merge loop are the tree of the rule, and `TREE` holds their words. -/
theorem hufBuildStoresTheTree : Obligations.HufBuildStoresTheTree := by
  refine ⟨by decide, fun s ws hp hlen hws => ?_⟩
  have hfs := isFreqTable_map_toNat hlen
  have he := exec_hufBuild hp hlen hws
  obtain ⟨-, -, -, -, hsame⟩ := exec_next he
  refine ⟨_, _, _, he, isHuffmanTree_buildNodes hfs.1, rfl, ?_, treeStored_treeOf hfs,
    fun i nd hi => holdsWords_treeOf hfs.1 hi, fun j hlo hhi => ?_, hsame⟩
  · rw [length_buildNodes hfs.1, State.treeOf, rootOf, apply_ite (BitVec.ofNat 9)]
    rfl
  · rw [wordAt_treeOf hfs.1 hhi, treeWords_getElem?_zero hlo hhi]

end Sys2Proof.Machine
end

section
/-! SUPPORT. The shape of the tree in `TREE` and its paths: every coded symbol stands in one leaf, no
path goes on as another, their Kraft sum is 1, and the walk of HUF_CODES finds them (spec/43_huffman.md R162, R166). -/

namespace Sys2Proof.Machine

/-! ### Shapes -/

/-- The shape of a code tree: which symbol stands where. -/
inductive CodeTree where
  | leaf (c : Byte)
  | fork (l r : CodeTree)

/-- The symbols of the leaves, from left to right. -/
def CodeTree.symbols : CodeTree → List Byte
  | .leaf c => [c]
  | .fork l r => l.symbols ++ r.symbols

/-- The length of the longest path. -/
def CodeTree.depth : CodeTree → Nat
  | .leaf _ => 0
  | .fork l r => max l.depth r.depth + 1

/-- A symbol's path with one more bit in front. -/
def under (b : Bool) (x : Byte × List Bool) : Byte × List Bool := (x.1, b :: x.2)

/-- The symbols with their paths, from left to right: 0 for left, 1 for right (R162). -/
def CodeTree.paths : CodeTree → List (Byte × List Bool)
  | .leaf c => [(c, [])]
  | .fork l r => l.paths.map (under false) ++ r.paths.map (under true)

theorem CodeTree.map_fst_paths (t : CodeTree) : t.paths.map Prod.fst = t.symbols := by
  induction t with
  | leaf c => rfl
  | fork l r ihl ihr =>
    rw [paths, symbols, List.map_append, List.map_map, List.map_map, ← ihl, ← ihr]
    rfl

/-- R107: a path meets fewer internal nodes than the tree has leaves. -/
theorem CodeTree.depth_lt (t : CodeTree) : t.depth < t.symbols.length := by
  induction t with
  | leaf c => exact Nat.zero_lt_one
  | fork l r ihl ihr =>
    rw [depth, symbols, List.length_append]
    omega

theorem CodeTree.length_le_depth {t : CodeTree} {x : Byte × List Bool} (hx : x ∈ t.paths) : x.2.length ≤ t.depth := by
  induction t generalizing x with
  | leaf c => rw [List.mem_singleton.mp hx]; exact le_rfl
  | fork l r ihl ihr =>
    rw [depth]
    rcases List.mem_append.mp hx with hx | hx <;> obtain ⟨y, hy, rfl⟩ := List.mem_map.mp hx
    · exact Nat.succ_le_succ ((ihl hy).trans (le_max_left _ _))
    · exact Nat.succ_le_succ ((ihr hy).trans (le_max_right _ _))

/-- R166: no path is the beginning of another symbol's. -/
theorem CodeTree.paths_prefixFree {t : CodeTree} {x y : Byte × List Bool} (hx : x ∈ t.paths) (hy : y ∈ t.paths)
    (hne : x.1 ≠ y.1) : ¬ x.2 <+: y.2 := by
  induction t generalizing x y with
  | leaf c => exact absurd (by rw [List.mem_singleton.mp hx, List.mem_singleton.mp hy]) hne
  | fork l r ihl ihr =>
    intro hpre
    rcases List.mem_append.mp hx with hx | hx <;> obtain ⟨u, hu, rfl⟩ := List.mem_map.mp hx <;>
      rcases List.mem_append.mp hy with hy | hy <;> obtain ⟨v, hv, rfl⟩ := List.mem_map.mp hy <;>
      obtain ⟨hbit, hrest⟩ := List.cons_prefix_cons.mp hpre
    · exact ihl hu hv hne hrest
    · exact Bool.false_ne_true hbit
    · exact Bool.false_ne_true hbit.symm
    · exact ihr hu hv hne hrest

/-- R166: the Kraft sum of the paths is 1, over the denominator `2^n`. -/
theorem CodeTree.kraft {t : CodeTree} {n : Nat} (h : t.depth ≤ n) :
    (t.paths.map fun x => 2 ^ (n - x.2.length)).sum = 2 ^ n := by
  induction t generalizing n with
  | leaf c => rfl
  | fork l r ihl ihr =>
    rw [depth] at h
    obtain ⟨n, rfl⟩ : ∃ k, n = k + 1 := ⟨n - 1, by omega⟩
    have hunder : ∀ b, (fun x : Byte × List Bool => 2 ^ (n + 1 - x.2.length)) ∘ under b =
        fun x => 2 ^ (n - x.2.length) := fun b => by
      funext x
      simp [under]
    rw [paths, List.map_append, List.sum_append, List.map_map, List.map_map, hunder, hunder, ihl (by omega),
      ihr (by omega), Nat.pow_succ, Nat.mul_two]

/-! ### Shapes in `TREE` -/

/-- The nodes hold a tree of this shape at slot `i`. -/
inductive TreeAt (nodes : List Node) : Nat → CodeTree → Prop where
  | leaf {i : Nat} {c : Byte} {f : Nat} (h : nodes[i]? = some (.leaf c f)) : TreeAt nodes i (.leaf c)
  | fork {i key l r f : Nat} {tl tr : CodeTree} (h : nodes[i]? = some (.internal key l r f)) (hl : TreeAt nodes l tl)
    (hr : TreeAt nodes r tr) : TreeAt nodes i (.fork tl tr)

theorem TreeAt.append {nodes : List Node} {i : Nat} {t : CodeTree} (h : TreeAt nodes i t) (l : List Node) :
    TreeAt (nodes ++ l) i t := by
  have hget : ∀ {j nd}, nodes[j]? = some nd → (nodes ++ l)[j]? = some nd := fun hj => by
    rw [List.getElem?_append_left (List.getElem?_eq_some_iff.mp hj).1, hj]
  induction h with
  | leaf h => exact .leaf (hget h)
  | fork h _ _ ihl ihr => exact .fork (hget h) ihl ihr

/-- R164: a path leads to its symbol's leaf. -/
theorem TreeAt.leadsTo {nodes : List Node} {i : Nat} {t : CodeTree} (h : TreeAt nodes i t) {x : Byte × List Bool}
    (hx : x ∈ t.paths) : LeadsTo nodes i x.2 x.1 := by
  induction h generalizing x with
  | leaf h =>
    rw [List.mem_singleton.mp hx]
    exact ⟨_, _, rfl, h⟩
  | fork h _ _ ihl ihr =>
    rcases List.mem_append.mp hx with hx | hx <;> obtain ⟨y, hy, rfl⟩ := List.mem_map.mp hx
    · obtain ⟨j, f, hdown, hleaf⟩ := ihl hy
      exact ⟨j, f, by simpa [under, descend, h] using hdown, hleaf⟩
    · obtain ⟨j, f, hdown, hleaf⟩ := ihr hy
      exact ⟨j, f, by simpa [under, descend, h] using hdown, hleaf⟩

theorem slotAt_of_treeStored {s : State} {nodes : List Node} (h : TreeStored s nodes) {i : Nat} {nd : Node}
    (hi : nodes[i]? = some nd) : s.slotAt i = some nd :=
  (h i (List.getElem?_eq_some_iff.mp hi).1).trans hi

/-- R162: the walk of HUF_CODES finds the paths. -/
theorem TreeAt.walkCodes_eq {nodes : List Node} {i : Nat} {t : CodeTree} (h : TreeAt nodes i t) {s : State}
    (hs : TreeStored s nodes) {d : Nat} (hd : t.depth < d) (c : List Bool) :
    walkCodes s d i c = .ok (t.paths.map fun x => (x.1, c ++ x.2)) := by
  induction h generalizing d c with
  | leaf h =>
    obtain ⟨d, rfl⟩ : ∃ k, d = k + 1 := ⟨d - 1, by omega⟩
    rw [walkCodes_leaf (slotAt_of_treeStored hs h)]
    simp [CodeTree.paths]
  | @fork i key l r f tl tr h _ _ ihl ihr =>
    rw [CodeTree.depth] at hd
    obtain ⟨d, rfl⟩ : ∃ k, d = k + 1 := ⟨d - 1, by omega⟩
    rw [walkCodes_internal (slotAt_of_treeStored hs h) (ihl (by omega) _) (ihr (by omega) _), CodeTree.paths,
      List.map_append, List.map_map, List.map_map]
    congr 2 <;> exact List.map_congr_left fun x _ => by simp [under]

/-! ### The tree HUF_BUILD makes -/

/-- The nodes of the pool are the roots of trees whose leaves are the symbols `syms`. -/
def Forest (syms : List Byte) (_m : Nat) (nodes : List Node) (pool : List (Nat × Node)) : Prop :=
  ∃ tree : Nat → CodeTree, (∀ x ∈ pool, TreeAt nodes x.1 (tree x.1)) ∧
    (pool.flatMap fun x => (tree x.1).symbols).Perm syms

/-- A merge joins two trees. -/
theorem forest_kept (syms : List Byte) (k : Nat) : KeptByMerges k (Forest syms) := by
  intro m nodes pool a b rest hpool ht ⟨tree, htrees, hsyms⟩
  have hmem : ∀ {x}, x ∈ a :: b :: rest → x ∈ pool := ht.perm.mem_iff.mpr
  have ha : a ∈ pool := hmem (by simp)
  have hb : b ∈ pool := hmem (by simp)
  have hrest : ∀ x ∈ rest, Function.update tree (k + m) (.fork (tree a.1) (tree b.1)) x.1 = tree x.1 := fun x hx =>
    Function.update_of_ne (hpool.slot_lt (hmem (by simp [hx]))).ne _ _
  refine ⟨Function.update tree (k + m) (.fork (tree a.1) (tree b.1)), fun x hx => ?_, ?_⟩
  · rcases List.mem_cons.mp hx with rfl | hx
    · have hnew : (nodes ++ [mergeNode m a b])[k + m]? = some (mergeNode m a b) := by
        rw [← hpool.length, List.getElem?_concat_length]
      rw [Function.update_self]
      exact .fork hnew ((htrees a ha).append _) ((htrees b hb).append _)
    · rw [hrest x hx]
      exact (htrees x (hmem (by simp [hx]))).append _
  · have hjoined := (ht.perm.flatMap_right fun x => (tree x.1).symbols).symm.trans hsyms
    rw [List.flatMap_cons, List.flatMap_cons] at hjoined
    have hkept : (rest.flatMap fun x =>
        (Function.update tree (k + m) (.fork (tree a.1) (tree b.1)) x.1).symbols) =
        rest.flatMap fun x => (tree x.1).symbols := List.flatMap_congr fun x hx => by rw [hrest x hx]
    rw [List.flatMap_cons, hkept, Function.update_self, CodeTree.symbols, List.append_assoc]
    exact hjoined

/-- Before the first merge each tree is a leaf. -/
theorem forest_leaves {fs : List Nat} (h : fs.length = 256) :
    Forest ((codedSymbols fs).map (BitVec.ofNat 8)) 0 (leavesFrom 0 fs) (slotsFrom 0 (leavesFrom 0 fs)) := by
  have hleaf : ∀ x ∈ slotsFrom 0 (leavesFrom 0 fs), ∃ c, (codedSymbols fs)[x.1]? = some c ∧ x.2 = leafOf fs c := by
    intro x hx
    have hget := mem_slotsFrom_zero.mp hx
    rw [leavesFrom_zero h, List.getElem?_map] at hget
    obtain ⟨c, hc, heq⟩ := Option.map_eq_some_iff.mp hget
    exact ⟨c, hc, heq.symm⟩
  refine ⟨fun i => .leaf (BitVec.ofNat 8 ((codedSymbols fs).getD i 0)), fun x hx => ?_, ?_⟩
  · obtain ⟨c, hc, heq⟩ := hleaf x hx
    dsimp only
    rw [List.getD_eq_getElem?_getD, hc, Option.getD_some]
    exact .leaf ((mem_slotsFrom_zero.mp hx).trans (congrArg some heq))
  · have hslots : ((slotsFrom 0 (leavesFrom 0 fs)).flatMap fun x =>
        (CodeTree.leaf (BitVec.ofNat 8 ((codedSymbols fs).getD x.1 0))).symbols) =
        ((slotsFrom 0 (leavesFrom 0 fs)).map Prod.fst).map fun i =>
          BitVec.ofNat 8 ((codedSymbols fs).getD i 0) := by
      rw [List.map_map]
      exact List.map_eq_flatMap.symm
    rw [hslots, map_fst_slotsFrom, length_leavesFrom_zero h]
    refine List.Perm.of_eq (List.ext_getElem (by simp) fun i hi hi' => ?_)
    have hlt : i < (codedSymbols fs).length := by simpa using hi'
    simp [hlt]

/-- R161: the coded symbols of a table are the leaves of one tree, at the last slot. -/
theorem exists_treeAt_root {fs : List Nat} (h : fs.length = 256) (hne : codedSymbols fs ≠ []) :
    ∃ t, TreeAt (buildNodes fs) (rootOf (codedSymbols fs).length) t ∧
      t.symbols.Perm ((codedSymbols fs).map (BitVec.ofNat 8)) := by
  have hleaves : leavesFrom 0 fs ≠ [] := by
    rw [leavesFrom_zero h]
    simpa using hne
  obtain ⟨x, hpool, tree, htrees, hsyms⟩ := buildNodes_keeps (forest_kept _ _) hleaves (forest_leaves h)
  obtain ⟨y, hy, hroot⟩ := hpool.newest
  obtain rfl := List.mem_singleton.mp hy
  have hpos := List.length_pos_of_ne_nil hne
  rw [length_leavesFrom_zero h] at hroot
  have hslot : y.1 = rootOf (codedSymbols fs).length := by
    rw [rootOf, if_neg hpos.ne']
    omega
  exact ⟨tree y.1, hslot ▸ htrees y hy, by simpa using hsyms⟩

end Sys2Proof.Machine
end

section
/-! SUPPORT. HUF_CODES: the codes it assigns to the tree of a frequency table, and what the command leaves
(spec/43_huffman.md R162, R165, R166). -/

namespace Sys2Proof.Machine

/-! ### A code list by symbol -/

/-- In a list with one code for each symbol, the code of a symbol is the one assigned to it. -/
theorem codeIn_of_mem {codes : List (Byte × List Bool)} (hnodup : (codes.map Prod.fst).Nodup) {c : Byte}
    {p : List Bool} (h : (c, p) ∈ codes) : codeIn codes c = p := by
  obtain ⟨l₁, l₂, hsplit⟩ := List.append_of_mem (List.mem_reverse.mpr h)
  have hnot : ∀ x ∈ l₁, (c != x.1) = true := fun x hx => by
    have hrev : (codes.reverse.map Prod.fst).Nodup := by rw [List.map_reverse]; exact List.nodup_reverse.mpr hnodup
    rw [hsplit, List.map_append, List.nodup_append] at hrev
    obtain ⟨-, -, hdisjoint⟩ := hrev
    exact bne_iff_ne.mpr (hdisjoint x.1 (List.mem_map_of_mem hx) c List.mem_cons_self).symm
  rw [codeIn, List.lookup_eq_some_iff.mpr ⟨l₁, l₂, hsplit, hnot⟩, Option.getD_some]

/-- A symbol that is not in the list has no code. -/
theorem codeIn_of_notMem {codes : List (Byte × List Bool)} {c : Byte} (h : c ∉ codes.map Prod.fst) :
    codeIn codes c = [] := by
  have hnone : codes.reverse.lookup c = none := List.lookup_eq_none_iff.mpr fun x hx =>
    bne_iff_ne.mpr fun heq => h (heq ▸ List.mem_map_of_mem (List.mem_reverse.mp hx))
  rw [codeIn, hnone, Option.getD_none]

/-- R162: the running maximum is at least its start and every length, and is one of them. -/
theorem foldl_max_length (codes : List (Byte × List Bool)) (n : Nat) :
    (n ≤ codes.foldl (fun m x => max m x.2.length) n ∧
      ∀ x ∈ codes, x.2.length ≤ codes.foldl (fun m x => max m x.2.length) n) ∧
    (codes.foldl (fun m x => max m x.2.length) n = n ∨
      ∃ x ∈ codes, x.2.length = codes.foldl (fun m x => max m x.2.length) n) := by
  induction codes generalizing n with
  | nil => exact ⟨⟨le_rfl, by simp⟩, .inl rfl⟩
  | cons y ys ih =>
    obtain ⟨⟨hstart, hall⟩, hone⟩ := ih (max n y.2.length)
    rw [List.foldl_cons]
    refine ⟨⟨(le_max_left _ _).trans hstart, fun x hx => ?_⟩, ?_⟩
    · rcases List.mem_cons.mp hx with rfl | hx
      · exact (le_max_right _ _).trans hstart
      · exact hall x hx
    · rcases hone with heq | ⟨x, hx, heq⟩
      · rcases max_choice n y.2.length with hmax | hmax
        · exact .inl (heq.trans hmax)
        · exact .inr ⟨y, List.mem_cons_self, (heq.trans hmax).symm⟩
      · exact .inr ⟨x, List.mem_cons_of_mem _ hx, heq⟩

theorem le_maxLen {codes : List (Byte × List Bool)} {x : Byte × List Bool} (hx : x ∈ codes) :
    x.2.length ≤ maxLen codes :=
  (foldl_max_length codes 0).1.2 x hx

theorem maxLen_attained (codes : List (Byte × List Bool)) :
    maxLen codes = 0 ∨ ∃ x ∈ codes, x.2.length = maxLen codes :=
  (foldl_max_length codes 0).2

/-! ### The code table of a frequency table -/

/-- R162, R166: `codes` is the list HUF_CODES assigns when `TREE` holds the tree of the table `fs`: one code for each
symbol with a non-zero count. -/
structure IsCodeTable (fs : List Nat) (codes : List (Byte × List Bool)) : Prop where
  computed : ∀ s : State, HoldsTreeOf s fs → assignedCodes s = .ok codes
  symbols : (codes.map Prod.fst).Perm ((codedSymbols fs).map (BitVec.ofNat 8))
  length_range : ∀ x ∈ codes, 1 ≤ x.2.length ∧ x.2.length ≤ 255
  lone : (codedSymbols fs).length = 1 → ∀ x ∈ codes, x.2 = [false]
  leadsTo : 2 ≤ (codedSymbols fs).length → ∀ x ∈ codes,
    LeadsTo (buildNodes fs) (rootOf (codedSymbols fs).length) x.2 x.1
  prefixFree : 2 ≤ (codedSymbols fs).length → ∀ x ∈ codes, ∀ y ∈ codes, x.1 ≠ y.1 → ¬ x.2 <+: y.2
  kraft : 2 ≤ (codedSymbols fs).length → (codes.map fun x => 2 ^ (255 - x.2.length)).sum = 2 ^ 255

theorem HoldsTreeOf.root_eq {s : State} {fs : List Nat} (h : HoldsTreeOf s fs) :
    s.root.toNat = rootOf (codedSymbols fs).length := by
  obtain ⟨-, -, hroot⟩ := h
  exact hroot

/-- R162: no leaf, no code. -/
theorem isCodeTable_nil {fs : List Nat} (h : codedSymbols fs = []) : IsCodeTable fs [] where
  computed := fun s hs => by
    obtain ⟨-, hk, -⟩ := hs
    rw [assignedCodes, if_pos (by rw [hk, h]; rfl)]
  symbols := by rw [h]; rfl
  length_range := by simp
  lone := by simp
  leadsTo := by simp
  prefixFree := by simp
  kraft := by simp [h]

/-- R162: a lone leaf. -/
theorem isCodeTable_leaf {fs : List Nat} {c : Byte}
    (ht : TreeAt (buildNodes fs) (rootOf (codedSymbols fs).length) (.leaf c))
    (hsyms : [c].Perm ((codedSymbols fs).map (BitVec.ofNat 8))) : IsCodeTable fs [(c, [false])] := by
  have hone : (codedSymbols fs).length = 1 := by simpa using hsyms.length_eq.symm
  have hless : ¬ 2 ≤ (codedSymbols fs).length := by omega
  refine ⟨fun s hs => ?_, hsyms, by simp, by simp, fun h => absurd h hless, fun h => absurd h hless,
    fun h => absurd h hless⟩
  cases ht with
  | leaf hnode =>
    have hroot := hs.root_eq
    obtain ⟨hstored, hk, -⟩ := hs
    rw [assignedCodes, if_neg (by omega), if_pos (by omega), hroot, slotAt_of_treeStored hstored hnode]
    simp [Node.key]

/-- R162, R166: two leaves or more. -/
theorem isCodeTable_fork {fs : List Nat} {l r : CodeTree}
    (ht : TreeAt (buildNodes fs) (rootOf (codedSymbols fs).length) (.fork l r))
    (hsyms : (CodeTree.fork l r).symbols.Perm ((codedSymbols fs).map (BitVec.ofNat 8))) :
    IsCodeTable fs (CodeTree.fork l r).paths := by
  have hlen : (CodeTree.fork l r).symbols.length = (codedSymbols fs).length := by simpa using hsyms.length_eq
  have hdepth := (CodeTree.fork l r).depth_lt
  have hk := length_codedSymbols_le fs
  have htwo : 2 ≤ (codedSymbols fs).length := by
    rw [CodeTree.depth] at hdepth
    omega
  refine ⟨fun s hs => ?_, (CodeTree.map_fst_paths _).symm ▸ hsyms, fun x hx => ⟨?_, ?_⟩, fun h => by omega,
    fun _ x hx => ht.leadsTo hx, fun _ x hx y hy => CodeTree.paths_prefixFree hx hy, fun _ => CodeTree.kraft (by omega)⟩
  · have hroot := hs.root_eq
    obtain ⟨hstored, hleaves, -⟩ := hs
    rw [assignedCodes, if_neg (by omega), if_neg (by omega), hroot, ht.walkCodes_eq hstored (by omega)]
    simp
  · rcases List.mem_append.mp hx with hx | hx <;> obtain ⟨y, -, rfl⟩ := List.mem_map.mp hx <;>
      exact Nat.succ_pos _
  · exact (CodeTree.length_le_depth hx).trans (by omega)

/-- R162: every frequency table has its code table. -/
theorem exists_isCodeTable {fs : List Nat} (h : fs.length = 256) : ∃ codes, IsCodeTable fs codes := by
  by_cases hne : codedSymbols fs = []
  · exact ⟨_, isCodeTable_nil hne⟩
  · obtain ⟨t, ht, hsyms⟩ := exists_treeAt_root h hne
    cases t with
    | leaf c => exact ⟨_, isCodeTable_leaf ht hsyms⟩
    | fork l r => exact ⟨_, isCodeTable_fork ht hsyms⟩

theorem mem_codedSymbols_iff {fs : List Nat} {c : Byte} :
    c ∈ (codedSymbols fs).map (BitVec.ofNat 8) ↔ 0 < fs.getD c.toNat 0 := by
  constructor
  · intro h
    obtain ⟨i, hi, rfl⟩ := List.mem_map.mp h
    rw [BitVec.toNat_ofNat, Nat.mod_eq_of_lt (lt_of_mem_codedSymbols hi)]
    exact of_decide_eq_true (List.mem_filter.mp hi).2
  · intro h
    refine List.mem_map.mpr ⟨c.toNat, List.mem_filter.mpr ⟨List.mem_range.mpr c.isLt, decide_eq_true h⟩, by simp⟩

theorem nodup_codedSymbols (fs : List Nat) : ((codedSymbols fs).map (BitVec.ofNat 8)).Nodup := by
  refine (List.nodup_range.filter _).map_on fun i hi j hj h => ?_
  have heq := congrArg BitVec.toNat h
  rwa [BitVec.toNat_ofNat, BitVec.toNat_ofNat, Nat.mod_eq_of_lt (lt_of_mem_codedSymbols hi),
    Nat.mod_eq_of_lt (lt_of_mem_codedSymbols hj)] at heq

theorem IsCodeTable.codeIn_eq {fs : List Nat} {codes : List (Byte × List Bool)} (h : IsCodeTable fs codes)
    {x : Byte × List Bool} (hx : x ∈ codes) : codeIn codes x.1 = x.2 :=
  codeIn_of_mem (h.symbols.nodup_iff.mpr (nodup_codedSymbols fs)) hx

/-- R162: a symbol with a non-zero count has its code in the list. -/
theorem IsCodeTable.mem_codes {fs : List Nat} {codes : List (Byte × List Bool)} (h : IsCodeTable fs codes) {c : Byte}
    (hc : 0 < fs.getD c.toNat 0) : (c, codeIn codes c) ∈ codes := by
  obtain ⟨x, hx, rfl⟩ := List.mem_map.mp (h.symbols.mem_iff.mpr (mem_codedSymbols_iff.mpr hc))
  rwa [h.codeIn_eq hx]

/-- R162: a symbol with count 0 has no code. -/
theorem IsCodeTable.codeIn_eq_nil {fs : List Nat} {codes : List (Byte × List Bool)} (h : IsCodeTable fs codes)
    {c : Byte} (hc : fs.getD c.toNat 0 = 0) : codeIn codes c = [] :=
  codeIn_of_notMem fun hmem => (mem_codedSymbols_iff.mp (h.symbols.mem_iff.mp hmem)).ne' hc

theorem IsCodeTable.length_codeIn_le {fs : List Nat} {codes : List (Byte × List Bool)} (h : IsCodeTable fs codes)
    (c : Byte) : (codeIn codes c).length ≤ 255 ∧ (codeIn codes c).length ≤ maxLen codes := by
  rcases Nat.eq_zero_or_pos (fs.getD c.toNat 0) with hc | hc
  · rw [h.codeIn_eq_nil hc]
    exact ⟨Nat.zero_le _, Nat.zero_le _⟩
  · have hmem := h.mem_codes hc
    exact ⟨(h.length_range _ hmem).2, le_maxLen hmem⟩

theorem IsCodeTable.maxLen_le {fs : List Nat} {codes : List (Byte × List Bool)} (h : IsCodeTable fs codes) :
    maxLen codes ≤ 255 := by
  rcases maxLen_attained codes with heq | ⟨x, hx, heq⟩
  · omega
  · exact heq ▸ (h.length_range x hx).2

/-- R162: `RES0` is the length of some symbol's code. -/
theorem IsCodeTable.exists_length_eq_maxLen {fs : List Nat} {codes : List (Byte × List Bool)}
    (h : IsCodeTable fs codes) : ∃ c, (codeIn codes c).length = maxLen codes := by
  rcases maxLen_attained codes with heq | ⟨x, hx, heq⟩
  · exact ⟨0#8, Nat.le_antisymm (h.length_codeIn_le _).2 (heq.le.trans (Nat.zero_le _))⟩
  · exact ⟨x.1, by rw [h.codeIn_eq hx, heq]⟩

/-- R166: the Kraft sum over the coded symbols. -/
theorem IsCodeTable.kraft_codedSymbols {fs : List Nat} {codes : List (Byte × List Bool)} (h : IsCodeTable fs codes)
    (hk : 2 ≤ (codedSymbols fs).length) :
    ((codedSymbols fs).map fun c => 2 ^ (255 - (codeIn codes (BitVec.ofNat 8 c)).length)).sum = 2 ^ 255 := by
  have hperm := (h.symbols.map fun c => 2 ^ (255 - (codeIn codes c).length)).sum_eq
  rw [List.map_map, List.map_map] at hperm
  refine hperm.symm.trans (Eq.trans (congrArg List.sum (List.map_congr_left fun x hx => ?_)) (h.kraft hk))
  rw [Function.comp, h.codeIn_eq hx]

/-! ### The command -/

/-- The state HUF_CODES leaves when it assigns `codes`. -/
def State.withCodes (s : State) (codes : List (Byte × List Bool)) : State :=
  { s with
    res0 := wordOf (maxLen codes)
    res1 := s.nleaf
    status := { s.status.succeeded with codev := true }
    mem := (s.storeWords .code 0 (codeWords codes)).mem }

/-- R162: HUF_CODES with a tree. -/
theorem exec_hufCodes {s : State} {fs : List Nat} {codes : List (Byte × List Bool)} (hp : s.srstPend = false)
    (hv : s.status.treev = true) (hs : HoldsTreeOf s fs) (h : IsCodeTable fs codes) :
    exec .hufCodes s = .next (s.withCodes codes) := by
  have hassigned : assignedCodes (begin s) = .ok codes := h.computed (begin s) hs
  have hrun : runOf .hufCodes (begin s) = .done ()
      ({ (begin s).storeWords .code 0 (codeWords codes) with status := s.status.codesBuilt }.setRes (maxLen codes)
        s.nleaf.toNat) := by
    rw [runOf, runHufCodes, hassigned]
    exact if_neg (by simp [hv])
  rw [exec_of_done hrun hp, State.setRes, wordOf_toNat]
  rfl

/-- R162: each symbol's entry of `CODE` holds its code. -/
theorem codeIs_withCodes (s : State) (codes : List (Byte × List Bool)) (c : Byte) :
    (s.withCodes codes).codeIs c (codeIn codes c) :=
  codeIs_of_codeWords (holdsWords_storeWords s .code 0 (codeWords codes)) c

/-- Settles O40: the codes of the table's tree, by symbol; without a tree the check before them. -/
theorem hufCodesWritesThePaths : Obligations.HufCodesWritesThePaths := by
  refine ⟨by decide, fun s hp => ⟨fun fs hv hfs hs => ?_, fun hv =>
    exec_of_raised (i := .hufCodes) (runHufCodes_sequence (s := begin s) hv) hp⟩⟩
  obtain ⟨codes, h⟩ := exists_isCodeTable hfs.1
  have he := exec_hufCodes hp hv hs h
  obtain ⟨-, -, -, -, hsame⟩ := exec_next he
  have hres : (s.withCodes codes).res0.toNat = maxLen codes := toNat_wordOf (by have := h.maxLen_le; omega)
  have hroot := hs.root_eq
  obtain ⟨-, hk, -⟩ := hs
  refine ⟨_, codeIn codes, he, rfl, codeIs_withCodes s codes, hsame, fun c => ?_, ?_, fun c =>
    ⟨h.codeIn_eq_nil, fun hc hone => ?_, fun hc htwo => ?_⟩⟩
  · rw [hres]
    exact h.length_codeIn_le c
  · rw [hres]
    exact h.exists_length_eq_maxLen
  · exact h.lone (hk ▸ hone) _ (h.mem_codes hc)
  · rw [hroot]
    exact ⟨(h.length_range _ (h.mem_codes hc)).1, h.leadsTo (hk ▸ htwo) _ (h.mem_codes hc)⟩

/-- Settles O41: the codes are the paths of one tree. -/
theorem codesArePrefixFree : Obligations.CodesArePrefixFree := by
  intro s fs hp hv hfs hs
  obtain ⟨codes, h⟩ := exists_isCodeTable hfs.1
  have he := exec_hufCodes hp hv hs h
  obtain ⟨-, hk, -⟩ := hs
  refine ⟨_, codeIn codes, he, codeIs_withCodes s codes, fun htwo => ⟨fun a b ha hb hne => ?_, ?_⟩,
    fun hone c hc => h.lone (hk ▸ hone) _ (h.mem_codes hc)⟩
  · exact h.prefixFree (hk ▸ htwo) _ (h.mem_codes ha) _ (h.mem_codes hb) hne
  · exact h.kraft_codedSymbols (hk ▸ htwo)

/-! ### HUF_BUILD and HUF_CODES one after the other -/

theorem commands_cons {i : Instr} {a0 a1 : Word} {s t : State} (h : command i a0 a1 s = .next t)
    (cs : List (Instr × Word × Word)) : commands ((i, a0, a1) :: cs) s = commands cs t := by
  rw [commands, h, andThen]

/-- R161, R162: HUF_BUILD and then HUF_CODES on a written table. -/
theorem command_hufBuild_hufCodes {s : State} {ws : List Word} {codes : List (Byte × List Bool)}
    (hp : s.srstPend = false) (hlen : ws.length = 256) (hws : s.holdsWords .freq 0 ws)
    (h : IsCodeTable (ws.map BitVec.toNat) codes) :
    ∃ t u, t = (issued .hufBuild 0#32 0#32 s).treeOf (ws.map BitVec.toNat) ∧
      u = (issued .hufCodes 0#32 0#32 t).withCodes codes ∧
      command .hufBuild 0#32 0#32 s = .next t ∧ command .hufCodes 0#32 0#32 t = .next u := by
  have hbuild := exec_hufBuild (s := issued .hufBuild 0#32 0#32 s) hp hlen hws
  refine ⟨_, _, rfl, rfl, hbuild, exec_hufCodes hp rfl ?_ h⟩
  exact holdsTreeOf_treeOf (s := issued .hufBuild 0#32 0#32 s) (isFreqTable_map_toNat hlen)

theorem length_treeWords_buildNodes {fs : List Nat} (h : fs.length = 256) :
    (treeWords (buildNodes fs)).length = 2048 := by
  refine treeWords_length _ ?_
  rw [length_buildNodes h]
  exact (nnodeOf_le (length_codedSymbols_le _)).trans (by omega)

/-- R165: all bytes of `TREE` and `CODE` after HUF_BUILD and HUF_CODES, from the table and its codes. -/
theorem commands_hufBuild_hufCodes {s : State} {ws : List Word} {codes : List (Byte × List Bool)}
    (hp : s.srstPend = false) (hlen : ws.length = 256) (hws : s.holdsWords .freq 0 ws)
    (h : IsCodeTable (ws.map BitVec.toNat) codes) :
    ∃ u, commands [(.hufBuild, 0#32, 0#32), (.hufCodes, 0#32, 0#32)] s = .next u ∧
      (∀ o, o < 8192 →
        u.byteAt .tree o = ((treeWords (buildNodes (ws.map BitVec.toNat))).flatMap wordBytes)[o]?) ∧
      ∀ o, o < 16384 → u.byteAt .code o = ((codeWords codes).flatMap wordBytes)[o]? := by
  have htree := length_treeWords_buildNodes (isFreqTable_map_toNat hlen).1
  obtain ⟨t, u, rfl, rfl, hbuild, hcodes⟩ := command_hufBuild_hufCodes hp hlen hws h
  refine ⟨_, by rw [commands_cons hbuild, commands_cons hcodes, commands], fun o ho => ?_, fun o ho => ?_⟩
  · refine (byteAt_storeWords _ .code .tree 0 o _).trans ?_
    rw [if_neg (by simp)]
    refine (byteAt_storeWords _ .tree .tree 0 o _).trans ?_
    rw [if_pos ⟨rfl, by omega, by omega⟩]
    rfl
  · refine (byteAt_storeWords _ .code .code 0 o _).trans ?_
    rw [if_pos ⟨rfl, by omega, by rw [codeWords_length]; omega⟩]
    rfl

/-- Settles O49: the bytes of both memories are functions of the table alone. -/
theorem treeAndCodesDependOnFreqAlone : Obligations.TreeAndCodesDependOnFreqAlone := by
  intro s1 s2 ws hp1 hp2 hlen hws1 hws2
  have hfs := isFreqTable_map_toNat hlen
  obtain ⟨codes, h⟩ := exists_isCodeTable hfs.1
  obtain ⟨u1, he1, htree1, hcode1⟩ := commands_hufBuild_hufCodes hp1 hlen hws1 h
  obtain ⟨u2, he2, htree2, hcode2⟩ := commands_hufBuild_hufCodes hp2 hlen hws2 h
  refine ⟨u1, u2, he1, he2, fun o ho => ?_, fun o ho => ?_⟩
  · rw [htree1 o ho, htree2 o ho, List.getElem?_eq_getElem
      (by rw [flatMap_wordBytes_length, length_treeWords_buildNodes hfs.1]; omega)]
    exact ⟨rfl, rfl⟩
  · rw [hcode1 o ho, hcode2 o ho,
      List.getElem?_eq_getElem (by rw [flatMap_wordBytes_length, codeWords_length]; omega)]
    exact ⟨rfl, rfl⟩

end Sys2Proof.Machine
end

section
/-! SUPPORT. HUF_ENCODE and HUF_DECODE along the codes of their symbols: the codes appended one after the other or the
first that does not fit, and the walks that read them back (spec/43_huffman.md R163, R164). -/

namespace Sys2Proof.Machine

/-! ### Encoding -/

/-- What HUF_ENCODE needs from `src[i]` on: the symbols `xs` are written, and each has a code in `CODE`. -/
structure ReadyToEncode (s : State) (b : Buf) (i : Nat) (xs : List Byte) (code : Byte → List Bool) : Prop where
  legal : s.cfg.legal
  source : s.holds (bufWindow b) i xs
  partialByte : s.partialByteWritten
  codes : ∀ c ∈ xs, code c ≠ [] ∧ (code c).length ≤ 255 ∧ s.codeIs c (code c)

section
variable {s : State} {b : Buf} {i : Nat} {c : Byte} {cs : List Byte} {code : Byte → List Bool}

/-- The next symbol and its length, as HUF_ENCODE reads them. -/
theorem ReadyToEncode.reads (h : ReadyToEncode s b i (c :: cs) code) :
    s.byteAt (bufWindow b) i = some c ∧ s.codeLen c = some (code c).length ∧ (code c).length ≠ 0 ∧
      s.codeBits c 0 (code c).length = some (code c) := by
  obtain ⟨hne, hlen, hcode⟩ := h.codes c List.mem_cons_self
  exact ⟨h.source 0 (Nat.succ_pos _), codeLen_of_codeIs hcode hlen, fun h => hne (List.length_eq_zero_iff.mp h),
    codeBits_of_codeIs hcode hlen (Nat.zero_add _)⟩

/-- R163: a code that does not fit is `BUFFER_OVERFLOW`. -/
theorem ReadyToEncode.encodeFrom_overflow (h : ReadyToEncode s b i (c :: cs) code)
    (hover : 8 * s.cfg.bitcap < s.wbits.toNat + (code c).length) (k : Nat) :
    encodeFrom b i (k + 1) s = .raised .bufferOverflow (s.setRes i s.wbits.toNat) := by
  obtain ⟨hbyte, hlen, hpos, -⟩ := h.reads
  rw [encodeFrom, hbyte]
  dsimp only
  rw [hlen]
  dsimp only
  rw [if_neg hpos, if_pos hover]

/-- R163: a code that fits is appended, and the loop goes on with the next symbol. -/
theorem ReadyToEncode.encodeFrom_fits (h : ReadyToEncode s b i (c :: cs) code)
    (hfit : s.wbits.toNat + (code c).length ≤ 8 * s.cfg.bitcap) :
    ∃ t, (∀ k, encodeFrom b i (k + 1) s = encodeFrom b (i + 1) k t) ∧ BitsAppended s (code c) t ∧
      t.wbits.toNat = s.wbits.toNat + (code c).length ∧ t.cfg = s.cfg ∧ ReadyToEncode t b (i + 1) cs code := by
  have hcap := bitcap_le_of_legal h.legal
  have hlt : s.wbits.toNat + (code c).length < 2 ^ 32 := by omega
  obtain ⟨hbyte, hlen, hpos, hbits⟩ := h.reads
  obtain ⟨t, ht, happ⟩ := putBits_appends (code c) h.partialByte hlt
  have hf : Frame [.bits] [.writer] s t := by
    have hf := putBits_framed (code c) s
    rwa [ht] at hf
  refine ⟨t, fun k => ?_, happ, by rw [happ.1]; exact toNat_wordOf hlt, hf.cfg, hf.cfg ▸ h.legal, fun j hj => ?_,
    happ.partialByteWritten hlt h.partialByte, fun d hd => ?_⟩
  · rw [encodeFrom, hbyte]
    dsimp only
    rw [hlen]
    dsimp only
    rw [if_neg hpos, if_neg hfit.not_gt, hbits]
    dsimp only
    rw [ht]
  · rw [hf.mem (bufWindow b) (by cases b <;> decide), Nat.add_assoc, Nat.add_comm 1]
    exact h.source (j + 1) (Nat.succ_lt_succ hj)
  · obtain ⟨hne, hle, hcode⟩ := h.codes d (List.mem_cons_of_mem _ hd)
    exact ⟨hne, hle, codeIs_congr hcode fun o => hf.mem .code (by decide) o⟩

end

section
variable {b : Buf} {xs : List Byte} {code : Byte → List Bool}

/-- R163: codes that all fit are appended in order. -/
theorem ReadyToEncode.encodeFrom_done {i : Nat} {s : State} (h : ReadyToEncode s b i xs code)
    (hfit : s.wbits.toNat + (xs.flatMap code).length ≤ 8 * s.cfg.bitcap) :
    ∃ t, encodeFrom b i xs.length s = .done () t ∧ BitsAppended s (xs.flatMap code) t := by
  induction xs generalizing i s with
  | nil => exact ⟨_, rfl, bitsAppended_nil s⟩
  | cons c cs ih =>
    have hcap := bitcap_le_of_legal h.legal
    rw [List.flatMap_cons, List.length_append] at hfit
    obtain ⟨t, hstep, happ, hw, hcfg, ht⟩ := h.encodeFrom_fits (by omega)
    obtain ⟨u, hu, hrest⟩ := ih ht (by rw [hw, hcfg]; omega)
    exact ⟨u, by rw [List.length_cons, hstep, hu], happ.append hrest (by omega)⟩

/-- R163, R202: codes that do not all fit end in `BUFFER_OVERFLOW`. -/
theorem ReadyToEncode.encodeFrom_raised {i : Nat} {s : State} (h : ReadyToEncode s b i xs code)
    (hw : s.wbits.toNat ≤ 8 * s.cfg.bitcap) (hover : 8 * s.cfg.bitcap < s.wbits.toNat + (xs.flatMap code).length) :
    ∃ t, encodeFrom b i xs.length s = .raised .bufferOverflow t := by
  induction xs generalizing i s with
  | nil => exact absurd hover hw.not_gt
  | cons c cs ih =>
    rcases lt_or_ge (8 * s.cfg.bitcap) (s.wbits.toNat + (code c).length) with hc | hc
    · exact ⟨_, h.encodeFrom_overflow hc _⟩
    · rw [List.flatMap_cons, List.length_append] at hover
      obtain ⟨t, hstep, -, htw, hcfg, ht⟩ := h.encodeFrom_fits hc
      obtain ⟨u, hu⟩ := ih ht (by rw [htw, hcfg]; exact hc) (by rw [htw, hcfg]; omega)
      exact ⟨u, by rw [List.length_cons, hstep, hu]⟩

/-- R163: HUF_ENCODE with a code table and a length in range is its loop. -/
theorem runHufEncode_eq {s : State} (hv : s.status.codev = true) (hn : s.latch.a0.toNat = xs.length)
    (hcap : xs.length ≤ s.cfg.nbuf) : runHufEncode b s = encodeFrom b 0 xs.length s := by
  rw [runHufEncode, if_neg (by simp [hv]), State.argN, hn, if_neg (by omega)]

/-- R163: HUF_ENCODE of symbols whose codes fit. -/
theorem exec_hufEncode {s : State} (hp : s.srstPend = false) (hv : s.status.codev = true)
    (hn : s.latch.a0.toNat = xs.length) (hcap : xs.length ≤ s.cfg.nbuf) (h : ReadyToEncode s b 0 xs code)
    (hfit : s.wbits.toNat + (xs.flatMap code).length ≤ 8 * s.cfg.bitcap) :
    ∃ t, exec (.hufEncode b) s = .next t ∧ t.status.err = false ∧ BitsAppended s (xs.flatMap code) t := by
  have hready : ReadyToEncode (begin s) b 0 xs code := ⟨h.legal, h.source, h.partialByte, h.codes⟩
  obtain ⟨t, ht, happ⟩ := hready.encodeFrom_done hfit
  have hrun : runOf (.hufEncode b) (begin s) = .done () t := (runHufEncode_eq (s := begin s) hv hn hcap).trans ht
  exact ⟨_, exec_of_done hrun hp, rfl, happ⟩

/-- R163: HUF_ENCODE of symbols whose codes do not fit. -/
theorem exec_hufEncode_overflow {s : State} (hp : s.srstPend = false) (hv : s.status.codev = true)
    (hn : s.latch.a0.toNat = xs.length) (hcap : xs.length ≤ s.cfg.nbuf) (h : ReadyToEncode s b 0 xs code)
    (hw : s.wbits.toNat ≤ 8 * s.cfg.bitcap) (hover : 8 * s.cfg.bitcap < s.wbits.toNat + (xs.flatMap code).length) :
    ∃ t, exec (.hufEncode b) s = .next t ∧ t.status.err = true ∧ t.status.errcode = 6#4 := by
  have hready : ReadyToEncode (begin s) b 0 xs code := ⟨h.legal, h.source, h.partialByte, h.codes⟩
  obtain ⟨t, ht⟩ := hready.encodeFrom_raised hw hover
  have hrun : runOf (.hufEncode b) (begin s) = .raised .bufferOverflow t :=
    (runHufEncode_eq (s := begin s) hv hn hcap).trans ht
  exact ⟨_, exec_of_raised hrun hp, rfl, rfl⟩

end

/-! ### Decoding -/

/-- R121: the stream is read from `BITS` alone. -/
theorem streamHolds_congr {s t : State} {p : Nat} {bits : List Bool} (h : s.streamHolds p bits)
    (hb : ∀ o, t.byteAt .bits o = s.byteAt .bits o) : t.streamHolds p bits := by
  intro j hj
  rw [← h j hj, State.streamAt, State.streamAt, hb]

theorem streamHolds_append {s : State} {p : Nat} {xs ys : List Bool} :
    s.streamHolds p (xs ++ ys) ↔ s.streamHolds p xs ∧ s.streamHolds (p + xs.length) ys := by
  constructor
  · refine fun h => ⟨fun j hj => ?_, fun j hj => ?_⟩
    · rw [h j (by rw [List.length_append]; omega), List.getElem?_append_left hj]
    · rw [Nat.add_assoc, h _ (by rw [List.length_append]; omega), List.getElem?_append_right (Nat.le_add_right _ _),
        Nat.add_sub_cancel_left]
  · rintro ⟨hx, hy⟩ j hj
    rcases lt_or_ge j xs.length with hlt | hge
    · rw [hx j hlt, List.getElem?_append_left hlt]
    · rw [List.length_append] at hj
      rw [List.getElem?_append_right hge, ← hy _ (by omega), Nat.add_assoc, Nat.add_sub_cancel' hge]

/-- A bit string that goes on leads through an internal node. -/
theorem descend_cons_eq_some {nodes : List Node} {i j : Nat} {v : Bool} {bits : List Bool}
    (h : descend nodes i (v :: bits) = some j) :
    ∃ key l r f, nodes[i]? = some (.internal key l r f) ∧ descend nodes (bif v then r else l) bits = some j := by
  rw [descend] at h
  split at h
  next key l r f hnode => exact ⟨key, l, r, f, hnode, by rwa [Bool.cond_eq_ite]⟩
  next => cases h

/-- R164: the inner loop follows the stream to the leaf it leads to. -/
theorem walkDown_leadsTo {nodes : List Node} {c : Byte} {bits : List Bool} (i start : Nat) {s : State} {node : Nat}
    (hs : TreeStored s nodes) (hlead : LeadsTo nodes node bits c) (hbits : s.streamHolds s.rcur.toNat bits)
    (hlim : s.rcur.toNat + bits.length ≤ s.rlim.toNat) :
    walkDown i start (s.rlim.toNat - s.rcur.toNat) node s = .done c (s.setRcur (s.rcur.toNat + bits.length)) := by
  obtain ⟨j, f, hdown, hleaf⟩ := hlead
  induction bits generalizing s node with
  | nil =>
    obtain rfl : node = j := Option.some.inj hdown
    have hslot := slotAt_of_treeStored hs hleaf
    have hself : s.setRcur (s.rcur.toNat + ([] : List Bool).length) = s := by
      rw [List.length_nil, Nat.add_zero, State.setRcur, wordOf_toNat]
    rw [hself]
    cases s.rlim.toNat - s.rcur.toNat <;> rw [walkDown, hslot]
  | cons v bits ih =>
    rw [List.length_cons] at hlim
    obtain ⟨key, l, r, fr, hnode, hnext⟩ := descend_cons_eq_some hdown
    have hslot := slotAt_of_treeStored hs hnode
    have hcur : (s.setRcur (s.rcur.toNat + 1)).rcur.toNat = s.rcur.toNat + 1 := toNat_wordOf (by omega)
    obtain ⟨hfirst, hrest⟩ := streamHolds_append (xs := [v]).mp hbits
    have hget := getBit_done (by omega) (hfirst 0 Nat.zero_lt_one)
    obtain ⟨left, hleft⟩ : ∃ left, s.rlim.toNat - s.rcur.toNat = left + 1 := ⟨_, (Nat.sub_add_cancel (by omega)).symm⟩
    have htail := ih (s := s.setRcur (s.rcur.toNat + 1)) (node := bif v then r else l)
      (treeStored_congr hs fun _ => rfl) (by rw [hcur]; exact streamHolds_congr hrest fun _ => rfl)
      (by rw [hcur, State.setRcur_rlim]; omega) hnext
    rw [hcur, State.setRcur_rlim, show s.rlim.toNat - (s.rcur.toNat + 1) = left by omega] at htail
    rw [hleft, walkDown, hslot]
    dsimp only
    rw [hget]
    refine htail.trans ?_
    rw [Nat.add_assoc, Nat.add_comm 1, List.length_cons]
    rfl

theorem tree_ne_bufWindow (b : Buf) : Window.tree ≠ bufWindow b := by cases b <;> decide
theorem bits_ne_bufWindow (b : Buf) : Window.bits ≠ bufWindow b := by cases b <;> decide

/-- R164: the outer loop writes the symbols whose codes the stream holds, and leaves the bytes before them. -/
theorem decodeFrom_leadsTo {nodes : List Node} {b : Buf} {xs : List Byte} {code : Byte → List Bool} (start i : Nat)
    {s : State} (hs : TreeStored s nodes) (hlead : ∀ x ∈ xs, LeadsTo nodes s.root.toNat (code x) x)
    (hbits : s.streamHolds s.rcur.toNat (xs.flatMap code))
    (hlim : s.rcur.toNat + (xs.flatMap code).length ≤ s.rlim.toNat) :
    ∃ t, decodeFrom b start i xs.length s = .done () t ∧ t.holds (bufWindow b) i xs ∧
      ∀ o, o < i → t.byteAt (bufWindow b) o = s.byteAt (bufWindow b) o := by
  induction xs generalizing i s with
  | nil => exact ⟨_, rfl, fun j hj => absurd hj (Nat.not_lt_zero j), fun _ _ => rfl⟩
  | cons c cs ih =>
    rw [List.flatMap_cons] at hbits hlim
    rw [List.length_append] at hlim
    obtain ⟨hfirst, hrest⟩ := streamHolds_append.mp hbits
    have hwalk := walkDown_leadsTo i start hs (hlead c List.mem_cons_self) hfirst (by omega)
    have hcur : (s.setRcur (s.rcur.toNat + (code c).length)).rcur.toNat = s.rcur.toNat + (code c).length :=
      toNat_wordOf (by omega)
    obtain ⟨t, ht, hheld, hbefore⟩ := ih (i + 1)
      (s := (s.setRcur (s.rcur.toNat + (code c).length)).storeBytes (bufWindow b) i [c])
      (treeStored_congr hs fun o => State.byteAt_storeBytes_ne _ i o [c] (tree_ne_bufWindow b))
      (fun x hx => hlead x (List.mem_cons_of_mem _ hx))
      (by
        rw [State.storeBytes_rcur, hcur]
        exact streamHolds_congr hrest fun o => State.byteAt_storeBytes_ne _ i o [c] (bits_ne_bufWindow b))
      (by rw [State.storeBytes_rcur, State.storeBytes_rlim, hcur, State.setRcur_rlim]; omega)
    refine ⟨t, ?_, fun j hj => ?_, fun o ho => ?_⟩
    · rw [List.length_cons, decodeFrom, hwalk]
      exact ht
    · cases j with
      | zero =>
        rw [Nat.add_zero, hbefore i (Nat.lt_succ_self i), State.byteAt_storeBytes, if_pos ⟨rfl, le_rfl, by simp⟩]
        simp
      | succ j =>
        rw [Nat.add_comm j, ← Nat.add_assoc, hheld j (Nat.lt_of_succ_lt_succ hj), Nat.add_comm 1,
          List.getElem?_cons_succ]
    · rw [hbefore o (by omega), State.byteAt_storeBytes, if_neg (by omega), State.byteAt_setRcur]

/-- R164: HUF_DECODE with a tree that is no lone leaf, over a stream that holds the codes of the symbols. -/
theorem exec_hufDecode {s : State} {b : Buf} {nodes : List Node} {xs : List Byte} {code : Byte → List Bool}
    (hp : s.srstPend = false) (hv : s.status.treev = true) (hn : s.latch.a0.toNat = xs.length)
    (hcap : xs.length ≤ s.cfg.nbuf) (hone : s.nleaf.toNat ≠ 1) (hzero : xs ≠ [] → s.nleaf.toNat ≠ 0)
    (hs : TreeStored s nodes) (hlead : ∀ x ∈ xs, LeadsTo nodes s.root.toNat (code x) x)
    (hbits : s.streamHolds s.rcur.toNat (xs.flatMap code))
    (hlim : s.rcur.toNat + (xs.flatMap code).length ≤ s.rlim.toNat) (hmin : xs.length ≤ s.rlim.toNat - s.rcur.toNat) :
    ∃ t, exec (.hufDecode b) s = .next t ∧ t.status.err = false ∧ t.holds (bufWindow b) 0 xs := by
  obtain ⟨t, ht, hheld, -⟩ := decodeFrom_leadsTo (b := b) (s := begin s) s.rcur.toNat 0 hs hlead hbits hlim
  have hempty : ¬ (0 < xs.length ∧ s.nleaf.toNat = 0) := fun h => hzero (List.ne_nil_of_length_pos h.1) h.2
  have hrun : runOf (.hufDecode b) (begin s) = .done () t := by
    simp only [runOf, runHufDecode, State.argN, begin_latch, begin_status, begin_cfg, begin_nleaf, begin_rlim,
      begin_rcur, hn, hv]
    rw [if_neg (by simp), if_neg (by omega), if_neg hempty, if_neg (by omega), if_neg hone, ht]
  exact ⟨_, exec_of_done hrun hp, rfl, hheld⟩

/-- R164: HUF_DECODE with a lone leaf writes copies of its symbol and reads no bit. -/
theorem exec_hufDecode_lone {s : State} {b : Buf} {c : Byte} {f n : Nat} (hp : s.srstPend = false)
    (hv : s.status.treev = true) (hn : s.latch.a0.toNat = n) (hcap : n ≤ s.cfg.nbuf) (hone : s.nleaf.toNat = 1)
    (hslot : s.slotAt s.root.toNat = some (.leaf c f)) (hpos : n ≠ 0) :
    ∃ t, exec (.hufDecode b) s = .next t ∧ t.status.err = false ∧ t.holds (bufWindow b) 0 (List.replicate n c) ∧
      t.rcur = s.rcur := by
  have hread : (begin s).slotAt s.root.toNat = some (.leaf c f) := (slotAt_congr (fun _ => rfl) _).trans hslot
  have hrun : runOf (.hufDecode b) (begin s) = .done ()
      (((begin s).storeBytes (bufWindow b) 0 (List.replicate n c)).setRes n 0) := by
    simp only [runOf, runHufDecode, State.argN, begin_latch, begin_status, begin_cfg, begin_nleaf, begin_rlim,
      begin_rcur, hn, hv, hone, decodeLone, begin_root, hread]
    rw [if_neg (by simp), if_neg (by omega), if_neg (by omega), if_neg (by omega), if_pos trivial, if_neg hpos]
    simp [Node.key]
  exact ⟨_, exec_of_done hrun hp, rfl, holds_storeBytes (begin s) _ 0 _, rfl⟩

end Sys2Proof.Machine
end

section
/-! SUPPORT. The Huffman round trip: FREQ_COUNT, HUF_BUILD and HUF_CODES give every symbol of the sequence a code, and
what HUF_ENCODE appends HUF_DECODE reads back (spec/43_huffman.md R167). -/

namespace Sys2Proof.Machine

/-! ### A command line in between -/

/-- A command line leaves its frame, the parameters, and no pending soft reset. -/
theorem command_next {i : Instr} {a0 a1 : Word} {s t : State} (hp : s.srstPend = false)
    (h : command i a0 a1 s = .next t) :
    ∃ u o, Frame (writesOf i) (partsOf i) (begin (issued i a0 a1 s)) u ∧
      t = { u with status := u.status.completed o } := by
  obtain ⟨u, o, hf, rfl, -⟩ := exec_next h
  exact ⟨u, o, hf, complete_eq o u (hf.srstPend.trans hp)⟩

theorem command_keeps {i : Instr} {a0 a1 : Word} {s t : State} (hp : s.srstPend = false)
    (h : command i a0 a1 s = .next t) : t.srstPend = false ∧ t.cfg = s.cfg ∧ SameBut (writesOf i) s t := by
  obtain ⟨u, o, hf, rfl⟩ := command_next hp h
  exact ⟨hf.srstPend.trans hp, hf.cfg, hf.mem⟩

/-- `TREE` and `CODE` are ready for the codes `codes` of the table `fs`. -/
structure Prepared (s : State) (fs : List Nat) (codes : List (Byte × List Bool)) : Prop where
  noReset : s.srstPend = false
  treev : s.status.treev = true
  codev : s.status.codev = true
  tree : HoldsTreeOf s fs
  code : ∀ c, s.codeIs c (codeIn codes c)

/-- A command that writes neither memory and moves none of the registers keeps them ready. -/
theorem Prepared.keeps {s t : State} {fs : List Nat} {codes : List (Byte × List Bool)} (h : Prepared s fs codes)
    {i : Instr} {a0 a1 : Word} (hw : .tree ∉ writesOf i ∧ .code ∉ writesOf i)
    (hm : .tree ∉ partsOf i ∧ .codes ∉ partsOf i) (he : command i a0 a1 s = .next t) : Prepared t fs codes := by
  obtain ⟨u, o, hf, rfl⟩ := command_next h.noReset he
  obtain ⟨hstored, hnleaf, hroot⟩ := h.tree
  refine ⟨hf.srstPend.trans h.noReset, (hf.treev hm.1).trans h.treev, (hf.codev hm.2).trans h.codev,
    ⟨treeStored_congr hstored (hf.mem _ hw.1), ?_, ?_⟩, fun c => codeIs_congr (h.code c) (hf.mem _ hw.2)⟩
  · rw [← hnleaf]
    exact congrArg BitVec.toNat (hf.nleaf hm.1)
  · rw [← hroot]
    exact congrArg BitVec.toNat (hf.root hm.1)

/-! ### Counting, building, coding -/

/-- R160: a count of a sequence of fewer than `2^32` symbols fits its word. -/
theorem map_toNat_wordOf_frequencies {xs : List Byte} (h : xs.length < 2 ^ 32) :
    ((frequencies xs).map wordOf).map BitVec.toNat = frequencies xs := by
  rw [List.map_map]
  refine (List.map_congr_left fun f hf => ?_).trans (List.map_id _)
  obtain ⟨c, -, rfl⟩ := List.mem_map.mp hf
  exact toNat_wordOf (List.count_le_length.trans_lt h)

/-- R160, R161: as many leaves as distinct symbols. -/
theorem length_codedSymbols_frequencies (xs : List Byte) :
    (codedSymbols (frequencies xs)).length = xs.dedup.length := by
  rw [← length_leavesFrom_zero (length_frequencies xs), leavesFrom_length, ← distinct_frequencies, distinct]

theorem frequencies_pos_of_mem {xs : List Byte} {c : Byte} (h : c ∈ xs) : 0 < (frequencies xs).getD c.toNat 0 := by
  rw [List.getD_eq_getElem?_getD, frequencies_getElem?, Option.getD_some]
  exact List.count_pos_iff.mpr h

/-- R167: FREQ_COUNT, HUF_BUILD and HUF_CODES succeed and leave a code table of the sequence. -/
theorem commands_prepare {s : State} {b : Buf} {xs : List Byte} {n : Word} (hp : s.srstPend = false)
    (hn : n.toNat = xs.length) (hcap : xs.length ≤ s.cfg.nbuf) (hx : s.holds (bufWindow b) 0 xs) :
    ∃ (s1 s2 s3 : State) (codes : List (Byte × List Bool)),
      command (.freqCount b) n 0#32 s = .next s1 ∧ s1.status.err = false ∧
      command .hufBuild 0#32 0#32 s1 = .next s2 ∧ s2.status.err = false ∧
      command .hufCodes 0#32 0#32 s2 = .next s3 ∧ s3.status.err = false ∧
      s2.nleaf = wordOf xs.dedup.length ∧ s3.cfg = s.cfg ∧ s3.holds (bufWindow b) 0 xs ∧
      IsCodeTable (frequencies xs) codes ∧ Prepared s3 (frequencies xs) codes := by
  have htable := map_toNat_wordOf_frequencies (xs := xs) (hn ▸ n.isLt)
  obtain ⟨codes, hcodes⟩ := exists_isCodeTable (length_frequencies xs)
  have he1 := exec_freqCount (s := issued (.freqCount b) n 0#32 s) hp hn hcap hx
  obtain ⟨hp1, hcfg1, hsame1⟩ := command_keeps hp he1
  obtain ⟨s2, s3, hs2, hs3, he2, he3⟩ := command_hufBuild_hufCodes hp1 (by simp)
    (holdsWords_storeWords (issued (.freqCount b) n 0#32 s) .freq 0 ((frequencies xs).map wordOf))
    (htable.symm ▸ hcodes)
  obtain ⟨hp2, hcfg2, hsame2⟩ := command_keeps hp1 he2
  obtain ⟨hp3, hcfg3, hsame3⟩ := command_keeps hp2 he3
  rw [htable] at hs2
  refine ⟨_, s2, s3, codes, he1, rfl, he2, by rw [hs2]; rfl, he3, by rw [hs3]; rfl, ?_,
    hcfg3.trans (hcfg2.trans hcfg1), fun j hj => ?_, hcodes, hp3, ?_, ?_, ?_, ?_⟩
  · rw [hs2, State.treeOf, length_codedSymbols_frequencies]
  · rw [hsame3 _ (by cases b <;> decide), hsame2 _ (by cases b <;> decide), hsame1 _ (by cases b <;> decide)]
    exact hx j hj
  · rw [hs3, hs2]
    rfl
  · rw [hs3]
    rfl
  · have hfs := isFreqTable_map_toNat (ws := (frequencies xs).map wordOf) (by simp)
    rw [htable] at hfs
    obtain ⟨hstored, hk, hroot⟩ := hs2 ▸ holdsTreeOf_treeOf hfs
    refine ⟨treeStored_congr hstored (hsame3 .tree (by decide)), ?_, ?_⟩
    · rw [hs3]
      exact hk
    · rw [hs3]
      exact hroot
  · rw [hs3]
    exact codeIs_withCodes _ codes

/-! ### Encoding and decoding -/

/-- R120: bits appended to an empty stream stand at its start. -/
theorem BitsAppended.streamHolds {s t : State} {bits : List Bool} (h : BitsAppended s bits t) (hw : s.wbits.toNat = 0) :
    t.streamHolds 0 bits := by
  intro j hj
  rw [h.2, hw, if_pos (by omega), List.getElem?_eq_getElem hj]
  simp [hj]

/-- R164: the tree of one distinct symbol is a lone leaf of that symbol. -/
theorem exists_lone_leaf {xs : List Byte} (hone : xs.dedup.length = 1) :
    ∃ c f, (buildNodes (frequencies xs))[rootOf (codedSymbols (frequencies xs)).length]? = some (.leaf c f) ∧
      ∀ x ∈ xs, x = c := by
  have hk := (length_codedSymbols_frequencies xs).trans hone
  obtain ⟨t, ht, hsyms⟩ := exists_treeAt_root (length_frequencies xs) (List.ne_nil_of_length_pos (by omega))
  cases ht with
  | @leaf _ c f hnode =>
    exact ⟨c, f, hnode, fun x hx =>
      List.mem_singleton.mp (hsyms.mem_iff.mpr (mem_codedSymbols_iff.mpr (frequencies_pos_of_mem hx)))⟩
  | @fork _ _ _ _ _ tl tr =>
    have hl := tl.depth_lt
    have hr := tr.depth_lt
    have hlen := hsyms.length_eq
    rw [List.length_map, hk, CodeTree.symbols, List.length_append] at hlen
    omega

section
variable {xs : List Byte} {codes : List (Byte × List Bool)} (h : IsCodeTable (frequencies xs) codes)
include h

/-- R162: every symbol of the sequence has a code of at least one bit. -/
theorem codeIn_ne_nil {c : Byte} (hc : c ∈ xs) : codeIn codes c ≠ [] := by
  obtain ⟨hpos, -⟩ := h.length_range _ (h.mem_codes (frequencies_pos_of_mem hc))
  exact List.ne_nil_of_length_pos hpos

/-- R164: so the sequence has at least as many code bits as symbols. -/
theorem length_le_length_codeBits : xs.length ≤ (xs.flatMap (codeIn codes)).length := by
  rw [List.length_flatMap]
  have hle := List.card_nsmul_le_sum (xs.map fun c => (codeIn codes c).length) 1 fun k hk => by
    obtain ⟨c, hc, rfl⟩ := List.mem_map.mp hk
    exact List.length_pos_of_ne_nil (codeIn_ne_nil h hc)
  simpa using hle

/-- R167: one distinct symbol has one bit for each occurrence. -/
theorem length_codeBits_of_lone (hone : xs.dedup.length = 1) : (xs.flatMap (codeIn codes)).length = xs.length := by
  have hbit : ∀ c ∈ xs, codeIn codes c = [false] := fun c hc =>
    h.lone ((length_codedSymbols_frequencies xs).trans hone) _ (h.mem_codes (frequencies_pos_of_mem hc))
  rw [List.flatMap_congr hbit, ← List.map_eq_flatMap, List.length_map]

/-- R163: a prepared HCB whose source holds the sequence can encode it from the start of a stream. -/
theorem Prepared.readyToEncode {s : State} {b : Buf} {n : Word} (hs : Prepared s (frequencies xs) codes)
    (hlegal : s.cfg.legal) (hx : s.holds (bufWindow b) 0 xs) (hw : s.wbits.toNat = 0) :
    ReadyToEncode (issued (.hufEncode b) n 0#32 s) b 0 xs (codeIn codes) :=
  ⟨hlegal, hx, fun hmod => absurd (show s.wbits.toNat % 8 = 0 by rw [hw]) hmod,
    fun c hc => ⟨codeIn_ne_nil h hc, (h.length_codeIn_le c).1, hs.code c⟩⟩

/-- R167: HUF_ENCODE of a prepared HCB whose capacity holds the code bits. -/
theorem Prepared.command_hufEncode {s : State} {b : Buf} {n : Word} (hs : Prepared s (frequencies xs) codes)
    (hlegal : s.cfg.legal) (hn : n.toNat = xs.length) (hcap : xs.length ≤ s.cfg.nbuf)
    (hx : s.holds (bufWindow b) 0 xs) (hw : s.wbits.toNat = 0)
    (hfit : (xs.flatMap (codeIn codes)).length ≤ 8 * s.cfg.bitcap) :
    ∃ t, command (.hufEncode b) n 0#32 s = .next t ∧ t.status.err = false ∧
      t.wbits.toNat = (xs.flatMap (codeIn codes)).length ∧ t.streamHolds 0 (xs.flatMap (codeIn codes)) := by
  have hcapbits := bitcap_le_of_legal hlegal
  have hpos : (issued (.hufEncode b) n 0#32 s).wbits.toNat = 0 := hw
  obtain ⟨t, ht, herr, happ⟩ := exec_hufEncode (s := issued (.hufEncode b) n 0#32 s) hs.noReset hs.codev hn hcap
    (hs.readyToEncode h hlegal hx hw) (by rw [hpos, Nat.zero_add]; exact hfit)
  refine ⟨t, ht, herr, ?_, happ.streamHolds hpos⟩
  rw [happ.1, hpos, Nat.zero_add]
  exact toNat_wordOf (by omega)

/-- R167: HUF_ENCODE of a prepared HCB whose capacity does not hold the code bits. -/
theorem Prepared.command_hufEncode_overflow {s : State} {b : Buf} {n : Word}
    (hs : Prepared s (frequencies xs) codes) (hlegal : s.cfg.legal) (hn : n.toNat = xs.length)
    (hcap : xs.length ≤ s.cfg.nbuf) (hx : s.holds (bufWindow b) 0 xs) (hw : s.wbits.toNat = 0)
    (hover : 8 * s.cfg.bitcap < (xs.flatMap (codeIn codes)).length) :
    ∃ t, command (.hufEncode b) n 0#32 s = .next t ∧ t.status.err = true ∧ t.status.errcode = 6#4 := by
  have hpos : (issued (.hufEncode b) n 0#32 s).wbits.toNat = 0 := hw
  exact exec_hufEncode_overflow (s := issued (.hufEncode b) n 0#32 s) hs.noReset hs.codev hn hcap
    (hs.readyToEncode h hlegal hx hw) (by rw [hpos]; exact Nat.zero_le _) (by rw [hpos, Nat.zero_add]; exact hover)

/-- R167: a prepared HCB whose reader stands before the codes of the sequence decodes it; a lone leaf reads no bit. -/
theorem Prepared.command_hufDecode {s : State} {b : Buf} {n : Word} (hs : Prepared s (frequencies xs) codes)
    (hn : n.toNat = xs.length) (hcap : xs.length ≤ s.cfg.nbuf)
    (hbits : s.streamHolds s.rcur.toNat (xs.flatMap (codeIn codes)))
    (hlim : s.rcur.toNat + (xs.flatMap (codeIn codes)).length ≤ s.rlim.toNat) :
    ∃ t, command (.hufDecode b) n 0#32 s = .next t ∧ t.status.err = false ∧ t.holds (bufWindow b) 0 xs ∧
      (xs.dedup.length = 1 → t.rcur = s.rcur) := by
  have hroot := hs.tree.root_eq
  obtain ⟨hstored, hk, -⟩ := hs.tree
  have hdistinct := length_codedSymbols_frequencies xs
  have hmin := length_le_length_codeBits h
  by_cases hone : xs.dedup.length = 1
  · obtain ⟨c, f, hnode, hall⟩ := exists_lone_leaf hone
    have hne : xs.length ≠ 0 := fun hzero => by simp [List.length_eq_zero_iff.mp hzero] at hone
    have hslot : s.slotAt s.root.toNat = some (.leaf c f) := slotAt_of_treeStored hstored (hroot ▸ hnode)
    obtain ⟨u, hu, herr, hheld, hrcur⟩ := exec_hufDecode_lone (s := issued (.hufDecode b) n 0#32 s) (b := b)
      hs.noReset hs.treev hn hcap (show s.nleaf.toNat = 1 by omega) hslot hne
    rw [← List.eq_replicate_of_mem hall] at hheld
    exact ⟨u, hu, herr, hheld, fun _ => hrcur⟩
  · have hzero : xs ≠ [] → s.nleaf.toNat ≠ 0 := fun hne => by
      rw [hk, hdistinct]
      exact (List.length_pos_of_ne_nil (mt (List.dedup_eq_nil xs).mp hne)).ne'
    have hlead : ∀ x ∈ xs, LeadsTo (buildNodes (frequencies xs)) s.root.toNat (codeIn codes x) x := fun x hx => by
      have := hzero (List.ne_nil_of_mem hx)
      rw [hroot]
      exact h.leadsTo (by omega) _ (h.mem_codes (frequencies_pos_of_mem hx))
    obtain ⟨u, hu, herr, hheld⟩ := exec_hufDecode (s := issued (.hufDecode b) n 0#32 s) (b := b) hs.noReset hs.treev
      hn hcap (show s.nleaf.toNat ≠ 1 by omega) hzero hstored hlead hbits hlim
      (show xs.length ≤ s.rlim.toNat - s.rcur.toNat by omega)
    exact ⟨u, hu, herr, hheld, fun hc => absurd hc hone⟩

end

/-- R122: BW_INIT succeeds with the writer at 0. -/
theorem command_bwInit {s : State} (hp : s.srstPend = false) :
    ∃ t, command .bwInit 0#32 0#32 s = .next t ∧ t.status.err = false ∧ t.wbits.toNat = 0 :=
  ⟨_, exec_of_done (i := .bwInit) (s := issued .bwInit 0#32 0#32 s) rfl hp, rfl, rfl⟩

/-- R167: BW_FLUSH and BR_INIT after a stream written from position 0: its length in bytes, and the reader before its
first bit. -/
theorem commands_flush_rewind {s : State} {k : Nat} (hp : s.srstPend = false) (hlegal : s.cfg.legal)
    (hw : s.wbits.toNat = k) (hk : k ≤ 8 * s.cfg.bitcap) :
    ∃ t u, command .bwFlush 0#32 0#32 s = .next t ∧ t.status.err = false ∧ t.res0.toNat = (k + 7) / 8 ∧
      command .brInit 0#32 t.res0 t = .next u ∧ u.status.err = false ∧ u.rcur.toNat = 0 ∧
      u.rlim.toNat = 8 * ((k + 7) / 8) := by
  have hcap := bitcap_le_of_legal hlegal
  have hflush := exec_bwFlush (s := issued .bwFlush 0#32 0#32 s) hp
  obtain ⟨hp', hcfg, -⟩ := command_keeps hp hflush
  have hpad := add_padOf s.wbits.toNat
  rw [hw] at hpad
  have hres : (wordOf ((s.wbits.toNat + padOf s.wbits.toNat) / 8)).toNat = (k + 7) / 8 := by
    rw [hw, hpad, Nat.mul_div_cancel_left _ (by decide)]
    exact toNat_wordOf (by omega)
  refine ⟨_, _, hflush, rfl, hres, exec_brInit hp' ?_ (Nat.zero_le _), rfl, rfl, ?_⟩
  · show (wordOf ((s.wbits.toNat + padOf s.wbits.toNat) / 8)).toNat ≤ s.cfg.bitcap
    rw [hres]
    omega
  · show (wordOf (8 * (wordOf ((s.wbits.toNat + padOf s.wbits.toNat) / 8)).toNat)).toNat = _
    rw [hres]
    exact toNat_wordOf (by omega)

/-- R167: what follows the code table: HUF_ENCODE of codes that fit, BW_FLUSH, BR_INIT and HUF_DECODE. -/
theorem Prepared.roundTrip {s : State} {b : Buf} {xs : List Byte} {codes : List (Byte × List Bool)} {n : Word}
    (h : IsCodeTable (frequencies xs) codes) (hs : Prepared s (frequencies xs) codes) (hlegal : s.cfg.legal)
    (hn : n.toNat = xs.length) (hcap : xs.length ≤ s.cfg.nbuf) (hx : s.holds (bufWindow b) 0 xs)
    (hw : s.wbits.toNat = 0) (hfit : (xs.flatMap (codeIn codes)).length ≤ 8 * s.cfg.bitcap) :
    ∃ t u v r, command (.hufEncode b) n 0#32 s = .next t ∧ t.status.err = false ∧
      command .bwFlush 0#32 0#32 t = .next u ∧ u.status.err = false ∧
      u.res0.toNat = ((xs.flatMap (codeIn codes)).length + 7) / 8 ∧
      command .brInit 0#32 u.res0 u = .next v ∧ v.status.err = false ∧
      command (.hufDecode (otherBuf b)) n 0#32 v = .next r ∧ r.status.err = false ∧
      r.holds (bufWindow (otherBuf b)) 0 xs ∧ (xs.dedup.length = 1 → r.rcur = v.rcur) := by
  obtain ⟨t, ht, hterr, htw, htbits⟩ := hs.command_hufEncode h hlegal hn hcap hx hw hfit
  obtain ⟨hpt, hcfgt, -⟩ := command_keeps hs.noReset ht
  obtain ⟨u, v, hu, huerr, hures, hv, hverr, hvcur, hvlim⟩ :=
    commands_flush_rewind hpt (hcfgt ▸ hlegal) htw (hcfgt ▸ hfit)
  obtain ⟨hpu, hcfgu, hsameu⟩ := command_keeps hpt hu
  obtain ⟨-, hcfgv, hsamev⟩ := command_keeps hpu hv
  have hvprep : Prepared v (frequencies xs) codes :=
    ((hs.keeps (by simp [writesOf]) (by simp [partsOf]) ht).keeps (by decide) (by decide) hu).keeps (by decide)
      (by decide) hv
  have hvbits : v.streamHolds v.rcur.toNat (xs.flatMap (codeIn codes)) := by
    rw [hvcur]
    exact streamHolds_congr htbits fun o => (hsamev .bits (by decide) o).trans (hsameu .bits (by decide) o)
  obtain ⟨r, hr, hrerr, hrheld, hrcur⟩ := hvprep.command_hufDecode h (b := otherBuf b) hn
    (by rw [hcfgv, hcfgu, hcfgt]; exact hcap) hvbits (by rw [hvcur, hvlim]; omega)
  exact ⟨t, u, v, r, ht, hterr, hu, huerr, hures, hv, hverr, hr, hrerr, hrheld, hrcur⟩

/-- Settles O50: the code table of the sequence's counts, then the round trip or, when the code bits exceed the
capacity, the overflow. -/
theorem huffmanRoundTrip : Obligations.HuffmanRoundTrip := by
  intro s b xs n hp hlegal hn hcap hx
  obtain ⟨s1, s2, s3, codes, he1, herr1, he2, herr2, he3, herr3, hnleaf, hcfg3, hx3, h, hs3⟩ :=
    commands_prepare hp hn hcap hx
  obtain ⟨s4, he4, herr4, hw4⟩ := command_bwInit hs3.noReset
  obtain ⟨hp4, hcfg4, hsame4⟩ := command_keeps hs3.noReset he4
  have hs4 := hs3.keeps (by decide) (by decide) he4
  have hx4 : s4.holds (bufWindow b) 0 xs := fun j hj => (hsame4 _ (by simp [writesOf]) _).trans (hx3 j hj)
  have hcfg := hcfg4.trans hcfg3
  rw [← hcfg] at hlegal hcap ⊢
  have hcode : ∀ c, (codeIn codes c).length ≤ 255 ∧ s3.codeIs c (codeIn codes c) := fun c =>
    ⟨(h.length_codeIn_le c).1, hs3.code c⟩
  rcases lt_or_ge (8 * s4.cfg.bitcap) (xs.flatMap (codeIn codes)).length with hover | hfit
  · obtain ⟨s5, he5, herr5, hcode5⟩ := hs4.command_hufEncode_overflow h hlegal hn hcap hx4 hw4 hover
    exact ⟨s1, s2, s3, s4, s5, codeIn codes, he1, herr1, he2, herr2, he3, herr3, hcode, he4, herr4, he5,
      fun _ => ⟨herr5, hcode5⟩, fun hfit => absurd hover hfit.not_gt⟩
  · obtain ⟨s5, s6, s7, s8, he5, herr5, he6, herr6, hres6, he7, herr7, he8, herr8, hheld, hrcur⟩ :=
      hs4.roundTrip h hlegal hn hcap hx4 hw4 hfit
    refine ⟨s1, s2, s3, s4, s5, codeIn codes, he1, herr1, he2, herr2, he3, herr3, hcode, he4, herr4, he5,
      fun hover => absurd hover hfit.not_gt, fun _ => ⟨herr5, s6, s7, s8, he6, herr6, he7, herr7, he8, herr8, hheld,
        fun hnil => ⟨?_, ?_⟩, fun hone => ⟨?_, hrcur hone⟩⟩⟩
    · rw [hnleaf, hnil]
      rfl
    · rw [hnil] at hres6
      exact BitVec.eq_of_toNat_eq (by simpa using hres6)
    · rw [hres6, length_codeBits_of_lone h hone]

end Sys2Proof.Machine
end

section
/-! SUPPORT. An illegal command word from its acceptance to its report (spec/60_exceptions.md R201; 30_encoding.md
R86). -/

namespace Sys2Proof.Machine

/-- Out of reset, a scheduled host write is the step (R71). -/
theorem step_of_write {s : State} {a : BitVec 24} {v : Word} (he : nextEvent s = .write a v) (hl : s.rstLow = false) :
    step s = .next (hostWrite a v (popEvent s)) := by
  simp [step, engineRuns, he, busEvent, hl]

/-- While `rst_n` is low, a host access is no step, so a write that steps is that write. -/
theorem next_of_write {s t : State} {a : BitVec 24} {v : Word} (h : step s = .next t) (he : nextEvent s = .write a v) :
    t = hostWrite a v (popEvent s) := by
  cases hl : s.rstLow with
  | false =>
    rw [step_of_write he hl] at h
    exact (Host.Outcome.next.inj h).symm
  | true => simp [step, engineRuns, he, busEvent, hl] at h

/-- On the engine's turn with an illegal word latched, the step is its completion (R86). -/
theorem step_of_illegal {s : State} {e : DecodeError} (hr : engineRuns s = true) (hd : decode s.latch.w = .error e) :
    step s = .next (completeIllegal (popEvent s)) := by
  simp [step, hr, fetch, hd]

/-- R201: without a pending soft reset, that completion changes the results and the flags of its report alone. -/
theorem completeIllegal_eq {s : State} (hp : s.srstPend = false) :
    completeIllegal s = { s with res0 := 0#32, res1 := 0#32, status := s.status.failed 1#4 } :=
  complete_eq (some .illegalCmd) (begin s) hp

/-- Settles O6: the acceptance of the word, then the engine's turn on it. -/
theorem illegalWordChangesOnlyItsReport : Obligations.IllegalWordChangesOnlyItsReport := by
  intro s a v e rest hb hl hp ha hd hs
  have he : nextEvent s = .write a v := by simp [nextEvent, hs]
  have hr : engineRuns (accept v (popEvent s)) = true := by simp [engineRuns, nextEvent, hs, Status.accepted]
  refine ⟨accept v (popEvent s), ?_, ?_⟩
  · rw [step_of_write he hl, hostWrite_cmd_idle (s := popEvent s) hb ha]
  · rw [step_of_illegal hr hd, completeIllegal_eq (s := popEvent (accept v (popEvent s))) hp]
    simp [popEvent, accept, Status.accepted, Status.failed, hs]

end Sys2Proof.Machine
end

section
/-! SUPPORT. The interrupt output: what each operation, and then each step, does to its level
(spec/60_exceptions.md R210). -/

namespace Sys2Proof.Machine

/-! ### The level after each operation -/

@[simp] theorem popEvent_irq (s : State) : (popEvent s).irq = s.irq := rfl

/-- At the reset values `DONE` reads 0, so the level is low. -/
theorem irq_of_atReset {t : State} (h : AtReset t) : t.irq = false := by
  obtain ⟨-, hw, -⟩ := h
  change t.status.word = 0#32 at hw
  have hdone : t.status.word.getLsbD 1 = t.status.done := t.status.word_flags (by decide)
  rw [State.irq, ← hdone, hw]
  exact Bool.and_false _

/-- Acceptance clears `DONE` (R100). -/
@[simp] theorem accept_irq (v : Word) (s : State) : (accept v s).irq = false := Bool.and_false _

/-- A host read leaves the level. -/
@[simp] theorem hostRead_irq (a : BitVec 24) (s : State) : (hostRead a s).irq = s.irq := by
  rcases hostRead_cases a s with ⟨d, n, h⟩ | ⟨-, -, h⟩ <;> rw [h] <;> rfl

/-- A `CTRL` write that requests no soft reset sets `IE`, idle or busy (R23, R101). -/
theorem hostWrite_ctrl_irq {a : BitVec 24} {v : Word} (ha : a.toNat / 4 = 1) (hv : v.getLsbD 1 = false) (s : State) :
    (hostWrite a v s).irq = (v.getLsbD 0 && s.status.done) := by
  rw [hostWrite_register (r := .ctrl) ha, State.regWrite, writeCtrl, hv]
  cases s.status.busy <;> rfl

/-- A `STATUS` write clears `DONE` where its bit 1 is 1 (R24). -/
theorem State.irq_writeOneToClear (v : Word) (s : State) :
    State.irq { s with status := s.status.writeOneToClear v } = (s.irq && !v.getLsbD 1) :=
  (Bool.and_assoc _ _ _).symm

theorem hostWrite_status_irq {a : BitVec 24} (ha : a.toNat / 4 = 2) (v : Word) (s : State) :
    (hostWrite a v s).irq = (s.irq && !v.getLsbD 1) := by
  rw [hostWrite_register (r := .status) ha]
  exact s.irq_writeOneToClear v

/-- A completion sets `DONE` (R102), unless a pending soft reset follows it (R231). -/
theorem complete_irq (o : Option ErrorKind) {s : State} (hp : s.srstPend = false) : (complete o s).irq = s.ie := by
  rw [complete_eq o s hp]
  exact Bool.and_true _

/-! ### The engine's turn -/

/-- R102: on the engine's turn a step is a completion, of a command or of an illegal word, with the host's `IE` and
the pending soft reset as they were. -/
theorem step_completes {s t : State} (h : step s = .next t) (hr : engineRuns s = true) :
    ∃ o u, t = complete o u ∧ u.ie = s.ie ∧ u.srstPend = s.srstPend := by
  cases hd : decode s.latch.w with
  | ok i =>
    rw [step_of_engineRuns hr hd] at h
    obtain ⟨u, o, hf, ht, -⟩ := exec_next h
    exact ⟨o, u, ht, hf.ie, hf.srstPend⟩
  | error e =>
    rw [step_of_illegal hr hd] at h
    exact ⟨some .illegalCmd, begin (popEvent s), (Host.Outcome.next.inj h).symm, rfl, rfl⟩

theorem step_irq_of_engineRuns {s t : State} (h : step s = .next t) (hr : engineRuns s = true)
    (hp : s.srstPend = false) : t.irq = s.ie := by
  obtain ⟨o, u, rfl, hie, hpend⟩ := step_completes h hr
  rw [complete_irq o (hpend.trans hp), hie]

/-! ### Every step -/

/-- What a step from `s` to `t` can do to the level. -/
inductive IrqEffect (s t : State) : Prop where
  | unchanged (h : t.irq = s.irq)
  | reset (h : AtReset t)
  | completed (hr : engineRuns s = true) (h : t.irq = s.ie)
  | ctrl (a : BitVec 24) (v : Word) (he : nextEvent s = .write a v) (ha : a.toNat / 4 = 1)
    (h : t.irq = (v.getLsbD 0 && s.status.done))
  | status (a : BitVec 24) (v : Word) (he : nextEvent s = .write a v) (ha : a.toNat / 4 = 2)
    (h : t.irq = (s.irq && !v.getLsbD 1))
  | accepted (a : BitVec 24) (v : Word) (he : nextEvent s = .write a v) (ha : a.toNat / 4 = 3)
    (hb : s.status.busy = false) (h : t.irq = false)

theorem irqEffect_of_engineRuns {s t : State} (h : step s = .next t) (hr : engineRuns s = true) : IrqEffect s t := by
  cases hp : s.srstPend with
  | false => exact .completed hr (step_irq_of_engineRuns h hr hp)
  | true =>
    obtain ⟨o, u, rfl, -, hpend⟩ := step_completes h hr
    rw [complete_pending o u (hpend.trans hp)]
    exact .reset (atReset_softReset _)

theorem WriteEffect.irqEffect {a : BitVec 24} {v : Word} {s t : State} (h : WriteEffect a v (popEvent s) t)
    (he : nextEvent s = .write a v) : IrqEffect s t := by
  cases h with
  | ctrlBusy _ ha => exact .ctrl a v he ha rfl
  | ctrlReset => exact .reset (atReset_softReset _)
  | ctrlIdle _ ha => exact .ctrl a v he ha rfl
  | status ha => exact .status a v he ha ((popEvent s).irq_writeOneToClear v)
  | accepted hb ha => exact .accepted a v he ha hb (accept_irq v _)
  | ignored | arg0 | arg1 | dropped | blocked | stored => exact .unchanged rfl

theorem step_irqEffect {s t : State} (h : step s = .next t) : IrqEffect s t := by
  cases step_effect h with
  | command _ _ hr => exact irqEffect_of_engineRuns h hr
  | illegal _ hr => exact irqEffect_of_engineRuns h hr
  | idle => exact .unchanged rfl
  | read a => exact .unchanged (hostRead_irq a (popEvent s))
  | write a v he => exact (hostWrite_effect a v (popEvent s)).irqEffect he
  | rstFall => exact .reset (atReset_powerOn s.cfg)
  | rstRise => exact .unchanged rfl

/-- R210: the steps at which the level rises. -/
theorem IrqEffect.rises {s t : State} (h : IrqEffect s t) (hs : s.irq = false) (ht : t.irq = true) :
    (engineRuns s = true ∧ s.ie = true) ∨
      ∃ a v, nextEvent s = .write a v ∧ a.toNat / 4 = 1 ∧ v.getLsbD 0 = true ∧ s.status.done = true := by
  cases h with
  | unchanged h => simp [h, hs] at ht
  | reset h => simp [irq_of_atReset h] at ht
  | completed hr h => exact .inl ⟨hr, h.symm.trans ht⟩
  | ctrl a v he ha h =>
    obtain ⟨hv, hdone⟩ := Bool.and_eq_true_iff.mp (h.symm.trans ht)
    exact .inr ⟨a, v, he, ha, hv, hdone⟩
  | status _ _ _ _ h => simp [h, hs] at ht
  | accepted _ _ _ _ _ h => simp [h] at ht

/-- R210: the steps at which it falls. -/
theorem IrqEffect.falls {s t : State} (h : IrqEffect s t) (hs : s.irq = true) (ht : t.irq = false) :
    (∃ a v, nextEvent s = .write a v ∧
      ((a.toNat / 4 = 2 ∧ v.getLsbD 1 = true) ∨ (a.toNat / 4 = 3 ∧ s.status.busy = false) ∨
        (a.toNat / 4 = 1 ∧ v.getLsbD 0 = false))) ∨
      AtReset t := by
  obtain ⟨hie, hdone⟩ := Bool.and_eq_true_iff.mp hs
  cases h with
  | unchanged h => simp [h, hs] at ht
  | reset h => exact .inr h
  | completed _ h => simp [h, hie] at ht
  | ctrl a v he ha h => exact .inl ⟨a, v, he, .inr (.inr ⟨ha, by simpa [h, hdone] using ht⟩)⟩
  | status a v he ha h => exact .inl ⟨a, v, he, .inl ⟨ha, by simpa [h, hs] using ht⟩⟩
  | accepted a v he ha hb => exact .inl ⟨a, v, he, .inr (.inl ⟨ha, hb⟩)⟩

/-- Settles O14: the level after a completion, a register write and a reset by what these operations leave, the rises
and falls by what a step can do to the level. -/
theorem interruptRisesAndFallsAsStated : Obligations.InterruptRisesAndFallsAsStated := by
  intro s t h
  refine ⟨rfl, step_irq_of_engineRuns h, fun a v he ha hv => ?_, fun a v he ha hv => ?_, fun a v he ha hb => ?_,
    irq_of_atReset, (step_irqEffect h).rises, (step_irqEffect h).falls⟩
  · rw [next_of_write h he, hostWrite_ctrl_irq ha hv, popEvent_status]
  · rw [next_of_write h he, hostWrite_status_irq ha, hv, Bool.not_true, Bool.and_false]
  · rw [next_of_write h he, hostWrite_cmd_idle (s := popEvent s) hb ha, accept_irq]

end Sys2Proof.Machine
end

section
/-! SUPPORT. The soft reset: at once while idle, at the completion while a command runs
(spec/70_reset_and_hazards.md R231). -/

namespace Sys2Proof.Machine

/-! ### A `CTRL` write with `SRST` -/

/-- Idle, the access is the soft reset. -/
theorem hostWrite_srst_idle {a : BitVec 24} {v : Word} {s : State} (ha : a.toNat / 4 = 1) (hv : v.getLsbD 1 = true)
    (hb : s.status.busy = false) : hostWrite a v s = softReset s := by
  rw [hostWrite_register (r := .ctrl) ha, State.regWrite, writeCtrl, if_neg (by simp [hb]), if_pos hv]

/-- Busy, the access sets `IE` and remembers the request. -/
theorem hostWrite_srst_busy {a : BitVec 24} {v : Word} {s : State} (ha : a.toNat / 4 = 1) (hv : v.getLsbD 1 = true)
    (hb : s.status.busy = true) : hostWrite a v s = { s with ie := v.getLsbD 0, srstPend := true } := by
  rw [hostWrite_register (r := .ctrl) ha, State.regWrite, writeCtrl, if_pos hb, hv, Bool.or_true]

/-! ### Completion with a soft reset pending -/

/-- The registers then have their reset values and `irq` is low; `complete_mem` and `complete_cfg` say what stays. -/
theorem atReset_complete_of_pending (o : Option ErrorKind) {s : State} (hp : s.srstPend = true) :
    AtReset (complete o s) ∧ (complete o s).irq = false := by
  have hr : AtReset (complete o s) := complete_pending o s hp ▸ atReset_softReset _
  exact ⟨hr, irq_of_atReset hr⟩

/-- In states with the same inputs a command completes alike, whether a soft reset is pending in either or not: the
results are the one's, on the other's host side. -/
theorem SameInputs.exec_complete {i : Instr} {s s' t : State} (h : SameInputs s s') (he : exec i s = .next t) :
    ∃ u o, t = complete o u ∧ u.cfg = s.cfg ∧ exec i s' = .next (complete o (u.onto (begin s'))) := by
  have hf := runOf_framed i (begin s)
  have hr' := h.runOf_eq i
  rw [exec_eq, commit_next_iff] at he
  rcases he with ⟨u, hr, ht⟩ | ⟨e, u, hr, ht⟩ <;> rw [hr] at hf hr'
  · exact ⟨u, none, ht, hf.cfg, by rw [exec_eq, hr']; rfl⟩
  · exact ⟨u, some e, ht, hf.cfg, by rw [exec_eq, hr']; rfl⟩

/-- `SRSTPEND` is no input of a command. -/
theorem sameInputs_srstPend (s : State) (p : Bool) : SameInputs { s with srstPend := p } s :=
  ⟨rfl, rfl, rfl, rfl, rfl, rfl, rfl, rfl, rfl, rfl, rfl, rfl⟩

/-- Settles O11: the `CTRL` write idle and busy, then the completion with a soft reset pending, of a command (the same
up to the flags with and without the request) and of an illegal word. -/
theorem softResetClearsRegistersAndKeepsMemories : Obligations.SoftResetClearsRegistersAndKeepsMemories := by
  refine ⟨fun s a v ha hv hb => ?_, fun s a v => hostWrite_srst_busy, fun i s u hp he => ?_, fun s e hp hr hd => ?_⟩
  · rw [hostWrite_srst_idle ha hv hb]
    exact ⟨atReset_softReset s, rfl, rfl⟩
  · obtain ⟨w, o, rfl, hc, he'⟩ := (sameInputs_srstPend s false).exec_complete he
    obtain ⟨hreset, hirq⟩ := atReset_complete_of_pending o (s := w.onto (begin s)) hp
    exact ⟨_, he', hreset, complete_srstPend _ _, by rw [complete_mem, complete_mem]; rfl,
      (complete_cfg _ _).trans hc, hirq⟩
  · obtain ⟨hreset, hirq⟩ := atReset_complete_of_pending (some .illegalCmd) (s := begin (popEvent s)) hp
    exact ⟨_, step_of_illegal hr hd, hreset, complete_srstPend _ _, complete_mem _ _, complete_cfg _ _, hirq⟩

end Sys2Proof.Machine
end

section
/-! SUPPORT. Power-on reset: the values it leaves, and that nothing moves them while `rst_n` is low
(spec/70_reset_and_hazards.md R230). -/

namespace Sys2Proof.Machine

/-! ### The values power-on reset leaves -/

/-- R49: no entry of an unwritten memory holds a byte. -/
@[simp] theorem Memories.get?_unwritten (w : Window) (o : Nat) : (Memories.unwritten.sel w).get? o = none := by
  cases w <;> rfl

/-- Whatever the level of `rst_n` and the events to come, the state after power-on reset holds the reset values. -/
theorem powerOnReset_values (s : State) (low : Bool) (es : List Event) (r : State)
    (hr : r = { powerOnReset s with rstLow := low, schedule := es }) :
    AtReset r ∧ r.srstPend = false ∧ r.status.busy = false ∧ r.irq = false ∧ r.ie = false ∧ r.cfg = s.cfg ∧
      r.regRead .id = 0x48434201#32 ∧ ∀ w o, r.byteAt w o = none := by
  subst hr
  exact ⟨atReset_powerOn s.cfg, rfl, rfl, rfl, rfl, rfl, rfl, Memories.get?_unwritten⟩

/-- At the reset values no command is running. -/
theorem busy_of_atReset {t : State} (h : AtReset t) : t.status.busy = false := by
  obtain ⟨-, hw, -⟩ := h
  change t.status.word = 0#32 at hw
  have hbusy : t.status.word.getLsbD 0 = t.status.busy := t.status.word_flags (by decide)
  rw [← hbusy, hw]
  decide

/-! ### The edges of `rst_n` -/

/-- An edge of `rst_n` is the step, whether or not a command is running. -/
theorem step_of_rstFall {s : State} (he : nextEvent s = .rstFall) :
    step s = .next { powerOnReset (popEvent s) with rstLow := true } := by
  simp [step, engineRuns, he, busEvent]

theorem step_of_rstRise {s : State} (he : nextEvent s = .rstRise) :
    step s = .next { popEvent s with rstLow := false } := by
  simp [step, engineRuns, he, busEvent]

/-! ### While `rst_n` is low -/

@[simp] theorem hostRead_rstLow (a : BitVec 24) (s : State) : (hostRead a s).rstLow = s.rstLow := by
  rcases hostRead_cases a s with ⟨d, n, h⟩ | ⟨-, -, h⟩ <;> rw [h]

theorem WriteEffect.rstLow_eq {a : BitVec 24} {v : Word} {s t : State} (h : WriteEffect a v s t) :
    t.rstLow = s.rstLow := by
  cases h <;> rfl

@[simp] theorem hostWrite_rstLow (a : BitVec 24) (v : Word) (s : State) : (hostWrite a v s).rstLow = s.rstLow :=
  (hostWrite_effect a v s).rstLow_eq

@[simp] theorem completeIllegal_rstLow (s : State) : (completeIllegal s).rstLow = s.rstLow :=
  complete_rstLow _ (begin s)

theorem exec_rstLow {i : Instr} {s t : State} (h : exec i s = .next t) : t.rstLow = s.rstLow := by
  obtain ⟨u, o, hf, rfl, -⟩ := exec_next h
  rw [complete_rstLow, hf.rstLow, begin_rstLow]

/-- In reset the engine runs nothing. -/
theorem HeldInReset.not_engineRuns {s : State} (h : HeldInReset s) (hl : s.rstLow = true) : engineRuns s ≠ true := by
  simp [engineRuns, busy_of_atReset (h hl).1]

/-- A step that leaves `rst_n` low is its fall, or an idle turn in reset. -/
theorem HeldInReset.of_step {s t : State} (hs : HeldInReset s) (h : step s = .next t) : HeldInReset t := by
  intro hl
  cases step_effect h with
  | command i _ hr _ he => exact absurd hr (hs.not_engineRuns ((exec_rstLow (s := popEvent s) he).symm.trans hl))
  | illegal _ hr => exact absurd hr (hs.not_engineRuns ((completeIllegal_rstLow (popEvent s)).symm.trans hl))
  | idle => exact hs hl
  | read a _ hn => simp [hn] at hl
  | write a v _ hn => simp [hn] at hl
  | rstFall => exact ⟨atReset_powerOn s.cfg, rfl, Memories.get?_unwritten⟩
  | rstRise => cases hl

/-- Settles O22: the two edges from any state, then the step in reset. -/
theorem powerOnResetFromAnyState : Obligations.PowerOnResetFromAnyState := by
  refine ⟨fun s rest hs => ?_, fun s t => HeldInReset.of_step⟩
  have hfall : nextEvent s = .rstFall := by rw [nextEvent, hs]; rfl
  have hrise : nextEvent { powerOnReset (popEvent s) with rstLow := true } = .rstRise := by
    simp [nextEvent, hs]
  refine ⟨_, _, step_of_rstFall hfall, step_of_rstRise hrise, rfl, rfl, ?_⟩
  rintro r (hr | hr)
  · exact powerOnReset_values (popEvent s) true _ r hr
  · exact powerOnReset_values (popEvent s) false _ r hr

end Sys2Proof.Machine
end

section
/-! SUPPORT. The encoder against the decoder: the fields of a well-formed command's word, and that the two are inverse
to each other (spec/30_encoding.md R80–R83, R87). -/

namespace Sys2Proof

/-- The family `TableRow` for every command. -/
theorem Laws.TableRow.all (i : Instr) : TableRow.Statement i := by
  cases i with
  | nop => exact TableRow.nop
  | freqCount src => exact TableRow.freqCount src
  | hufBuild => exact TableRow.hufBuild
  | hufCodes => exact TableRow.hufCodes
  | hufEncode src => exact TableRow.hufEncode src
  | hufDecode dst => exact TableRow.hufDecode dst
  | bwInit => exact TableRow.bwInit
  | bwPut cnt => exact TableRow.bwPut cnt
  | bwFlush => exact TableRow.bwFlush
  | brInit => exact TableRow.brInit
  | brGet cnt => exact TableRow.brGet cnt
  | mtfFwd src => exact TableRow.mtfFwd src
  | mtfInv src => exact TableRow.mtfInv src
  | bwtInv src => exact TableRow.bwtInv src

@[simp] theorem bufOfS_sOfBuf (b : Buf) : bufOfS (sOfBuf b) = b := by cases b <;> rfl

/-- R83: a bit count in range is one more than its field. -/
theorem countOk_iff {cnt : Nat} : countOk cnt = true ↔ 1 ≤ cnt ∧ cnt ≤ 32 := decide_eq_true_iff

/-- R81–R83: a well-formed command is the command of its own opcode, buffer and bit count. -/
theorem commandOf_fields_self {i : Instr} (h : i.wellFormed = true) :
    commandOf i.opc (bufOfS i.s) (i.cntm1 + 1) = some i := by
  cases i with
  | nop | hufBuild | hufCodes | bwInit | bwFlush | brInit => rfl
  | freqCount b | hufEncode b | hufDecode b | mtfFwd b | mtfInv b | bwtInv b =>
    simp [commandOf, Instr.opc, Instr.s]
  | bwPut cnt | brGet cnt =>
    have hcnt : cnt - 1 + 1 = cnt := Nat.sub_add_cancel (countOk_iff.mp h).1
    simp [commandOf, Instr.opc, Instr.cntm1, hcnt]

/-- R80–R83: no operand is lost in the word. -/
theorem decode_encode {i : Instr} (h : i.wellFormed = true) : decode (encode i) = .ok i := by
  obtain ⟨hmask, hs, hcnt⟩ := Laws.TableRow.all i h
  have hfit : FitsRow i (encode i) := (and_tableMask_eq_tableMatch_iff _ i).mp hmask
  have hopc : opcField (encode i) = i.opc := hfit.1
  refine decode_eq_ok_iff.mpr ⟨?_, hfit⟩
  rw [hopc, hs, hcnt]
  exact commandOf_fields_self h

/-- Settles O2: the word's fields are the command's, and the command is the one of these fields. -/
theorem decodeOfEncodeIsTheCommand : Obligations.DecodeOfEncodeIsTheCommand :=
  fun _ => decode_encode

/-- R87: two words of one command have the same five fields. -/
theorem decode_ok_injective {v w : Word} {i : Instr} (hv : decode v = .ok i) (hw : decode w = .ok i) : v = w := by
  obtain ⟨hvopc, hvs, hvcnt, -⟩ := decode_fields hv
  obtain ⟨hwopc, hws, hwcnt, -⟩ := decode_fields hw
  obtain ⟨-, -, hvlow, hvhigh, -⟩ := decode_eq_ok_iff.mp hv
  obtain ⟨-, -, hwlow, hwhigh, -⟩ := decode_eq_ok_iff.mp hw
  exact word_eq_iff_fields.mpr ⟨hvopc.symm.trans hwopc, hvlow.trans hwlow.symm, hvhigh.trans hwhigh.symm,
    hvs.symm.trans hws, hvcnt.symm.trans hwcnt⟩

/-- R83: a decoded bit count is one more than a five-bit field. -/
theorem wellFormed_of_decode {w : Word} {i : Instr} (h : decode w = .ok i) : i.wellFormed = true := by
  obtain ⟨-, -, -, hcount⟩ := decode_fields h
  have hlt : cntm1Field w < 32 := (w.extractLsb' 16 5).isLt
  cases i with
  | bwPut cnt =>
    have := hcount cnt (.inl rfl)
    exact countOk_iff.mpr (by omega)
  | brGet cnt =>
    have := hcount cnt (.inr rfl)
    exact countOk_iff.mpr (by omega)
  | _ => rfl

/-- Settles O3: the word and the encoding of its command decode to the same command. -/
theorem encodeOfDecodeIsTheWord : Obligations.EncodeOfDecodeIsTheWord := fun _ _ h =>
  have hwf := wellFormed_of_decode h
  ⟨decode_ok_injective (decode_encode hwf) h, hwf⟩

end Sys2Proof
end

section
/-! SUPPORT. Rules for the loops of the commands: what holds of the state a loop ends in, and of the entry it faults on,
when every bit put, bit taken, byte stored and result set keeps it (spec/41_bitstream.md R120, R121; 43_huffman.md
R163, R164). -/

namespace Sys2Proof.Machine

/-! ### What a result comes to -/

/-- A result whose state, if it has one, is as `P` says, and whose fault, if it has one, is as `Q` says. -/
def Result.Meets {α : Type} (P : State → Prop) (Q : Fault → Prop) : Result α → Prop
  | .done _ t => P t
  | .raised _ t => P t
  | .stuck f => Q f

theorem Result.Meets.mono {α : Type} {P P' : State → Prop} {Q Q' : Fault → Prop} {r : Result α} (h : r.Meets P Q)
    (hP : ∀ t, P t → P' t) (hQ : ∀ f, Q f → Q' f) : r.Meets P' Q' := by
  cases r with
  | done _ t => exact hP t h
  | raised _ t => exact hP t h
  | stuck f => exact hQ f h

/-! ### Reads that find an entry never written -/

/-- A read of words fails at a word that is not written. -/
theorem exists_wordAt_eq_none {s : State} {w : Window} {i n : Nat} (h : s.wordsAt w i n = none) :
    ∃ j, j < n ∧ s.wordAt w (i + j) = none := by
  induction n generalizing i with
  | zero => simp [State.wordsAt] at h
  | succ n ih =>
    cases hw : s.wordAt w i with
    | none => exact ⟨0, Nat.succ_pos n, hw⟩
    | some v =>
      have hrest : s.wordsAt w (i + 1) n = none := by
        cases hr : s.wordsAt w (i + 1) n with
        | none => rfl
        | some vs => simp [State.wordsAt, hw, hr] at h
      obtain ⟨j, hj, hn⟩ := ih hrest
      exact ⟨j + 1, Nat.succ_lt_succ hj, by rw [Nat.add_comm j, ← Nat.add_assoc]; exact hn⟩

/-- R43: a slot that cannot be read has a byte never written. -/
theorem exists_byteAt_of_slotAt_eq_none {s : State} {i : Nat} (h : s.slotAt i = none) :
    ∃ o, o < 16 * i + 16 ∧ s.byteAt .tree o = none := by
  have hwords : s.wordsAt .tree (4 * i) 4 = none := by
    cases hw : s.wordsAt .tree (4 * i) 4 with
    | none => rfl
    | some vs =>
      obtain ⟨w0, w1, w2, w3, rfl⟩ := List.length_eq_four.mp (wordsAt_eq_some.mp hw).1
      simp [State.slotAt, hw] at h
  obtain ⟨j, hj, hn⟩ := exists_wordAt_eq_none hwords
  obtain ⟨k, hk, hb⟩ := wordAt_eq_none.mp hn
  exact ⟨_, by omega, hb⟩

/-- R43: the children of an internal node are slots of `TREE`. -/
theorem children_lt_of_slotAt {s : State} {i key l r f : Nat} (h : s.slotAt i = some (.internal key l r f)) :
    l < 512 ∧ r < 512 := by
  unfold State.slotAt at h
  split at h
  next w0 w1 w2 w3 _ =>
    unfold unpackNode at h
    split at h
    · obtain ⟨-, rfl, rfl, -⟩ := Node.internal.inj (Option.some.inj h)
      exact ⟨(w1.extractLsb' 0 9).isLt, (w1.extractLsb' 16 9).isLt⟩
    · cases h
  next => cases h

/-- R44: an entry whose length cannot be read has a byte never written. -/
theorem exists_byteAt_of_codeLen_eq_none {s : State} {c : Byte} (h : s.codeLen c = none) :
    ∃ o, o < 0x4000 ∧ s.byteAt .code o = none := by
  obtain ⟨k, hk, hb⟩ := wordAt_eq_none.mp (Option.map_eq_none_iff.mp h)
  have hc := c.isLt
  exact ⟨_, by omega, hb⟩

/-- R44: `LEN` is eight bits. -/
theorem codeLen_lt {s : State} {c : Byte} {len : Nat} (h : s.codeLen c = some len) : len < 256 := by
  obtain ⟨w, -, rfl⟩ := Option.map_eq_some_iff.mp h
  exact (w.extractLsb' 0 8).isLt

/-- R44: an entry with a bit that cannot be read has a byte never written. -/
theorem exists_byteAt_of_codeBits_eq_none {s : State} {c : Byte} {j n : Nat} (hn : j + n ≤ 256)
    (h : s.codeBits c j n = none) : ∃ o, o < 0x4000 ∧ s.byteAt .code o = none := by
  induction n generalizing j with
  | zero => simp [State.codeBits] at h
  | succ n ih =>
    cases hb : s.codeBit c j with
    | none =>
      obtain ⟨k, hk, hbyte⟩ := wordAt_eq_none.mp (Option.map_eq_none_iff.mp hb)
      have hc := c.isLt
      exact ⟨_, by omega, hbyte⟩
    | some v =>
      refine ih (j := j + 1) (by omega) ?_
      cases hr : s.codeBits c (j + 1) n with
      | none => rfl
      | some vs => simp [State.codeBits, hb, hr] at h

theorem length_of_codeBits {s : State} {c : Byte} {j n : Nat} {bits : List Bool} (h : s.codeBits c j n = some bits) :
    bits.length = n := by
  induction n generalizing j bits with
  | zero =>
    obtain rfl : [] = bits := Option.some.inj h
    rfl
  | succ n ih =>
    unfold State.codeBits at h
    split at h
    · cases h
    split at h
    · cases h
    next vs hvs =>
      obtain rfl := Option.some.inj h
      rw [List.length_cons, ih hvs]

/-! ### The loops -/

/-- What a command reads is in storage; for `BITS`, where the reader's end is. -/
def InStorage (s : State) (w : Window) (o : Nat) : Prop :=
  (w = .bits → s.rlim.toNat ≤ 8 * s.cfg.bitcap) → o < w.cap s.cfg

section
variable {P : State → Prop} {Q : Fault → Prop}
  (hread : ∀ s w o, P s → s.byteAt w o = none → InStorage s w o → Q (.unwritten w))
include hread

/-- A rule for `PutBit` of several bits that fit. -/
theorem putBits_meets
    (hput : ∀ s b, P s → s.wbits.toNat < 8 * s.cfg.bitcap →
      P ((s.storeBytes .bits (s.wbits.toNat / 8) [b]).setWbits (s.wbits.toNat + 1)))
    (vs : List Bool) {s : State} (h : P s) (hfit : s.wbits.toNat + vs.length ≤ 8 * s.cfg.bitcap) :
    (putBits vs s).Meets P Q := by
  induction vs generalizing s with
  | nil => exact h
  | cons v vs ih =>
    rw [List.length_cons] at hfit
    rcases putBit_cases v s with ⟨b, hp, -⟩ | ⟨-, hn, hp⟩ <;> rw [putBits, hp]
    · have hle : (wordOf (s.wbits.toNat + 1)).toNat ≤ s.wbits.toNat + 1 :=
        (BitVec.toNat_ofNat _ _).trans_le (Nat.mod_le _ _)
      exact ih (hput s b h (by omega)) (show (wordOf (s.wbits.toNat + 1)).toNat + _ ≤ _ by
        simp only [State.setWbits_cfg, State.storeBytes_cfg]; omega)
    · exact hread s .bits _ h hn fun _ => show s.wbits.toNat / 8 < s.cfg.bitcap by omega

/-- A rule for HUF_ENCODE's loop. -/
theorem encodeFrom_meets
    (hput : ∀ s b, P s → s.wbits.toNat < 8 * s.cfg.bitcap →
      P ((s.storeBytes .bits (s.wbits.toNat / 8) [b]).setWbits (s.wbits.toNat + 1)))
    (hres : ∀ s r0 r1, P s → P (s.setRes r0 r1)) (b : Buf) (i k : Nat) {s : State} (h : P s)
    (hfit : i + k ≤ s.cfg.nbuf) : (encodeFrom b i k s).Meets P Q := by
  induction k generalizing i s with
  | zero => exact hres s _ _ h
  | succ k ih =>
    have hcap : (bufWindow b).cap s.cfg = s.cfg.nbuf := by cases b <;> rfl
    unfold encodeFrom
    split
    next hn => exact hread s _ _ h hn fun _ => by rw [hcap]; omega
    next c _ =>
    split
    next hn =>
      obtain ⟨o, ho, hb⟩ := exists_byteAt_of_codeLen_eq_none hn
      exact hread s _ o h hb fun _ => ho
    next len hlen =>
    split_ifs with hzero hover
    · exact hres s _ _ h
    · exact hres s _ _ h
    split
    next hn =>
      have := codeLen_lt hlen
      obtain ⟨o, ho, hb⟩ := exists_byteAt_of_codeBits_eq_none (by omega) hn
      exact hread s _ o h hb fun _ => ho
    next bits hbits =>
    have hm := putBits_meets hread hput bits h (by rw [length_of_codeBits hbits]; omega)
    have hf := putBits_framed bits s
    cases hp : putBits bits s with
    | done _ s' =>
      rw [hp] at hm hf
      exact ih (i + 1) hm (by rw [hf.cfg]; omega)
    | raised e s' => rw [hp] at hm; exact hm
    | stuck f => rw [hp] at hm; exact hm

/-- A rule for `GetBit`. -/
theorem getBit_meets
    (hnext : ∀ s, P s → s.rcur.toNat < s.rlim.toNat → P (s.setRcur (s.rcur.toNat + 1))) {s : State} (h : P s) :
    (getBit s).Meets P Q := by
  rcases getBit_cases s with ⟨hlt, v, -, hg⟩ | ⟨-, hg⟩ | ⟨hlt, hn, hg⟩ <;> rw [hg]
  · exact hnext s h hlt
  · exact h
  · refine hread s .bits _ h (Option.map_eq_none_iff.mp hn) fun hlim => ?_
    have := hlim rfl
    show s.rcur.toNat / 8 < s.cfg.bitcap
    omega

/-- A rule for several calls of `GetBit`. -/
theorem getBits_meets
    (hnext : ∀ s, P s → s.rcur.toNat < s.rlim.toNat → P (s.setRcur (s.rcur.toNat + 1))) (cnt v : Nat) {s : State}
    (h : P s) : (getBits cnt v s).Meets P Q := by
  induction cnt generalizing v s with
  | zero => exact h
  | succ cnt ih =>
    have hm := getBit_meets hread hnext h
    rw [getBits]
    cases hg : getBit s with
    | done b s' => rw [hg] at hm; exact ih _ hm
    | raised e s' => rw [hg] at hm; exact hm
    | stuck f => rw [hg] at hm; exact hm

/-- A rule for HUF_DECODE's inner loop. -/
theorem walkDown_meets
    (hnext : ∀ s, P s → s.rcur.toNat < s.rlim.toNat → P (s.setRcur (s.rcur.toNat + 1)))
    (hres : ∀ s r0 r1, P s → P (s.setRes r0 r1)) (i start left : Nat) {node : Nat} (hnode : node < 512) {s : State}
    (h : P s) : (walkDown i start left node s).Meets P Q := by
  have hslot : ∀ {s node}, node < 512 → P s → s.slotAt node = none → Q (.unwritten .tree) := fun hnode h hn => by
    obtain ⟨o, ho, hb⟩ := exists_byteAt_of_slotAt_eq_none hn
    exact hread _ .tree o h hb fun _ => show o < 0x2000 by omega
  induction left generalizing node s with
  | zero =>
    unfold walkDown
    split
    next hn => exact hslot hnode h hn
    · exact h
    · exact hres s _ _ h
  | succ left ih =>
    unfold walkDown
    split
    next hn => exact hslot hnode h hn
    · exact h
    next key l r f hs =>
    obtain ⟨hl, hr⟩ := children_lt_of_slotAt hs
    have hm := getBit_meets hread hnext h
    cases hg : getBit s with
    | done v s' =>
      rw [hg] at hm
      have hchild : (bif v then r else l) < 512 := by cases v <;> assumption
      exact ih hchild hm
    | raised e s' => rw [hg] at hm; exact hm
    | stuck f => rw [hg] at hm; exact hm

/-- A rule for HUF_DECODE's outer loop. -/
theorem decodeFrom_meets {b : Buf} {n : Nat}
    (hnext : ∀ s, P s → s.rcur.toNat < s.rlim.toNat → P (s.setRcur (s.rcur.toNat + 1)))
    (hres : ∀ s r0 r1, P s → P (s.setRes r0 r1))
    (hstore : ∀ s j c, j < n → P s → P (s.storeBytes (bufWindow b) j [c])) (start i k : Nat) {s : State} (h : P s)
    (hn : i + k ≤ n) : (decodeFrom b start i k s).Meets P Q := by
  induction k generalizing i s with
  | zero => exact hres s _ _ h
  | succ k ih =>
    have hm := walkDown_meets hread hnext hres i start (s.rlim.toNat - s.rcur.toNat) s.root.isLt h
    rw [decodeFrom]
    cases hw : walkDown i start (s.rlim.toNat - s.rcur.toNat) s.root.toNat s with
    | done c s' =>
      rw [hw] at hm
      exact ih (i + 1) (hstore s' i c (by omega) hm) (by omega)
    | raised e s' => rw [hw] at hm; exact hm
    | stuck f => rw [hw] at hm; exact hm

end

end Sys2Proof.Machine
end

section
/-! SUPPORT. What a command does to the memories and where it faults, said once for all commands: it only stores inside
their storage, and it faults only on an entry there that nothing has written (spec/20_memory.md R61; 00_scope.md R11). -/

namespace Sys2Proof.Machine

/-! ### Stores inside storage -/

/-- The memories `m'` come from `m` by stores inside the storage of each memory (R61). -/
inductive StoresInto (c : Config) (m : Memories) : Memories → Prop where
  | refl : StoresInto c m m
  | store {m' : Memories} (h : StoresInto c m m') (w : Window) (o : Nat) (bs : List Byte)
    (hfit : bs.length ≤ w.cap c - o) : StoresInto c m (m'.put w ((m'.sel w).store o bs))

/-- What is stored in `w` and what it stores elsewhere: a byte read after a store. -/
theorem Memories.get?_put_store (m : Memories) (w w' : Window) (o x : Nat) (bs : List Byte) :
    ((m.put w ((m.sel w).store o bs)).sel w').get? x =
      if w' = w ∧ o ≤ x ∧ x < o + bs.length then bs[x - o]? else (m.sel w').get? x := by
  by_cases h : w' = w
  · subst h
    simp [Memory.get?_store]
  · simp [Memories.sel_put_ne _ _ h, h]

theorem StoresInto.wf {c : Config} {m m' : Memories} (h : StoresInto c m m') (hm : ∀ w, (m.sel w).wf) (w' : Window) :
    (m'.sel w').wf := by
  induction h with
  | refl => exact hm w'
  | @store m' _ w o bs _ ih =>
    by_cases hw : w' = w
    · subst hw
      rw [Memories.sel_put]
      exact Memory.wf_store ih o bs
    · rw [Memories.sel_put_ne _ _ hw]
      exact ih

/-- Written bytes stay written. -/
theorem StoresInto.get?_eq_none {c : Config} {m m' : Memories} (h : StoresInto c m m') {w' : Window} {x : Nat}
    (hx : (m'.sel w').get? x = none) : (m.sel w').get? x = none := by
  induction h with
  | refl => exact hx
  | @store m' _ w o bs _ ih =>
    rw [Memories.get?_put_store] at hx
    split at hx
    next hin =>
      rw [List.getElem?_eq_getElem (by omega)] at hx
      cases hx
    next => exact ih hx

theorem StoresInto.inStorage {c : Config} {m m' : Memories} (h : StoresInto c m m')
    (hm : ∀ w o, ((m.sel w).get? o).isSome → o < w.cap c) (w' : Window) (x : Nat)
    (hx : ((m'.sel w').get? x).isSome) : x < w'.cap c := by
  induction h with
  | refl => exact hm w' x hx
  | @store m' _ w o bs hfit ih =>
    rw [Memories.get?_put_store] at hx
    split at hx
    next hin =>
      obtain ⟨hw, hlo, hhi⟩ := hin
      rw [hw]
      omega
    next => exact ih hx

/-- `t` keeps the parameters of `s`, and its memories come from those of `s` by stores inside storage. -/
def StoredFrom (s t : State) : Prop := t.cfg = s.cfg ∧ StoresInto s.cfg s.mem t.mem

theorem StoredFrom.refl (s : State) : StoredFrom s s := ⟨rfl, .refl⟩

theorem StoredFrom.storeBytes {s t : State} (h : StoredFrom s t) {w : Window} {o : Nat} {bs : List Byte}
    (hfit : bs.length ≤ w.cap s.cfg - o) : StoredFrom s (t.storeBytes w o bs) :=
  ⟨h.1, h.2.store w o bs hfit⟩

theorem StoredFrom.storeWords {s t : State} (h : StoredFrom s t) {w : Window} {i : Nat} {vs : List Word}
    (hfit : 4 * vs.length ≤ w.cap s.cfg - 4 * i) : StoredFrom s (t.storeWords w i vs) :=
  h.storeBytes (by rwa [flatMap_wordBytes_length])

theorem StoredFrom.setRes {s t : State} (h : StoredFrom s t) (r0 r1 : Nat) : StoredFrom s (t.setRes r0 r1) := h

theorem StoredFrom.setWbits {s t : State} (h : StoredFrom s t) (p : Nat) : StoredFrom s (t.setWbits p) := h

theorem StoredFrom.byteAt_eq_none {s t : State} (h : StoredFrom s t) {w : Window} {o : Nat}
    (hb : t.byteAt w o = none) : s.byteAt w o = none :=
  h.2.get?_eq_none hb

/-! ### Faults -/

/-- The fault names a memory with an entry inside storage that nothing has written. -/
def Unread (s : State) (f : Fault) : Prop :=
  ∃ w o, f = .unwritten w ∧ s.byteAt w o = none ∧ InStorage s w o

/-- A command has only stored so far, and `RLIM` stands where it stood. -/
def StoredWithin (s t : State) : Prop := StoredFrom s t ∧ t.rlim = s.rlim

theorem StoredWithin.unread {s t : State} (h : StoredWithin s t) {w : Window} {o : Nat} (hb : t.byteAt w o = none)
    (hin : InStorage t w o) : Unread s (.unwritten w) := by
  obtain ⟨hstored, hlim⟩ := h
  rw [InStorage, hlim, hstored.1] at hin
  exact ⟨w, o, rfl, hstored.byteAt_eq_none hb, hin⟩

@[simp] theorem cap_bufWindow (b : Buf) (c : Config) : (bufWindow b).cap c = c.nbuf := by cases b <;> rfl

theorem unread_of_source {s : State} {b : Buf} {n : Nat} (hn : n ≤ s.cfg.nbuf) (h : s.source b n = none) :
    Unread s (.unwritten (bufWindow b)) := by
  obtain ⟨o, ho, hb⟩ := source_eq_none.mp h
  exact ⟨_, o, rfl, hb, fun _ => by rw [cap_bufWindow]; omega⟩

theorem unread_of_slotAt {s : State} {i : Nat} (hi : i < 512) (h : s.slotAt i = none) :
    Unread s (.unwritten .tree) := by
  obtain ⟨o, ho, hb⟩ := exists_byteAt_of_slotAt_eq_none h
  exact ⟨_, o, rfl, hb, fun _ => show o < 0x2000 by omega⟩

/-- R162: the walk of HUF_CODES ends, or meets an entry never written, or has no depth left. -/
theorem walkCodes_error {s : State} {d i : Nat} {c : List Bool} {f : Fault} (hi : i < 512)
    (h : walkCodes s d i c = .error f) : Unread s f ∨ f = .treeTooDeep := by
  induction d generalizing i c with
  | zero => exact .inr (Except.error.inj h).symm
  | succ d ih =>
    unfold walkCodes at h
    split at h
    next hn =>
      obtain rfl := Except.error.inj h
      exact .inl (unread_of_slotAt hi hn)
    next => cases h
    next key l r fr hs =>
      obtain ⟨hl, hr⟩ := children_lt_of_slotAt hs
      split at h
      next hleft =>
        obtain rfl := Except.error.inj h
        exact ih hl hleft
      next =>
        split at h
        next hright =>
          obtain rfl := Except.error.inj h
          exact ih hr hright
        next => cases h

theorem assignedCodes_error {s : State} {f : Fault} (h : assignedCodes s = .error f) :
    Unread s f ∨ f = .treeTooDeep := by
  unfold assignedCodes at h
  split_ifs at h
  · split at h
    next hn =>
      obtain rfl := Except.error.inj h
      exact .inl (unread_of_slotAt s.root.isLt hn)
    next => cases h
  · exact walkCodes_error s.root.isLt h

/-! ### The commands -/

/-- R140: the list after MTF_FWD's loop has 256 entries, its output one for each byte. -/
theorem length_mtfForward (xs : List Byte) :
    (mtfForward identityOrder xs).1.length = xs.length ∧ ∃ ys, (mtfForward identityOrder xs).2 = recencyList ys := by
  obtain ⟨hranks, hlist⟩ := mtfForward_recencyList [] xs
  rw [recencyList_nil] at hranks hlist
  exact ⟨hranks.length_eq, _, hlist⟩

/-- R140: so it is after MTF_INV's. -/
theorem length_mtfInverse (rs : List Byte) :
    (mtfInverse identityOrder rs).1.length = rs.length ∧ ∃ ys, (mtfInverse identityOrder rs).2 = recencyList ys := by
  obtain ⟨xs, hranks⟩ := exists_rankedAs [] rs
  rw [← recencyList_nil, hranks.mtfInverse_eq]
  exact ⟨hranks.length_eq.symm, _, rfl⟩

/-- The rank-list commands store one byte for each of the source and 256 for the list. -/
theorem runRankList_meets {f : List Byte → List Byte → List Byte × List Byte} {b : Buf} (s : State)
    (hf : ∀ xs, (f identityOrder xs).1.length = xs.length ∧ ∃ ys, (f identityOrder xs).2 = recencyList ys) :
    (runRankList f b s).Meets (StoredFrom s) (Unread s) := by
  unfold runRankList
  dsimp only
  split_ifs with hcap
  · exact .refl s
  split
  next hn => exact unread_of_source (by omega) hn
  next src hsrc =>
    obtain ⟨hlen, ys, hlist⟩ := hf src
    have hn := (source_eq_some.mp hsrc).1
    refine (((StoredFrom.refl s).storeBytes ?_).storeBytes ?_).setRes _ _
    · rw [hlen, hn, cap_bufWindow]
      omega
    · rw [hlist, length_recencyList]
      exact le_rfl

section
variable (s : State)

theorem storedWithin_put (t : State) (b : Byte) (h : StoredWithin s t) (hlt : t.wbits.toNat < 8 * t.cfg.bitcap) :
    StoredWithin s ((t.storeBytes .bits (t.wbits.toNat / 8) [b]).setWbits (t.wbits.toNat + 1)) := by
  obtain ⟨hstored, hlim⟩ := h
  rw [hstored.1] at hlt
  refine ⟨(hstored.storeBytes ?_).setWbits _, hlim⟩
  show 1 ≤ s.cfg.bitcap - t.wbits.toNat / 8
  omega

theorem runHufEncode_meets (b : Buf) : (runHufEncode b s).Meets (StoredFrom s) (Unread s) := by
  unfold runHufEncode
  split_ifs with hv hn
  · exact .refl s
  · exact .refl s
  · exact (encodeFrom_meets (P := StoredWithin s) (Q := Unread s) (fun _ _ _ h => h.unread) (storedWithin_put s)
      (fun _ _ _ h => h) b 0 s.argN ⟨.refl s, rfl⟩ (by omega)).mono (fun _ h => h.1) fun _ h => h

theorem runHufDecode_meets (b : Buf) : (runHufDecode b s).Meets (StoredFrom s) (Unread s) := by
  unfold runHufDecode
  dsimp only
  split_ifs with hv hn hzero hmin hone
  · exact .refl s
  · exact .refl s
  · exact .refl s
  · exact .refl s
  · unfold decodeLone
    split_ifs
    · exact .refl s
    split
    next hs => exact unread_of_slotAt s.root.isLt hs
    next =>
      refine (StoredFrom.refl s).storeBytes ?_
      rw [List.length_replicate, cap_bufWindow]
      omega
  · refine (decodeFrom_meets (P := StoredWithin s) (Q := Unread s) (n := s.cfg.nbuf) (fun _ _ _ h => h.unread)
      (fun _ h _ => h) (fun _ _ _ h => h) (fun t j c hj h => ⟨h.1.storeBytes ?_, h.2⟩) s.rcur.toNat 0 s.argN
      ⟨.refl s, rfl⟩ (by omega)).mono (fun _ h => h.1) fun _ h => h
    rw [cap_bufWindow, List.length_singleton]
    omega

theorem runBwPut_meets (cnt : Nat) : (runBwPut cnt s).Meets (StoredFrom s) (Unread s) := by
  unfold runBwPut
  split_ifs with hover
  · exact .refl s
  have hm := putBits_meets (P := StoredWithin s) (Q := Unread s) (fun _ _ _ h => h.unread) (storedWithin_put s)
    (lowBits s.latch.a0 cnt) ⟨.refl s, rfl⟩ (by rw [lowBits_eq_lowBitList, length_lowBitList]; omega)
  cases hp : putBits (lowBits s.latch.a0 cnt) s <;> rw [hp] at hm
  · exact hm.1
  · exact hm.1
  · exact hm

theorem runBrGet_meets (cnt : Nat) : (runBrGet cnt s).Meets (StoredFrom s) (Unread s) := by
  unfold runBrGet
  split_ifs
  · exact .refl s
  have hm := getBits_meets (P := StoredWithin s) (Q := Unread s) (fun _ _ _ h => h.unread) (fun _ h _ => h) cnt 0
    ⟨.refl s, rfl⟩
  cases hg : getBits cnt 0 s <;> rw [hg] at hm
  · exact hm.1
  · exact hm.1
  · exact hm

theorem runFreqCount_meets (b : Buf) : (runFreqCount b s).Meets (StoredFrom s) (Unread s) := by
  unfold runFreqCount
  dsimp only
  split_ifs
  · exact .refl s
  split
  next hn => exact unread_of_source (by omega) hn
  next src _ =>
    refine ((StoredFrom.refl s).storeWords ?_).setRes _ _
    rw [List.length_map, length_frequencies]
    exact le_rfl

theorem runHufBuild_meets : (runHufBuild s).Meets (StoredFrom s) (Unread s) := by
  unfold runHufBuild
  split
  next hn =>
    obtain ⟨j, hj, hword⟩ := exists_wordAt_eq_none hn
    obtain ⟨k, hk, hb⟩ := wordAt_eq_none.mp hword
    exact ⟨_, _, rfl, hb, fun _ => show _ < 0x400 by omega⟩
  next ws hws =>
    have hlen := (isFreqTable_map_toNat (wordsAt_eq_some.mp hws).1).1
    exact (StoredFrom.refl s).storeWords (w := .tree) (i := 0)
      (by rw [length_treeWords_buildNodes hlen]; exact le_rfl)

theorem runBwtInv_meets (b : Buf) : (runBwtInv b s).Meets (StoredFrom s) (Unread s) := by
  unfold runBwtInv
  dsimp only
  split_ifs
  · exact .refl s
  · exact .refl s
  split
  next hn => exact unread_of_source (by omega) hn
  next src hsrc =>
    have hlen := (source_eq_some.mp hsrc).1
    refine ((((StoredFrom.refl s).storeWords ?_).storeWords ?_).storeBytes ?_).setRes _ _
    · rw [List.length_map, length_rankTable, hlen]
      show _ ≤ 4 * s.cfg.nbuf - _
      omega
    · rw [List.length_map, length_firstTable]
      exact le_rfl
    · rw [length_bwtWalk, cap_bufWindow]
      omega

/-- HUF_CODES alone can have another fault: no depth left. -/
theorem runHufCodes_meets :
    (runHufCodes s).Meets (StoredFrom s) (fun f => Unread s f ∨ f = .treeTooDeep) := by
  unfold runHufCodes
  split_ifs
  · exact .refl s
  split
  next hc => exact assignedCodes_error hc
  next =>
    exact (StoredFrom.refl s).storeWords (w := .code) (i := 0) (by rw [codeWords_length]; exact le_rfl)

/-- Every command only stores inside storage, and faults on an entry there that nothing has written, or, HUF_CODES, on a
tree deeper than its slots. -/
theorem runOf_meets (i : Instr) :
    (runOf i s).Meets (StoredFrom s) fun f => Unread s f ∨ (i = .hufCodes ∧ f = .treeTooDeep) := by
  cases i with
  | nop | bwInit | bwFlush => exact .refl s
  | brInit =>
    simp only [runOf, runBrInit]
    split_ifs <;> exact .refl s
  | hufCodes => exact (runHufCodes_meets s).mono (fun _ h => h) fun _ h => h.imp_right fun h => ⟨rfl, h⟩
  | freqCount b => exact (runFreqCount_meets s b).mono (fun _ h => h) fun _ => .inl
  | hufBuild => exact (runHufBuild_meets s).mono (fun _ h => h) fun _ => .inl
  | hufEncode b => exact (runHufEncode_meets s b).mono (fun _ h => h) fun _ => .inl
  | hufDecode b => exact (runHufDecode_meets s b).mono (fun _ h => h) fun _ => .inl
  | bwPut cnt => exact (runBwPut_meets s cnt).mono (fun _ h => h) fun _ => .inl
  | brGet cnt => exact (runBrGet_meets s cnt).mono (fun _ h => h) fun _ => .inl
  | mtfFwd b => exact (runRankList_meets s length_mtfForward).mono (fun _ h => h) fun _ => .inl
  | mtfInv b => exact (runRankList_meets s length_mtfInverse).mono (fun _ h => h) fun _ => .inl
  | bwtInv b => exact (runBwtInv_meets s b).mono (fun _ h => h) fun _ => .inl

end

/-- Settles O12: a rule that does not end faults on an entry never written, which its memory has inside storage. -/
theorem commandsEndOrReadUnwritten : Obligations.CommandsEndOrReadUnwritten := by
  intro i s
  have hm := runOf_meets (begin s) i
  cases hr : runOf i (begin s) with
  | done _ t => exact .inl ⟨_, by rw [exec_eq, hr]; rfl⟩
  | raised e t => exact .inl ⟨_, by rw [exec_eq, hr]; rfl⟩
  | stuck f =>
    rw [hr] at hm
    have he : exec i s = .fault f := exec_of_stuck hr
    rcases hm with ⟨w, o, rfl, hb, hin⟩ | ⟨hi, rfl⟩
    · exact .inr (.inl ⟨w, o, he, hb, hin⟩)
    · exact .inr (.inr ⟨hi, he⟩)

/-! ### Every step -/

theorem exec_stores {i : Instr} {s t : State} (h : exec i s = .next t) : StoresInto s.cfg s.mem t.mem := by
  have hm := runOf_meets (begin s) i
  rw [exec_eq, commit_next_iff] at h
  rcases h with ⟨u, hr, rfl⟩ | ⟨e, u, hr, rfl⟩ <;> rw [hr] at hm <;> rw [complete_mem] <;> exact hm.2

theorem WriteEffect.stores {a : BitVec 24} {v : Word} {s t : State} (h : WriteEffect a v s t) :
    StoresInto s.cfg s.mem t.mem := by
  cases h with
  | stored w o => exact .store .refl w o _ (List.length_take_le _ _)
  | _ => exact .refl

theorem mem_hostRead (a : BitVec 24) (s : State) : (hostRead a s).mem = s.mem := by
  rcases hostRead_cases a s with ⟨d, n, h⟩ | ⟨-, -, h⟩ <;> rw [h]

/-- A step only stores inside storage, or is the power-on reset, which unwrites every memory. -/
theorem step_stores {s t : State} (h : step s = .next t) :
    StoresInto s.cfg s.mem t.mem ∨ (AtReset t ∧ t.mem = Memories.unwritten) := by
  cases step_effect h with
  | command i _ _ _ he => exact .inl (exec_stores (s := popEvent s) he)
  | illegal => exact .inl (by rw [completeIllegal, complete_mem]; exact .refl)
  | idle => exact .inl .refl
  | read a => exact .inl (by rw [mem_hostRead]; exact .refl)
  | write a v => exact .inl (hostWrite_effect a v (popEvent s)).stores
  | rstFall => exact .inr ⟨atReset_powerOn s.cfg, rfl⟩
  | rstRise => exact .inl .refl

/-- Settles O51: stores keep the canonical form and, inside storage, the caps; unwritten memories have both. -/
theorem memoriesStayCanonicalAndInStorage : Obligations.MemoriesStayCanonicalAndInStorage := by
  intro s t h
  have hcfg := step_cfg h
  rcases step_stores h with hm | ⟨-, hm⟩
  · refine ⟨fun hs => hm.wf hs, fun ⟨hlegal, hs⟩ => ?_⟩
    rw [EntriesInStorage, hcfg]
    exact ⟨hlegal, hm.inStorage hs⟩
  · refine ⟨fun _ w => by rw [hm]; exact memories_unwritten_wf w, fun ⟨hlegal, _⟩ => ?_⟩
    rw [EntriesInStorage, hcfg]
    exact ⟨hlegal, fun w o hb => by simp [State.byteAt, hm] at hb⟩

end Sys2Proof.Machine
end

section
/-! SUPPORT. What a step does to the registers that only commands move, and to the memories, said once for all steps
(spec/10_state.md R30–R35, R40–R48, R51). -/

namespace Sys2Proof.Machine

/-! ### The registers -/

/-- The registers that only commands move, resets apart, are in `t` as in `s`. -/
structure RegistersKept (s t : State) : Prop where
  wbits : t.wbits = s.wbits
  rcur : t.rcur = s.rcur
  rlim : t.rlim = s.rlim
  nleaf : t.nleaf = s.nleaf
  nnode : t.nnode = s.nnode
  root : t.root = s.root
  validity : SameValidity s t

theorem RegistersKept.refl (s : State) : RegistersKept s s := ⟨rfl, rfl, rfl, rfl, rfl, rfl, .refl s⟩

/-- Taking the event off the schedule moves none of them. -/
theorem RegistersKept.of_popEvent {s t : State} (h : RegistersKept (popEvent s) t) : RegistersKept s t :=
  ⟨h.wbits, h.rcur, h.rlim, h.nleaf, h.nnode, h.root, h.validity⟩

/-- What a step from `s` to `t` was for these registers: a reset, the completion of a command, or nothing, and then at
most a host store for the memories. -/
inductive RegisterEffect (s t : State) : Prop where
  | reset (h : AtReset t)
  | command (i : Instr) (u : State) (o : Option ErrorKind) (hr : engineRuns s = true) (hd : decode s.latch.w = .ok i)
    (hp : s.srstPend = false) (he : exec i (popEvent s) = .next t)
    (hf : Frame (writesOf i) (partsOf i) (begin (popEvent s)) u) (ht : t = { u with status := u.status.completed o })
  | kept (h : RegistersKept s t) (hm : SameBut [.freq, .bufA, .bufB, .bits] s t)

/-- R61: the windows the host may write. -/
theorem mem_of_hostWritable {w : Window} (h : w.hostWritable = true) : w ∈ [Window.freq, .bufA, .bufB, .bits] := by
  revert h
  cases w <;> decide

/-- Only the four writable memories change in a host write. -/
theorem WriteEffect.sameBut {a : BitVec 24} {v : Word} {s t : State} (h : WriteEffect a v s t) :
    SameBut [.freq, .bufA, .bufB, .bits] s t := by
  cases h with
  | stored w o _ hw =>
    intro w' hw' x
    exact State.byteAt_storeBytes_ne s o x _ fun heq => hw' (heq ▸ mem_of_hostWritable hw)
  | _ => exact fun _ _ _ => rfl

theorem registersKept_hostRead (a : BitVec 24) (s : State) : RegistersKept s (hostRead a s) := by
  rcases hostRead_cases a s with ⟨d, n, h⟩ | ⟨-, -, h⟩ <;> rw [h] <;>
    exact ⟨rfl, rfl, rfl, rfl, rfl, rfl, rfl, rfl, rfl⟩

/-- A host write moves none of them unless it is a soft reset. -/
theorem WriteEffect.registersKept {a : BitVec 24} {v : Word} {s t : State} (h : WriteEffect a v s t) :
    AtReset t ∨ RegistersKept s t := by
  cases h with
  | ctrlReset => exact .inl (atReset_softReset s)
  | _ => exact .inr ⟨rfl, rfl, rfl, rfl, rfl, rfl, rfl, rfl, rfl⟩

/-- The completion of an illegal word moves none of them unless it ends in a soft reset. -/
theorem registersKept_completeIllegal (s : State) :
    AtReset (completeIllegal s) ∨ RegistersKept s (completeIllegal s) := by
  rcases complete_cases (some .illegalCmd) (begin s) with ⟨-, h⟩ | ⟨-, h⟩ <;> rw [completeIllegal, h]
  · exact .inr ⟨rfl, rfl, rfl, rfl, rfl, rfl, rfl, rfl, rfl⟩
  · exact .inl (atReset_softReset _)

/-- Host reads and the completion of an illegal word change no memory. -/
theorem sameBut_hostRead (ws : List Window) (a : BitVec 24) (s : State) : SameBut ws s (hostRead a s) :=
  fun _ _ _ => by rw [State.byteAt, mem_hostRead, State.byteAt]

theorem sameBut_completeIllegal (ws : List Window) (s : State) : SameBut ws s (completeIllegal s) :=
  fun _ _ _ => by rw [completeIllegal, State.byteAt_complete, State.byteAt_begin]

theorem step_registerEffect {s t : State} (h : step s = .next t) : RegisterEffect s t := by
  cases step_effect h with
  | command i _ hr hd he =>
    obtain ⟨u, o, hf, hu, -⟩ := exec_next he
    rcases complete_cases o u with ⟨hp, hc⟩ | ⟨-, hc⟩ <;> rw [hc] at hu
    · exact .command i u o hr hd (hf.srstPend.symm.trans hp) he hf hu
    · exact .reset (hu ▸ atReset_softReset _)
  | illegal =>
    exact (registersKept_completeIllegal (popEvent s)).elim .reset fun hk =>
      .kept hk.of_popEvent (sameBut_completeIllegal _ (popEvent s))
  | idle => exact .kept (RegistersKept.refl _).of_popEvent fun _ _ _ => rfl
  | read a => exact .kept (registersKept_hostRead a (popEvent s)).of_popEvent (sameBut_hostRead _ a (popEvent s))
  | write a v =>
    have heffect := hostWrite_effect a v (popEvent s)
    exact heffect.registersKept.elim .reset fun hk => .kept hk.of_popEvent heffect.sameBut
  | rstFall => exact .reset (atReset_powerOn s.cfg)
  | rstRise => exact .kept ⟨rfl, rfl, rfl, rfl, rfl, rfl, .refl s⟩ fun _ _ _ => rfl

/-! ### The memories -/

/-- What a step from `s` to `t` was for the memories: power-on reset, the run of a command, or at most a host store. -/
inductive MemoryEffect (s t : State) : Prop where
  | unwritten (he : nextEvent s = .rstFall) (h : t.mem = Memories.unwritten)
  | command (i : Instr) (hr : engineRuns s = true) (hd : decode s.latch.w = .ok i)
    (he : exec i (popEvent s) = .next t)
  | host (h : SameBut [.freq, .bufA, .bufB, .bits] s t)

theorem step_memoryEffect {s t : State} (h : step s = .next t) : MemoryEffect s t := by
  cases step_effect h with
  | command i _ hr hd he => exact .command i hr hd he
  | illegal => exact .host (sameBut_completeIllegal _ (popEvent s))
  | idle => exact .host fun _ _ _ => rfl
  | read a => exact .host (sameBut_hostRead _ a (popEvent s))
  | write a v => exact .host (hostWrite_effect a v (popEvent s)).sameBut
  | rstFall he => exact .unwritten he rfl
  | rstRise => exact .host fun _ _ _ => rfl

/-! ### Their writers -/

/-- R32: BR_INIT alone moves the reader's end. -/
theorem eq_brInit_of_limit {i : Instr} (h : .limit ∈ partsOf i) : i = .brInit := by
  cases i <;> simp [partsOf] at h ⊢

/-- Settles O58: by what the step was for the registers, and which commands move the writer, the reader and its end. -/
theorem streamRegistersChangeOnlyAsStated : Obligations.StreamRegistersChangeOnlyAsStated := by
  intro s t h hn
  cases step_registerEffect h with
  | reset hr => exact absurd hr hn
  | kept hk _ => exact ⟨absurd hk.wbits, absurd hk.rcur, absurd hk.rlim⟩
  | command i u o hr hd _ _ hf ht =>
    subst ht
    refine ⟨fun hw => ⟨hr, i, hd, ?_⟩, fun hw => ⟨hr, i, hd, ?_⟩, fun hw => ⟨hr, ?_⟩⟩
    · have hmoves : .writer ∈ partsOf i := by_contra fun hnot => hw (hf.wbits hnot)
      cases i <;> simp [partsOf] at hmoves ⊢
    · have hmoves : .reader ∈ partsOf i := by_contra fun hnot => hw (hf.rcur hnot)
      cases i <;> simp [partsOf] at hmoves ⊢
    · have hmoves : .limit ∈ partsOf i := by_contra fun hnot => hw (hf.rlim hnot)
      exact eq_brInit_of_limit hmoves ▸ hd

/-- R41–R44, R48: the command that writes a memory the host cannot write. -/
theorem writer_of_readOnly {w : Window} {i : Instr} (hw : w ∈ [Window.first, .rlist, .tree, .code, .rank])
    (h : w ∈ writesOf i) :
    (w = .tree ∧ i = .hufBuild) ∨ (w = .code ∧ i = .hufCodes) ∨
      (w = .rlist ∧ ((∃ b, i = .mtfFwd b) ∨ ∃ b, i = .mtfInv b)) ∨
      ((w = .first ∨ w = .rank) ∧ ∃ b, i = .bwtInv b) := by
  have hbuf : ∀ b, w ≠ bufWindow b := by
    rintro b rfl
    cases b <;> simp [bufWindow] at hw
  cases i with
  | nop | bwInit | bwFlush | brInit | brGet => cases h
  | freqCount | hufEncode | bwPut =>
    obtain rfl := List.mem_singleton.mp h
    simp at hw
  | hufDecode b => exact absurd (List.mem_singleton.mp h) (hbuf b)
  | hufBuild => exact .inl ⟨List.mem_singleton.mp h, rfl⟩
  | hufCodes => exact .inr (.inl ⟨List.mem_singleton.mp h, rfl⟩)
  | mtfFwd b =>
    have hlist : w = .rlist := by simpa [writesOf, hbuf] using h
    exact .inr (.inr (.inl ⟨hlist, .inl ⟨b, rfl⟩⟩))
  | mtfInv b =>
    have hlist : w = .rlist := by simpa [writesOf, hbuf] using h
    exact .inr (.inr (.inl ⟨hlist, .inr ⟨b, rfl⟩⟩))
  | bwtInv b =>
    have htable : w = .rank ∨ w = .first := by simpa [writesOf, hbuf] using h
    exact .inr (.inr (.inr ⟨htable.symm, b, rfl⟩))

/-- Settles O59: by what the step was for the memories, and which command writes which. -/
theorem readOnlyMemoriesHaveTheirWriters : Obligations.ReadOnlyMemoriesHaveTheirWriters := by
  intro s t h hfall w o hw hchanged
  cases step_memoryEffect h with
  | unwritten he => exact absurd he hfall
  | host hsame =>
    have hhost : w ∉ [Window.freq, .bufA, .bufB, .bits] := by
      intro hin
      cases w <;> simp at hw hin
    exact absurd (hsame w hhost o) hchanged
  | command i hr hd he =>
    obtain ⟨-, -, -, -, hsame⟩ := exec_next he
    have hwrites : w ∈ writesOf i := by_contra fun hnot => hchanged (hsame w hnot o)
    exact ⟨hr, i, hd, writer_of_readOnly hw hwrites⟩

end Sys2Proof.Machine
end

section
/-! SUPPORT. The flags agree with each other, and the tree registers with the tree in `TREE` and the codes in `CODE`, after
every step (spec/10_state.md R24, R33–R35, R50, R51). -/

namespace Sys2Proof.Machine

/-! ### The report of a completion -/

/-- R24, R50, R200: `BUSY`, `DONE`, `ERR` and `ERRCODE` agree, and a soft reset is pending only while busy. -/
def ReportAgrees (s : State) : Prop :=
  (s.status.busy = true → s.status.done = false ∧ s.status.errcode = 0#4) ∧
  (s.status.err = true ↔ s.status.errcode ≠ 0#4) ∧ s.status.errcode.toNat ≤ 7 ∧
  (s.srstPend = true → s.status.busy = true)

/-- R51: `CODEV` needs `TREEV`, and `LONE` is 1 exactly for a valid tree of one leaf. -/
def ValidityAgrees (s : State) : Prop :=
  (s.status.codev = true → s.status.treev = true) ∧
  (s.status.lone = true ↔ s.status.treev = true ∧ s.nleaf.toNat = 1)

theorem flagsAgree_iff (s : State) : FlagsAgree s ↔ ReportAgrees s ∧ ValidityAgrees s := by
  simp only [FlagsAgree, ReportAgrees, ValidityAgrees, and_assoc]

/-- R102, R200, R205: `ERR` and `ERRCODE` at a completion. -/
theorem completed_report (o : Option ErrorKind) (t : Status) :
    ((t.completed o).err = true ↔ (t.completed o).errcode ≠ 0#4) ∧ (t.completed o).errcode.toNat ≤ 7 := by
  cases o with
  | none => exact ⟨by simp [Status.completed, errcodeOf], Nat.zero_le _⟩
  | some e =>
    obtain ⟨hne, hle⟩ := errcode_range e
    exact ⟨by simpa [Status.completed, errcodeOf] using hne, hle⟩

/-- Settles O10: the flags by the completion, what no command touches by its frame. -/
theorem completionReportsAndKeepsHostRegisters : Obligations.CompletionReportsAndKeepsHostRegisters := by
  intro i s t hp h
  obtain ⟨u, o, hf, rfl, -⟩ := exec_next h
  rw [complete_eq o u (hf.srstPend.trans hp)]
  obtain ⟨herr, hcode⟩ := completed_report o u.status
  exact ⟨rfl, rfl, herr, hcode, hf.accv, hf.ovr, hf.ie, hf.cmd, hf.arg0, hf.arg1, hf.latch, hf.cfg,
    hf.srstPend.trans hp, hf.rstLow, hf.rdata, hf.schedule, hf.freeCount⟩

theorem reportAgrees_cleared {s : State} (hs : s.status = Status.cleared) (hp : s.srstPend = false) :
    ReportAgrees s := by
  simp [ReportAgrees, hs, hp, Status.cleared]

theorem reportAgrees_complete (o : Option ErrorKind) (s : State) : ReportAgrees (complete o s) := by
  rcases complete_cases o s with ⟨hp, h⟩ | ⟨-, h⟩ <;> rw [h]
  · obtain ⟨herr, hcode⟩ := completed_report o s.status
    exact ⟨nofun, herr, hcode, fun hpend => by simp [hp] at hpend⟩
  · exact reportAgrees_cleared rfl rfl

theorem ReportAgrees.hostRead {s : State} (h : ReportAgrees s) (a : BitVec 24) : ReportAgrees (hostRead a s) := by
  rcases hostRead_cases a s with ⟨d, n, hr⟩ | ⟨-, -, hr⟩ <;> rw [hr] <;> exact h

/-- R23, R24, R100, R101: what a host write leaves of the report. -/
theorem WriteEffect.reportAgrees {a : BitVec 24} {v : Word} {s t : State} (h : WriteEffect a v s t)
    (hs : ReportAgrees s) : ReportAgrees t := by
  obtain ⟨hbusy, herr, hcode, hpend⟩ := hs
  cases h with
  | ctrlBusy hb => exact ⟨hbusy, herr, hcode, fun _ => hb⟩
  | ctrlReset => exact reportAgrees_cleared rfl rfl
  | status =>
    refine ⟨fun hb => ?_, herr, hcode, hpend⟩
    obtain ⟨hdone, hzero⟩ := hbusy hb
    exact ⟨by simp [Status.writeOneToClear, hdone], hzero⟩
  | accepted => exact ⟨fun _ => ⟨rfl, rfl⟩, by simp [Status.accepted], Nat.zero_le _, fun _ => rfl⟩
  | ignored | ctrlIdle | arg0 | arg1 | dropped | blocked | stored => exact ⟨hbusy, herr, hcode, hpend⟩

theorem ReportAgrees.step {s t : State} (hs : ReportAgrees s) (h : step s = .next t) : ReportAgrees t := by
  cases step_effect h with
  | command i _ _ _ he =>
    obtain ⟨u, o, -, rfl, -⟩ := exec_next he
    exact reportAgrees_complete o u
  | illegal => exact reportAgrees_complete _ _
  | idle => exact hs
  | read a => exact ReportAgrees.hostRead (s := popEvent s) hs a
  | write a v => exact (hostWrite_effect a v (popEvent s)).reportAgrees hs
  | rstFall => exact reportAgrees_cleared rfl rfl
  | rstRise => exact hs

/-! ### The validity flags and the tree registers -/

/-- HUF_BUILD that answers has read the 256 counts. -/
theorem exec_hufBuild_next {s t : State} (hp : s.srstPend = false) (h : exec .hufBuild s = .next t) :
    ∃ fs, IsFreqTable fs ∧ t = s.treeOf fs := by
  cases hread : (begin s).wordsAt .freq 0 256 with
  | none =>
    rw [exec_of_stuck (i := .hufBuild) (runHufBuild_stuck hread)] at h
    cases h
  | some ws =>
    obtain ⟨hlen, hws⟩ := wordsAt_eq_some.mp hread
    rw [exec_hufBuild hp hlen fun j hj => hws j (hlen ▸ hj)] at h
    exact ⟨_, isFreqTable_map_toNat hlen, (Host.Outcome.next.inj h).symm⟩

/-- HUF_BUILD alone moves the tree registers. -/
theorem tree_notMem_partsOf {i : Instr} (h : i ≠ .hufBuild) : .tree ∉ partsOf i := by
  intro hmem
  cases i <;> simp [partsOf] at hmem h

theorem toNat_nleaf_treeOf (s : State) (fs : List Nat) : (s.treeOf fs).nleaf.toNat = (codedSymbols fs).length :=
  toNat_wordOf (by have := length_codedSymbols_le fs; omega)

/-- R51: the validity flags HUF_BUILD leaves agree. -/
theorem validityAgrees_treeOf (s : State) (fs : List Nat) : ValidityAgrees (s.treeOf fs) := by
  rw [ValidityAgrees, toNat_nleaf_treeOf]
  simp [State.treeOf]

theorem ValidityAgrees.congr {s t : State} (h : ValidityAgrees s) (hv : SameValidity s t) (hn : t.nleaf = s.nleaf) :
    ValidityAgrees t := by
  obtain ⟨htreev, hcodev, hlone⟩ := hv
  rwa [ValidityAgrees, htreev, hcodev, hlone, hn]

theorem ValidityAgrees.step {s t : State} (hs : ValidityAgrees s) (h : step s = .next t) : ValidityAgrees t := by
  by_cases hn : AtReset t
  · obtain ⟨htreev, hcodev, hlone⟩ := validity_of_atReset hn
    simp [ValidityAgrees, htreev, hcodev, hlone]
  cases step_registerEffect h with
  | reset hr => exact absurd hr hn
  | kept hk _ => exact hs.congr hk.validity hk.nleaf
  | command i u o hr hd hp he hf ht =>
    by_cases hbuild : i = .hufBuild
    · subst hbuild
      obtain ⟨fs, -, rfl⟩ := exec_hufBuild_next (s := popEvent s) hp he
      exact validityAgrees_treeOf _ fs
    have htree := tree_notMem_partsOf hbuild
    have hnleaf : t.nleaf = s.nleaf := by rw [ht]; exact hf.nleaf htree
    by_cases hcodes : i = .hufCodes ∧ s.status.treev = true
    · obtain ⟨rfl, hv⟩ := hcodes
      obtain ⟨hcodev, htreev, hlone⟩ := exec_hufCodes_validity (s := popEvent s) he hp hv
      rw [ValidityAgrees, hlone, hnleaf]
      refine ⟨fun _ => htreev, hs.2.trans ?_⟩
      rw [hv, htreev]
    · refine hs.congr (sameValidity_step h ?_ ?_ hn) hnleaf <;> rw [hd]
      · exact fun hb => hbuild (Except.ok.inj hb.2)
      · exact fun hc => hcodes ⟨Except.ok.inj hc.2.1, hc.2.2⟩

theorem treeRegistersAgree_treeOf (s : State) (fs : List Nat) : TreeRegistersAgree (s.treeOf fs) := by
  have hk := length_codedSymbols_le fs
  rw [TreeRegistersAgree, toNat_nleaf_treeOf]
  refine ⟨hk, toNat_wordOf ?_, (BitVec.toNat_ofNat _ _).trans (Nat.mod_eq_of_lt ?_)⟩
  · have := nnodeOf_le hk
    omega
  · unfold rootOf
    split <;> omega

/-- R33–R35: the tree registers at reset. -/
theorem treeRegistersAgree_of_atReset {t : State} (h : AtReset t) : TreeRegistersAgree t := by
  obtain ⟨-, -, -, -, -, -, -, -, -, -, hnleaf, hnnode, hroot⟩ := h
  change t.nleaf = 0#32 at hnleaf
  change t.nnode = 0#32 at hnnode
  have hroot' := congrArg BitVec.toNat hroot
  simp only [State.regRead, BitVec.toNat_setWidth] at hroot'
  have := t.root.isLt
  rw [TreeRegistersAgree, hnleaf, hnnode]
  simp at hroot' ⊢
  omega

theorem TreeRegistersAgree.step {s t : State} (hs : TreeRegistersAgree s) (h : step s = .next t) :
    TreeRegistersAgree t := by
  cases step_registerEffect h with
  | reset hr => exact treeRegistersAgree_of_atReset hr
  | kept hk _ => rwa [TreeRegistersAgree, hk.nleaf, hk.nnode, hk.root]
  | command i u o _ _ hp he hf ht =>
    by_cases hbuild : i = .hufBuild
    · subst hbuild
      obtain ⟨fs, -, rfl⟩ := exec_hufBuild_next (s := popEvent s) hp he
      exact treeRegistersAgree_treeOf _ fs
    · have htree := tree_notMem_partsOf hbuild
      subst ht
      rw [TreeRegistersAgree]
      dsimp only
      rw [hf.nleaf htree, hf.nnode htree, hf.root htree]
      exact hs

/-- Settles O53: the report, the validity flags and the tree registers, each kept by every step. -/
theorem flagsStayInAgreement : Obligations.FlagsStayInAgreement := by
  intro s t h
  refine ⟨fun hs => ?_, fun hs => hs.step h⟩
  obtain ⟨hreport, hvalid⟩ := (flagsAgree_iff s).mp hs
  exact (flagsAgree_iff t).mpr ⟨hreport.step h, hvalid.step h⟩

/-! ### The tree and the codes -/

theorem HoldsTreeOf.congr {s t : State} {fs : List Nat} (h : HoldsTreeOf s fs)
    (hb : ∀ o, t.byteAt .tree o = s.byteAt .tree o) (hn : t.nleaf = s.nleaf) (hr : t.root = s.root) :
    HoldsTreeOf t fs := by
  obtain ⟨hstored, hnleaf, hroot⟩ := h
  exact ⟨treeStored_congr hstored hb, hn ▸ hnleaf, hr ▸ hroot⟩

/-- R162: in two states that hold the tree of one table HUF_CODES assigns the same codes. -/
theorem HoldsTreeOf.assignedCodes_eq {s t : State} {fs : List Nat} (hs : HoldsTreeOf s fs) (ht : HoldsTreeOf t fs)
    (hfs : IsFreqTable fs) : assignedCodes t = assignedCodes s := by
  obtain ⟨codes, h⟩ := exists_isCodeTable hfs.1
  rw [h.computed s hs, h.computed t ht]

/-- What changes neither the tree nor the codes, in the registers and in the memories, leaves them valid. -/
theorem TreeAndCodeValid.congr {s t : State} (h : TreeAndCodeValid s) (hn : t.nleaf = s.nleaf) (hr : t.root = s.root)
    (hv : SameValidity s t) (htree : ∀ o, t.byteAt .tree o = s.byteAt .tree o)
    (hcode : ∀ o, t.byteAt .code o = s.byteAt .code o) : TreeAndCodeValid t := by
  obtain ⟨hgate, hvalid, hcodes⟩ := h
  obtain ⟨htreev, hcodev, -⟩ := hv
  rw [TreeAndCodeValid, htreev, hcodev]
  refine ⟨hgate, fun htv => ?_, fun hcv => ?_⟩
  · obtain ⟨fs, hfs, hs⟩ := hvalid htv
    exact ⟨fs, hfs, hs.congr htree hn hr⟩
  · obtain ⟨fs, hfs, hs⟩ := hvalid (hgate hcv)
    obtain ⟨codes, hassigned, hheld⟩ := hcodes hcv
    exact ⟨codes, (hs.assignedCodes_eq (hs.congr htree hn hr) hfs).trans hassigned, fun c => codeIs_congr (hheld c) hcode⟩

/-- R24: without a valid tree there is nothing to hold. -/
theorem treeAndCodeValid_of_not_treev {s : State} (ht : s.status.treev = false) (hc : s.status.codev = false) :
    TreeAndCodeValid s := by
  simp [TreeAndCodeValid, ht, hc]

/-- R51, R161: HUF_BUILD leaves a valid tree. -/
theorem treeAndCodeValid_treeOf (s : State) {fs : List Nat} (hfs : IsFreqTable fs) : TreeAndCodeValid (s.treeOf fs) :=
  ⟨fun _ => rfl, fun _ => ⟨fs, hfs, holdsTreeOf_treeOf hfs⟩, nofun⟩

/-- R202: a command that needs a flag that is not set raises `SEQUENCE` and changes only its report. -/
theorem exec_missesFlag {i : Instr} {s : State} (hi : MissesFlag i s.status) (hp : s.srstPend = false) :
    exec i s = .next { s with res0 := 0#32, res1 := 0#32, status := s.status.failed 3#4 } :=
  exec_of_raised (runOf_missesFlag (s := begin s) hi) hp

/-- R51, R162: HUF_CODES leaves the tree valid, and with it the codes if there is a tree. -/
theorem TreeAndCodeValid.hufCodes {s t : State} (hs : TreeAndCodeValid s) (hp : s.srstPend = false)
    (h : exec .hufCodes s = .next t) : TreeAndCodeValid t := by
  obtain ⟨hgate, hvalid, -⟩ := hs
  cases hv : s.status.treev with
  | false =>
    rw [exec_missesFlag (i := .hufCodes) (.inl ⟨rfl, hv⟩) hp] at h
    obtain rfl := Host.Outcome.next.inj h
    exact treeAndCodeValid_of_not_treev hv (Bool.eq_false_iff.mpr fun hc => by simp [hgate hc] at hv)
  | true =>
    obtain ⟨fs, hfs, htree⟩ := hvalid hv
    obtain ⟨codes, hcodes⟩ := exists_isCodeTable hfs.1
    obtain ⟨-, -, -, -, hsame⟩ := exec_next h
    rw [exec_hufCodes hp hv htree hcodes] at h
    obtain rfl := Host.Outcome.next.inj h
    have htree' : HoldsTreeOf (s.withCodes codes) fs := htree.congr (hsame .tree (by decide)) rfl rfl
    exact ⟨fun _ => hv, fun _ => ⟨fs, hfs, htree'⟩, fun _ =>
      ⟨codes, hcodes.computed _ htree', codeIs_withCodes s codes⟩⟩

/-- HUF_BUILD and HUF_CODES are the only commands that write `TREE` or `CODE`. -/
theorem tree_code_notMem_writesOf {i : Instr} (hb : i ≠ .hufBuild) (hc : i ≠ .hufCodes) :
    .tree ∉ writesOf i ∧ .code ∉ writesOf i := by
  refine ⟨fun hmem => hb ?_, fun hmem => hc ?_⟩
  · simpa using writer_of_readOnly (by decide) hmem
  · simpa using writer_of_readOnly (by decide) hmem

/-- Settles O54: a reset clears the flags, HUF_BUILD and HUF_CODES leave what they say, and every other step changes
neither the flags nor what they speak of. -/
theorem treeAndCodeStayValid : Obligations.TreeAndCodeStayValid := by
  intro s t hs h
  by_cases hn : AtReset t
  · obtain ⟨htreev, hcodev, -⟩ := validity_of_atReset hn
    exact treeAndCodeValid_of_not_treev htreev hcodev
  cases step_registerEffect h with
  | reset hr => exact absurd hr hn
  | kept hk hm => exact hs.congr hk.nleaf hk.root hk.validity (hm .tree (by decide)) (hm .code (by decide))
  | command i u o _ hd hp he hf ht =>
    by_cases hbuild : i = .hufBuild
    · subst hbuild
      obtain ⟨fs, hfs, rfl⟩ := exec_hufBuild_next (s := popEvent s) hp he
      exact treeAndCodeValid_treeOf _ hfs
    by_cases hcodes : i = .hufCodes
    · subst hcodes
      exact (hs.congr (t := popEvent s) rfl rfl (.refl s) (fun _ => rfl) fun _ => rfl).hufCodes hp he
    have hmoves : ¬ (.tree ∈ partsOf i ∨ .codes ∈ partsOf i) := by
      rw [movesValidity_iff]
      exact not_or.mpr ⟨hbuild, hcodes⟩
    obtain ⟨hptree, hpcodes⟩ := not_or.mp hmoves
    obtain ⟨hwtree, hwcode⟩ := tree_code_notMem_writesOf hbuild hcodes
    obtain ⟨-, -, -, -, hsame⟩ := exec_next he
    refine hs.congr ?_ ?_ ?_ (hsame .tree hwtree) (hsame .code hwcode) <;> rw [ht]
    · exact hf.nleaf hptree
    · exact hf.root hptree
    · exact ⟨hf.treev hptree, hf.codev hpcodes, hf.lone hptree⟩

/-! ### The rank list -/

/-- R140: the recency list is a permutation of the byte values. -/
theorem recencyList_perm (xs : List Byte) : (recencyList xs).Perm identityOrder :=
  (List.perm_ext_iff_of_nodup (nodup_recencyList xs) nodup_identityOrder).mpr fun c =>
    iff_of_true (mem_recencyList xs c) (mem_identityOrder c)

/-- R142, R143: a rank-list command leaves `RLIST`, or a recency list in it. -/
theorem rlist_of_exec_rankList {i : Instr} {f : List Byte → List Byte → List Byte × List Byte} {b : Buf} {s t : State}
    (hi : runOf i = runRankList f b) (hf : ∀ xs, ∃ ys, (f identityOrder xs).2 = recencyList ys)
    (h : exec i s = .next t) :
    (∀ o, t.byteAt .rlist o = s.byteAt .rlist o) ∨ ∃ ys, Overwritten .rlist (recencyList ys) s t := by
  rw [exec_eq, hi, runRankList] at h
  dsimp only at h
  split_ifs at h
  · obtain rfl := Host.Outcome.next.inj h
    exact .inl fun o => by simp
  split at h
  next => cases h
  next src _ =>
    obtain ⟨ys, hys⟩ := hf src
    obtain rfl := Host.Outcome.next.inj h
    refine .inr ⟨ys, fun o => ?_⟩
    rw [State.byteAt_complete, State.byteAt_setRes, hys, overwritten_storeBytes _ .rlist _ o,
      State.byteAt_storeBytes_ne _ 0 o _ (rlist_ne_bufWindow _), State.byteAt_begin]

theorem RlistPermutation.congr {s t : State} (h : RlistPermutation s) (hc : t.cfg = s.cfg)
    (hb : ∀ o, t.byteAt .rlist o = s.byteAt .rlist o) : RlistPermutation t := by
  rcases h with h | ⟨w, hw, hover⟩
  · exact .inl fun o => (hb o).trans (h o)
  · exact .inr ⟨w, hw, fun o => by rw [hb, hc]; exact hover o⟩

theorem byteAt_powerOn (c : Config) (w : Window) (o : Nat) : (State.powerOn c).byteAt w o = none :=
  Memories.get?_unwritten w o

/-- R42: `RLIST` holds nothing past its 256 entries. -/
theorem RlistPermutation.byteAt_eq_none {s : State} (h : RlistPermutation s) {o : Nat} (ho : 256 ≤ o) :
    s.byteAt .rlist o = none := by
  rcases h with h | ⟨w, hw, hover⟩
  · exact h o
  · have hlen : w.length = 256 := by simpa using hw.length_eq
    rw [hover o, if_neg (by omega), byteAt_powerOn]

/-- R42: all of `RLIST` overwritten with a recency list is a permutation again. -/
theorem RlistPermutation.overwritten {s t : State} (h : RlistPermutation s) {ys : List Byte}
    (ht : Overwritten .rlist (recencyList ys) s t) : RlistPermutation t := by
  refine .inr ⟨recencyList ys, recencyList_perm ys, fun o => ?_⟩
  rw [ht o, byteAt_powerOn]
  refine ite_congr rfl (fun _ => rfl) fun ho => h.byteAt_eq_none ?_
  rw [length_recencyList] at ho
  omega

theorem RlistPermutation.rankList {i : Instr} {f : List Byte → List Byte → List Byte × List Byte} {b : Buf}
    {s t : State} (hs : RlistPermutation s) (hi : runOf i = runRankList f b)
    (hf : ∀ xs, ∃ ys, (f identityOrder xs).2 = recencyList ys) (h : exec i s = .next t) : RlistPermutation t := by
  rcases rlist_of_exec_rankList hi hf h with hsame | ⟨ys, hover⟩
  · exact hs.congr (exec_cfg h) hsame
  · exact hs.overwritten hover

/-- Settles O55: power-on unwrites `RLIST`, MTF_FWD and MTF_INV leave a recency list, no other step writes it. -/
theorem rlistStaysAPermutation : Obligations.RlistStaysAPermutation := by
  intro s t hs h
  cases step_memoryEffect h with
  | unwritten _ hm => exact .inl fun o => by rw [State.byteAt, hm]; exact Memories.get?_unwritten _ o
  | host hsame => exact hs.congr (step_cfg h) (hsame .rlist (by decide))
  | command i _ _ he =>
    by_cases hw : .rlist ∈ writesOf i
    · have hmtf : (∃ b, i = .mtfFwd b) ∨ ∃ b, i = .mtfInv b := by
        simpa using writer_of_readOnly (by decide) hw
      rcases hmtf with ⟨b, rfl⟩ | ⟨b, rfl⟩
      · exact RlistPermutation.rankList (s := popEvent s) hs rfl (fun xs => (length_mtfForward xs).2) he
      · exact RlistPermutation.rankList (s := popEvent s) hs rfl (fun xs => (length_mtfInverse xs).2) he
    · obtain ⟨-, -, -, -, hsame⟩ := exec_next he
      exact hs.congr (step_cfg h) (hsame .rlist hw)

end Sys2Proof.Machine
end

section
/-! SUPPORT. The writer and the reader stay in their ranges: what each command that moves one of them leaves, and every
step (spec/10_state.md R30–R32; 41_bitstream.md R120–R126). -/

namespace Sys2Proof.Machine

/-- Without a pending soft reset, what a command's rule comes to is what it leaves, up to the flags. -/
theorem exec_meets {i : Instr} {s t : State} {P : State → Prop} {Q : Fault → Prop}
    (hm : (runOf i (begin s)).Meets P Q) (hp : s.srstPend = false) (h : exec i s = .next t) :
    ∃ u o, P u ∧ t = { u with status := u.status.completed o } := by
  have hf := runOf_framed i (begin s)
  rw [exec_eq, commit_next_iff] at h
  rcases h with ⟨u, hr, rfl⟩ | ⟨e, u, hr, rfl⟩ <;> rw [hr] at hm hf <;>
    exact ⟨u, _, hm, complete_eq _ u (hf.srstPend.trans hp)⟩

/-! ### The writer -/

/-- R30: the writer is inside `BITS`, and the byte it is in the middle of is written. -/
def WriterInRange (s : State) : Prop :=
  s.cfg.legal ∧ s.wbits.toNat ≤ 8 * s.cfg.bitcap ∧ s.partialByteWritten

theorem WriterInRange.setWbits {s : State} (h : s.cfg.legal) {p : Nat} (hp : p ≤ 8 * s.cfg.bitcap)
    (hw : p % 8 ≠ 0 → (s.byteAt .bits (p / 8)).isSome) : WriterInRange (s.setWbits p) := by
  have hcap := bitcap_le_of_legal h
  have hpos : (wordOf p).toNat = p := toNat_wordOf (by omega)
  refine ⟨h, ?_, ?_⟩
  · rw [State.setWbits_wbits, hpos]
    exact hp
  · rw [State.partialByteWritten, State.setWbits_wbits, hpos]
    exact hw

/-- R120: `PutBit` writes the byte that it may leave the writer in the middle of. -/
theorem WriterInRange.put {s : State} (b : Byte) (h : WriterInRange s) (hlt : s.wbits.toNat < 8 * s.cfg.bitcap) :
    WriterInRange ((s.storeBytes .bits (s.wbits.toNat / 8) [b]).setWbits (s.wbits.toNat + 1)) := by
  refine WriterInRange.setWbits (s := s.storeBytes .bits (s.wbits.toNat / 8) [b]) h.1 hlt fun hmod => ?_
  have hbyte : (s.wbits.toNat + 1) / 8 = s.wbits.toNat / 8 := by omega
  rw [hbyte, State.byteAt_storeBytes, if_pos ⟨rfl, le_rfl, by simp⟩]
  simp

/-- R122, R123, R124, R163: the commands that move the writer keep it in range. -/
theorem WriterInRange.runOf {i : Instr} {s : State} (h : WriterInRange s) (hi : .writer ∈ partsOf i) :
    (runOf i s).Meets WriterInRange fun _ => True := by
  obtain ⟨hlegal, hw, hpart⟩ := id h
  cases i with
  | nop | freqCount | hufBuild | hufCodes | hufDecode | brInit | brGet | mtfFwd | mtfInv | bwtInv =>
    simp [partsOf] at hi
  | bwInit => exact .setWbits hlegal (Nat.zero_le _) fun hmod => absurd rfl hmod
  | bwFlush =>
    have hpad := add_padOf s.wbits.toNat
    exact .setWbits hlegal (by omega) fun hmod => by omega
  | bwPut cnt =>
    rw [Machine.runOf, runBwPut]
    split_ifs with hover
    · exact h
    have hm := putBits_meets (fun _ _ _ _ _ _ => trivial) (fun _ b h => h.put b) (lowBits s.latch.a0 cnt) h
      (Q := fun _ => True) (by rw [lowBits_eq_lowBitList, length_lowBitList]; omega)
    cases hp : putBits (lowBits s.latch.a0 cnt) s <;> rw [hp] at hm <;> exact hm
  | hufEncode b =>
    rw [Machine.runOf, runHufEncode]
    split_ifs
    · exact h
    · exact h
    · exact encodeFrom_meets (fun _ _ _ _ _ _ => trivial) (fun _ b h => h.put b) (fun _ _ _ h => h) b 0 s.argN h
        (by omega)

/-! ### The reader -/

/-- R31, R32: the reader is before its end, which is inside `BITS`, at a byte boundary. -/
def ReaderInRange (s : State) : Prop :=
  s.rcur.toNat ≤ s.rlim.toNat ∧ s.rlim.toNat ≤ 8 * s.cfg.bitcap ∧ s.rlim.toNat % 8 = 0

/-- R121: `GetBit` stops at the end. -/
theorem ReaderInRange.next {s : State} (h : ReaderInRange s) (hlt : s.rcur.toNat < s.rlim.toNat) :
    ReaderInRange (s.setRcur (s.rcur.toNat + 1)) := by
  have hlim := s.rlim.isLt
  refine ⟨?_, h.2⟩
  rw [State.setRcur_rcur, toNat_wordOf (by omega)]
  exact hlt

/-- R125, R126, R164: the commands that move the reader keep it in range. -/
theorem ReaderInRange.runOf {i : Instr} {s : State} (h : ReaderInRange s) (hlegal : s.cfg.legal)
    (hi : .reader ∈ partsOf i) : (runOf i s).Meets ReaderInRange fun _ => True := by
  cases i with
  | nop | freqCount | hufBuild | hufCodes | hufEncode | bwInit | bwPut | bwFlush | mtfFwd | mtfInv | bwtInv =>
    simp [partsOf] at hi
  | brInit =>
    have hcap := bitcap_le_of_legal hlegal
    rw [Machine.runOf, runBrInit]
    split_ifs with hlen hstart
    · exact h
    · exact h
    · have hlim : (wordOf (8 * s.argP)).toNat = 8 * s.argP := toNat_wordOf (by omega)
      have hcur : (wordOf s.argN).toNat = s.argN := toNat_wordOf (by omega)
      show (wordOf s.argN).toNat ≤ (wordOf (8 * s.argP)).toNat ∧ (wordOf (8 * s.argP)).toNat ≤ 8 * s.cfg.bitcap ∧
        (wordOf (8 * s.argP)).toNat % 8 = 0
      omega
  | brGet cnt =>
    rw [Machine.runOf, runBrGet]
    split_ifs
    · exact h
    have hm := getBits_meets (Q := fun _ => True) (fun _ _ _ _ _ _ => trivial) (fun _ h => h.next) cnt 0 h
    cases hg : getBits cnt 0 s <;> rw [hg] at hm <;> exact hm
  | hufDecode b =>
    rw [Machine.runOf, runHufDecode]
    split_ifs
    · exact h
    · exact h
    · exact h
    · exact h
    · unfold decodeLone
      split_ifs
      · exact h
      split
      · trivial
      · exact h
    · exact decodeFrom_meets (n := s.argN) (fun _ _ _ _ _ _ => trivial) (fun _ h => h.next) (fun _ _ _ h => h)
        (fun _ _ _ _ h => h) s.rcur.toNat 0 s.argN h (by omega)

/-! ### Every step -/

theorem streamInRange_iff (s : State) : StreamInRange s ↔ WriterInRange s ∧ ReaderInRange s := by
  simp only [StreamInRange, WriterInRange, ReaderInRange]
  tauto

/-- What keeps the writer and every written byte keeps it in range. -/
theorem WriterInRange.congr {s t : State} (h : WriterInRange s) (hc : t.cfg = s.cfg) (hw : t.wbits = s.wbits)
    (hs : StoresInto s.cfg s.mem t.mem) : WriterInRange t := by
  rw [WriterInRange, State.partialByteWritten, hc, hw]
  refine ⟨h.1, h.2.1, fun hmod => ?_⟩
  rw [Option.isSome_iff_ne_none]
  exact fun hn => absurd (hs.get?_eq_none hn) (Option.isSome_iff_ne_none.mp (h.2.2 hmod))

theorem ReaderInRange.congr {s t : State} (h : ReaderInRange s) (hc : t.cfg = s.cfg) (hr : t.rcur = s.rcur)
    (hl : t.rlim = s.rlim) : ReaderInRange t := by
  rwa [ReaderInRange, hc, hr, hl]

/-- R30–R32: the reset values are in range. -/
theorem streamInRange_of_atReset {t : State} (h : AtReset t) (hc : t.cfg.legal) : StreamInRange t := by
  obtain ⟨-, -, -, -, -, -, -, hwbits, hrcur, hrlim, -⟩ := h
  change t.wbits = 0#32 at hwbits
  change t.rcur = 0#32 at hrcur
  change t.rlim = 0#32 at hrlim
  rw [StreamInRange, State.partialByteWritten, hwbits, hrcur, hrlim]
  exact ⟨hc, Nat.zero_le _, le_rfl, Nat.zero_le _, rfl, fun hmod => absurd rfl hmod⟩

/-- Settles O52: a reset puts both at 0; a command that moves one of them keeps it in range; nothing else moves them, and
written bytes stay written. -/
theorem streamRegistersStayInRange : Obligations.StreamRegistersStayInRange := by
  intro s t hs h
  have hcfg := step_cfg h
  have hlegal : s.cfg.legal := hs.1
  by_cases hn : AtReset t
  · exact streamInRange_of_atReset hn (hcfg ▸ hlegal)
  have hstores : StoresInto s.cfg s.mem t.mem := (step_stores h).resolve_right fun hr => hn hr.1
  obtain ⟨hwriter, hreader⟩ := (streamInRange_iff s).mp hs
  refine (streamInRange_iff t).mpr ?_
  cases step_registerEffect h with
  | reset hr => exact absurd hr hn
  | kept hk _ => exact ⟨hwriter.congr hcfg hk.wbits hstores, hreader.congr hcfg hk.rcur hk.rlim⟩
  | command i u o _ _ hp he hf ht =>
    constructor
    · by_cases hi : .writer ∈ partsOf i
      · obtain ⟨u, o, hu, rfl⟩ :=
          exec_meets (s := popEvent s) (WriterInRange.runOf (s := begin (popEvent s)) hwriter hi) hp he
        exact hu
      · exact hwriter.congr hcfg (by rw [ht]; exact hf.wbits hi) hstores
    · by_cases hi : .reader ∈ partsOf i
      · obtain ⟨u, o, hu, rfl⟩ :=
          exec_meets (s := popEvent s) (ReaderInRange.runOf (s := begin (popEvent s)) hreader hlegal hi) hp he
        exact hu
      · have hlim : .limit ∉ partsOf i := by
          cases i <;> simp [partsOf] at hi ⊢
        exact hreader.congr hcfg (by rw [ht]; exact hf.rcur hi) (by rw [ht]; exact hf.rlim hlim)

/-- Settles O56: the reset values are in range and agree, and every memory is unwritten. -/
theorem resetMeetsTheInvariants : Obligations.ResetMeetsTheInvariants := by
  intro c hc
  have hreset := atReset_powerOn c
  refine ⟨memories_unwritten_wf, ⟨hc, fun w o hb => ?_⟩, streamInRange_of_atReset hreset hc,
    (flagsAgree_iff _).mpr ⟨reportAgrees_cleared rfl rfl, ?_⟩, treeRegistersAgree_of_atReset hreset,
    treeAndCodeValid_of_not_treev rfl rfl, .inl fun o => byteAt_powerOn c _ o, hreset, by decide, rfl⟩
  · rw [byteAt_powerOn] at hb
    cases hb
  · simp [ValidityAgrees, State.powerOn, Status.cleared]

end Sys2Proof.Machine
end

section
/-! SUPPORT. Steps and registers: the step by the next event, what register reads return and idle register writes do
(spec/10_state.md section 2; 40_command_engine.md R102; 20_memory.md R70). -/

namespace Sys2Proof.Machine

/-- Out of reset, a scheduled host read is the step (R71). -/
theorem step_of_read {s : State} {a : BitVec 24} (he : nextEvent s = .read a) (hl : s.rstLow = false) :
    step s = .next (hostRead a (popEvent s)) := by
  simp [step, engineRuns, he, busEvent, hl]

/-- While `rst_n` is low a host access is refused (log entry 9). -/
theorem step_of_access_in_reset {s : State} (he : (∃ a, nextEvent s = .read a) ∨ ∃ a v, nextEvent s = .write a v)
    (hl : s.rstLow = true) : step s = .refused .accessInReset := by
  rcases he with ⟨a, he⟩ | ⟨a, v, he⟩ <;> simp [step, engineRuns, he, busEvent, hl]

/-- R220: an idle HCB with nothing scheduled stays as it is. -/
theorem step_of_idle {s : State} (hb : s.status.busy = false) (hs : s.schedule = []) : step s = .next s := by
  have he : nextEvent s = .engine := by rw [nextEvent, hs]; rfl
  have hpop : popEvent s = s := by rw [popEvent, hs, List.tail_nil, ← hs]
  rw [step, if_neg (by simp [engineRuns, hb]), he, busEvent, hpop]

/-- Settles O5: the step by its next event. -/
theorem stepRunsTheDecodedCommand : Obligations.StepRunsTheDecodedCommand := by
  intro s
  refine ⟨fun i he hb hd => ?_, fun a he hl => step_of_read he hl, fun a v he hl => step_of_write he hl,
    fun e he hacc hl => step_of_access_in_reset (he ▸ hacc) hl, step_of_idle⟩
  exact step_of_engineRuns (by simp [engineRuns, he, hb]) hd

/-! ### Register reads -/

/-- R23: `CTRL` reads `IE` in bit 0 and 0 elsewhere. -/
theorem ctrlWord_fields (ie : Bool) : (ctrlWord ie).getLsbD 0 = ie ∧ (ctrlWord ie).extractLsb' 1 31 = 0#31 := by
  cases ie <;> decide

/-- Settles O15: every read by the register map, `CTRL` and `STATUS` by the fields of their words. -/
theorem registerReadsReturnTheirFields : Obligations.RegisterReadsReturnTheirFields := by
  intro s a
  have hread : ∀ r : Reg, a.toNat / 4 = r.offset / 4 → hostRead a s = { s with rdata := s.regRead r } := fun r h =>
    hostRead_register h s
  obtain ⟨hcode, hlow, hhigh⟩ := s.status.word_fields
  have hflag : ∀ j, j < 8 → _ := fun j => s.status.word_flags (j := j)
  refine ⟨fun h => ⟨_, hread .ctrl h, ctrlWord_fields s.ie⟩,
    fun h => ⟨_, hread .status h, hflag 0 (by decide), hflag 1 (by decide), hflag 2 (by decide), hflag 3 (by decide),
      hflag 4 (by decide), hflag 5 (by decide), hflag 6 (by decide), hflag 7 (by decide), hlow, hcode, hhigh⟩,
    hread .cmd, hread .arg0, hread .arg1, hread .res0, hread .res1, hread .wbits, hread .rcur, hread .rlim,
    hread .nleaf, hread .nnode, fun h => ?_⟩
  rw [hread .root h, State.regRead, BitVec.ofNat_toNat]

/-! ### Register writes -/

/-- Words 6 to 13 of the register window are read-only. -/
theorem hostWrite_readOnly {a : BitVec 24} (hlo : 6 ≤ a.toNat / 4) (hhi : a.toNat / 4 ≤ 13) (v : Word) (s : State) :
    hostWrite a v s = s := by
  have hreg : ∃ r ∈ [Reg.res0, .res1, .wbits, .rcur, .rlim, .nleaf, .nnode, .root], a.toNat / 4 = r.offset / 4 := by
    generalize a.toNat / 4 = n at hlo hhi
    interval_cases n <;> decide
  obtain ⟨r, hr, ha⟩ := hreg
  rw [hostWrite_register ha]
  fin_cases hr <;> rfl

/-- Settles O17: each write by the register it reaches. -/
theorem idleRegisterWrites : Obligations.IdleRegisterWrites := by
  intro s a v hb
  have hwrite : ∀ r : Reg, a.toNat / 4 = r.offset / 4 → hostWrite a v s = s.regWrite r v := fun r h =>
    hostWrite_register h v s
  refine ⟨fun ha hv => ?_, fun ha hv => ?_, hwrite .status, fun ha => ?_, fun ha => ?_, fun hlo hhi =>
    hostWrite_readOnly hlo hhi v s⟩
  · rw [hwrite .ctrl ha, State.regWrite, writeCtrl, hb, hv]
    rfl
  · rw [hostWrite_srst_idle ha hv hb, softReset_ie]
  · rw [hwrite .arg0 ha, State.regWrite, hb, if_neg Bool.false_ne_true]
  · rw [hwrite .arg1 ha, State.regWrite, hb, if_neg Bool.false_ne_true]

/-! ### A command line -/

/-- A scheduled write in an HCB out of reset is the step, with the rest of the schedule left. -/
theorem step_of_scheduled_write {s : State} {a : BitVec 24} {v : Word} {rest : List Event} (hl : s.rstLow = false)
    (hs : s.schedule = stmtW a v ++ rest) : step s = .next (hostWrite a v { s with schedule := rest }) := by
  have hpop : popEvent s = { s with schedule := rest } := by rw [popEvent, hs]; rfl
  rw [step_of_write (by rw [nextEvent, hs]; rfl) hl, hpop]

theorem run_succ_of_step {s t : State} (h : step s = .next t) (k : Nat) :
    Sys2Proof.core.run (k + 1) s = Sys2Proof.core.run k t := by
  have hstep : Sys2Proof.core.step s = .next t := h
  simp only [Host.Core.run, hstep]

/-- R88: the access that writes an operand, if the line gives it. -/
def argWrite (r : Reg) (a : Option Word) : List Event := (a.map (stmtW r.byteOffset)).getD []

theorem issue_eq (i : Instr) (a0 a1 : Option Word) :
    issue i a0 a1 = argWrite .arg0 a0 ++ argWrite .arg1 a1 ++ stmtW Reg.cmd.byteOffset (encode i) ++ stmtWait := by
  cases a0 <;> cases a1 <;> rfl

/-- R26: the accesses of an operand of an idle HCB leave it in `ARG0`. -/
theorem run_argWrite_arg0 {s : State} {a : Option Word} {rest : List Event} (hb : s.status.busy = false)
    (hl : s.rstLow = false) (hs : s.schedule = argWrite .arg0 a ++ rest) (k : Nat) :
    Sys2Proof.core.run (k + a.toList.length) s =
      Sys2Proof.core.run k { s with arg0 := a.getD s.arg0, schedule := rest } := by
  cases a with
  | none =>
    rw [← show s.schedule = rest from hs]
    rfl
  | some v =>
    refine run_succ_of_step ?_ k
    rw [step_of_scheduled_write hl hs, hostWrite_register (r := .arg0) rfl, State.regWrite, if_neg (by simp [hb])]
    rfl

/-- R27: so they do in `ARG1`. -/
theorem run_argWrite_arg1 {s : State} {a : Option Word} {rest : List Event} (hb : s.status.busy = false)
    (hl : s.rstLow = false) (hs : s.schedule = argWrite .arg1 a ++ rest) (k : Nat) :
    Sys2Proof.core.run (k + a.toList.length) s =
      Sys2Proof.core.run k { s with arg1 := a.getD s.arg1, schedule := rest } := by
  cases a with
  | none =>
    rw [← show s.schedule = rest from hs]
    rfl
  | some v =>
    refine run_succ_of_step ?_ k
    rw [step_of_scheduled_write hl hs, hostWrite_register (r := .arg1) rfl, State.regWrite, if_neg (by simp [hb])]
    rfl

/-- R25, R100: the access of the command word of an idle HCB is its acceptance. -/
theorem run_cmdWrite {s : State} {v : Word} {rest : List Event} (hb : s.status.busy = false) (hl : s.rstLow = false)
    (hs : s.schedule = stmtW Reg.cmd.byteOffset v ++ rest) :
    Sys2Proof.core.run 1 s = .next (accept v { s with schedule := rest }) := by
  have hstep := step_of_scheduled_write hl hs
  rw [hostWrite_cmd_idle (s := { s with schedule := rest }) hb rfl] at hstep
  exact run_succ_of_step hstep 0

/-- Settles O60: the operands, then the word, each by its access; then the engine's turn runs the command that the word
decodes to. -/
theorem commandLinesRunTheirCommand : Obligations.CommandLinesRunTheirCommand := by
  intro s i a0 a1 rest hwf hb hl hs
  rw [issue_eq, List.append_assoc, List.append_assoc, List.append_assoc] at hs
  refine ⟨_, ?_, rfl, ?_⟩
  · rw [Nat.add_right_comm]
    exact (run_argWrite_arg0 hb hl hs _).trans
      ((run_argWrite_arg1 (a := a1) (s := { s with arg0 := a0.getD s.arg0, schedule := _ }) hb hl rfl 1).trans
        (run_cmdWrite (v := encode i) (rest := stmtWait ++ rest)
          (s := { s with arg0 := a0.getD s.arg0, arg1 := a1.getD s.arg1, schedule := _ }) hb hl rfl))
  · refine step_of_engineRuns ?_ (decode_encode hwf)
    simp [engineRuns, nextEvent, stmtWait, issued, Status.accepted]

end Sys2Proof.Machine
end

section
/-! SUPPORT. Host accesses past the registers while idle: the window of an address, the lanes of a word read and the
bytes of a word written (spec/20_memory.md R60–R65). -/

namespace Sys2Proof.Machine

/-! ### The address map -/

/-- R61: two windows share no offset. -/
theorem window_disjoint : ∀ w ∈ Window.all, ∀ w' ∈ Window.all, w ≠ w' →
    w.base + w.span ≤ w'.base ∨ w'.base + w'.span ≤ w.base := by decide

theorem mem_window_all (w : Window) : w ∈ Window.all := by cases w <;> decide

/-- R61: windows begin and end at word boundaries. -/
theorem window_aligned (w : Window) : w.base % 4 = 0 ∧ w.span % 4 = 0 := by cases w <;> decide

theorem windowAt_eq_some_iff {x : Nat} {w : Window} : windowAt x = some w ↔ w.base ≤ x ∧ x < w.base + w.span := by
  refine ⟨windowAt_eq_some, fun h => ?_⟩
  have hfound : (windowAt x).isSome := List.find?_isSome.mpr ⟨w, mem_window_all w, by simpa using h⟩
  obtain ⟨w', hw'⟩ := Option.isSome_iff_exists.mp hfound
  have hin := windowAt_eq_some hw'
  by_contra hne
  have hdisj := window_disjoint w' (mem_window_all w') w (mem_window_all w) fun heq => hne (heq ▸ hw')
  omega

section
variable {a : BitVec 24} {w : Window} {o : Nat}

/-- R60, R61: an address in a window reaches the word of the window that holds it. -/
theorem wordOffset_of_window (ha : a.toNat = w.base + o) : wordOffset a = w.base + 4 * (o / 4) := by
  have halign := window_aligned w
  rw [wordOffset, ha]
  omega

theorem windowAt_of_window (ha : a.toNat = w.base + o) (ho : o < w.span) : windowAt (wordOffset a) = some w := by
  have halign := window_aligned w
  rw [wordOffset_of_window ha, windowAt_eq_some_iff]
  omega

/-- R61: an address outside every window reaches none. -/
theorem windowAt_of_reserved (h : ∀ w : Window, a.toNat < w.base ∨ w.base + w.span ≤ a.toNat) :
    windowAt (wordOffset a) = none := by
  refine Option.eq_none_iff_forall_ne_some.mpr fun w hw => ?_
  have hin := windowAt_eq_some hw
  have halign := window_aligned w
  have hout := h w
  rw [wordOffset] at hin
  omega

/-! ### Reads -/

/-- R61: an idle read past the registers reads the window of its address. -/
theorem rdata_hostRead_some {s : State} (hb : s.status.busy = false) (ha : 0x400 ≤ a.toNat)
    (hw : windowAt (wordOffset a) = some w) : (hostRead a s).rdata = s.windowWord w (wordOffset a - w.base) := by
  rw [hostRead, inRegWindow_wordOffset, decide_eq_false ha.not_gt, if_neg Bool.false_ne_true, hb,
    if_neg Bool.false_ne_true, hw]
  dsimp only
  split <;> rfl

/-- R61: in no window it reads 0. -/
theorem rdata_hostRead_none {s : State} (hb : s.status.busy = false) (ha : 0x400 ≤ a.toNat)
    (hw : windowAt (wordOffset a) = none) : (hostRead a s).rdata = 0#32 := by
  rw [hostRead, inRegWindow_wordOffset, decide_eq_false ha.not_gt, if_neg Bool.false_ne_true, hb,
    if_neg Bool.false_ne_true, hw]
  rfl

/-- R62: an idle read in a window returns the word that holds its address. -/
theorem rdata_hostRead_window {s : State} (hb : s.status.busy = false) (ha : 0x400 ≤ a.toNat)
    (hw : a.toNat = w.base + o) (ho : o < w.span) : (hostRead a s).rdata = s.windowWord w (4 * (o / 4)) := by
  rw [rdata_hostRead_some hb ha (windowAt_of_window hw ho), wordOffset_of_window hw, Nat.add_sub_cancel_left]

end

/-- R62: lane `j` of a word read at offset `o` comes from byte `o + j`. -/
theorem lane_windowWord (s : State) (w : Window) (o : Nat) {j : Nat} (hj : j < 4) :
    (s.windowWord w o).extractLsb' (24 - 8 * j) 8 = s.laneByte w (o + j) j := by
  have hlane : ∀ b0 b1 b2 b3 : Byte, (bytesWord b0 b1 b2 b3).extractLsb' (24 - 8 * j) 8 =
      [b0, b1, b2, b3].getD j 0#8 := by
    intro b0 b1 b2 b3
    refine BitVec.eq_of_getLsbD_eq fun i hi => ?_
    interval_cases j <;> (simp [bytesWord]; grind)
  rw [State.windowWord, hlane]
  interval_cases j <;> rfl

theorem laneByte_past_cap {s : State} {w : Window} {o : Nat} (h : w.cap s.cfg ≤ o) (j : Nat) :
    s.laneByte w o j = 0#8 := by
  rw [State.laneByte, Bool.eq_false_iff.mpr (by simpa using h : Nat.blt o (w.cap s.cfg) ≠ true), cond_false]

theorem laneByte_written {s : State} {w : Window} {o : Nat} {b : Byte} (h : o < w.cap s.cfg)
    (hb : s.byteAt w o = some b) (j : Nat) : s.laneByte w o j = b := by
  rw [State.laneByte, show Nat.blt o (w.cap s.cfg) = true by simpa using h, cond_true, hb, Option.getD_some]

/-- Settles O20: the word by the window of the address, its lanes by their bytes. -/
theorem windowReadsFollowTheAddressMap : Obligations.WindowReadsFollowTheAddressMap := by
  intro s a hb ha
  have hlane : ∀ (w : Window) (o : Nat), a.toNat = w.base + o → o < w.span → ∀ j, j < 4 →
      (hostRead a s).rdata.extractLsb' (24 - 8 * j) 8 = s.laneByte w (4 * (o / 4) + j) j := fun w o hw ho j hj => by
    rw [rdata_hostRead_window hb ha hw ho, lane_windowWord s w _ hj]
  refine ⟨?_, fun w o hw ho j hj => ⟨fun hcap => ?_, fun b hcap hbyte => ?_⟩, fun b p hp hcap hspan hbit => ?_,
    fun hout => rdata_hostRead_none hb ha (windowAt_of_reserved hout)⟩
  · exact (hostRead_cases a s).resolve_right fun h => by simp [hb] at h
  · rw [hlane w o hw ho j hj, laneByte_past_cap hcap]
  · rw [hlane w o hw ho j hj, laneByte_written hcap hbyte]
  · obtain ⟨c, hc, rfl⟩ := Option.map_eq_some_iff.mp hbit
    have hoff : 4 * (4 * (p / 32) / 4) + p / 8 % 4 = p / 8 := by omega
    have hbyte := hlane .bits (4 * (p / 32)) hp (show 4 * (p / 32) < 0x100000 by omega) (p / 8 % 4) (by omega)
    rw [hoff, laneByte_written hcap hc] at hbyte
    rw [← hbyte, BitVec.getLsbD_extractLsb', decide_eq_true (by omega), Bool.true_and]
    congr 1
    omega

/-! ### Writes -/

/-- R61: an idle write past the registers writes the window of its address. -/
theorem hostWrite_some {a : BitVec 24} {w : Window} {s : State} (hb : s.status.busy = false) (ha : 0x400 ≤ a.toNat)
    (hw : windowAt (wordOffset a) = some w) (v : Word) :
    hostWrite a v s = s.windowWrite w (wordOffset a - w.base) v := by
  rw [hostWrite, inRegWindow_wordOffset, decide_eq_false ha.not_gt, if_neg Bool.false_ne_true, hb,
    if_neg Bool.false_ne_true, hw]

/-- R61: in no window it writes nothing. -/
theorem hostWrite_none {a : BitVec 24} {s : State} (hb : s.status.busy = false) (ha : 0x400 ≤ a.toNat)
    (hw : windowAt (wordOffset a) = none) (v : Word) : hostWrite a v s = s := by
  rw [hostWrite, inRegWindow_wordOffset, decide_eq_false ha.not_gt, if_neg Bool.false_ne_true, hb,
    if_neg Bool.false_ne_true, hw]

/-- R62, R65: a write of a word stores its lanes below the cap. -/
theorem byteAt_windowWrite {s : State} {w : Window} (hw : w.hostWritable = true) (o : Nat) (v : Word) (x : Nat) :
    (s.windowWrite w o v).byteAt w x =
      if o ≤ x ∧ x < o + 4 ∧ x < w.cap s.cfg then some (v.extractLsb' (24 - 8 * (x - o)) 8) else s.byteAt w x := by
  rw [State.windowWrite, if_pos hw, State.byteAt_storeBytes, List.length_take, wordBytes_length]
  by_cases hx : o ≤ x ∧ x < o + 4 ∧ x < w.cap s.cfg
  · rw [if_pos hx, if_pos ⟨rfl, by omega⟩, List.getElem?_take_of_lt (by omega), wordBytes_getElem? v _ (by omega)]
  · rw [if_neg hx, if_neg (by omega)]

/-- Settles O21: the write by the window of the address. -/
theorem windowWritesFollowTheAddressMap : Obligations.WindowWritesFollowTheAddressMap := by
  intro s a v hb ha
  have hwrite : ∀ (w : Window) (o : Nat), a.toNat = w.base + o → o < w.span →
      hostWrite a v s = s.windowWrite w (4 * (o / 4)) v := fun w o hw ho => by
    rw [hostWrite_some hb ha (windowAt_of_window hw ho), wordOffset_of_window hw, Nat.add_sub_cancel_left]
  refine ⟨fun w o hmem hw ho => ?_, fun w o hmem hw ho => ?_,
    fun hout => hostWrite_none hb ha (windowAt_of_reserved hout) v⟩
  · have hwritable : w.hostWritable = true := by revert hmem; cases w <;> decide
    rw [hwrite w o hw ho]
    refine ⟨?_, fun w' hne x => ?_, byteAt_windowWrite hwritable _ v⟩
    · rw [State.windowWrite, if_pos hwritable]
      rfl
    · rw [State.windowWrite, if_pos hwritable, State.byteAt_storeBytes_ne _ _ _ _ (by simpa using hne)]
  · have hro : w.hostWritable = false := by revert hmem; cases w <;> decide
    rw [hwrite w o hw ho, State.windowWrite, hro, if_neg Bool.false_ne_true]

end Sys2Proof.Machine
end

section
/-! SUPPORT. Whole streams: a list of BW_PUTs between BW_INIT and BW_FLUSH, and the bits of BR_GETs after BR_INIT
(spec/41_bitstream.md R127, R128, R129). -/

namespace Sys2Proof.Machine

/-! ### Command lines one after another -/

/-- Command lines that end in a next state go on with the lines after them. -/
theorem commands_append {xs : List (Instr × Word × Word)} {s t : State} (h : commands xs s = .next t)
    (ys : List (Instr × Word × Word)) : commands (xs ++ ys) s = commands ys t := by
  induction xs generalizing s with
  | nil =>
    cases h
    rfl
  | cons x xs ih =>
    obtain ⟨i, a0, a1⟩ := x
    cases hc : command i a0 a1 s with
    | next u =>
      rw [commands_cons hc] at h
      rw [List.cons_append, commands_cons hc, ih h]
    | fault f => rw [commands, hc] at h; cases h
    | refused r => rw [commands, hc] at h; cases h

theorem commands_singleton (i : Instr) (a0 a1 : Word) (s : State) :
    commands [(i, a0, a1)] s = command i a0 a1 s := by
  rw [commands]
  cases command i a0 a1 s <;> rfl

/-! ### Packing -/

/-- The bits of a list of BW_PUTs. -/
theorem length_flatMap_lowBitList (puts : List (Nat × Word)) :
    (puts.flatMap fun p => lowBitList p.2 p.1).length = (puts.map Prod.fst).sum := by
  simp [List.length_flatMap]

/-- R123: a list of BW_PUTs that fits appends its bits in order. -/
theorem commands_bwPuts {puts : List (Nat × Word)} {s : State} (hp : s.srstPend = false) (hlegal : s.cfg.legal)
    (hcnt : ∀ p ∈ puts, 1 ≤ p.1 ∧ p.1 ≤ 32) (hs : s.partialByteWritten)
    (hfit : s.wbits.toNat + (puts.map Prod.fst).sum ≤ 8 * s.cfg.bitcap) :
    ∃ t, commands (puts.map fun p => (.bwPut p.1, p.2, 0#32)) s = .next t ∧ t.srstPend = false ∧ t.cfg = s.cfg ∧
      BitsAppended s (puts.flatMap fun p => lowBitList p.2 p.1) t := by
  induction puts generalizing s with
  | nil => exact ⟨s, rfl, hp, rfl, bitsAppended_nil s⟩
  | cons p puts ih =>
    have hcap := bitcap_le_of_legal hlegal
    obtain ⟨h1, h32⟩ := hcnt p List.mem_cons_self
    rw [List.map_cons, List.sum_cons] at hfit
    have hlen : (lowBitList p.2 p.1).length = p.1 := length_lowBitList p.2 p.1
    obtain ⟨-, hput, -⟩ := bwPutAppendsItsBits (issued (.bwPut p.1) p.2 0#32 s) p.1 hp hlegal h1 h32
    obtain ⟨t, ht, -, happ, -⟩ := hput (show s.wbits.toNat + p.1 ≤ 8 * s.cfg.bitcap by omega) hs
    have happ' : BitsAppended s (lowBitList p.2 p.1) t := happ
    obtain ⟨hpt, hcfg, -⟩ := command_keeps hp ht
    have hw : t.wbits.toNat = s.wbits.toNat + p.1 := by rw [happ'.1, hlen]; exact toNat_wordOf (by omega)
    obtain ⟨u, hu, hpu, hcfgu, hrest⟩ := ih hpt (hcfg ▸ hlegal) (fun q hq => hcnt q (List.mem_cons_of_mem _ hq))
      (happ'.partialByteWritten (by omega) hs) (by rw [hw, hcfg]; omega)
    exact ⟨u, (commands_cons ht _).trans hu, hpu, hcfgu.trans hcfg, happ'.append hrest (by omega)⟩

/-- R120: past bits appended to an empty stream, the rest of their last byte is 0. -/
theorem BitsAppended.streamAt_pad {s t : State} {bits : List Bool} (h : BitsAppended s bits t)
    (hw : s.wbits.toNat = 0) {q : Nat} (hlo : bits.length ≤ q) (hhi : q < 8 * ((bits.length + 7) / 8)) :
    t.streamAt q = some false := by
  rw [h.2, hw, if_pos (by omega), List.getD_eq_default _ _ (by omega)]
  simp

/-- Settles O29: the bits of the BW_PUTs appended to an empty stream, and the flush, which writes no memory. -/
theorem packedStreamHoldsTheBitsThenZeros : Obligations.PackedStreamHoldsTheBitsThenZeros := by
  intro s puts hp hlegal hcnt hfit
  obtain ⟨s1, h1, -, hw1⟩ := command_bwInit hp
  obtain ⟨hp1, hcfg1, -⟩ := command_keeps hp h1
  obtain ⟨s2, h2, hp2, hcfg2, happ⟩ := commands_bwPuts (puts := puts) hp1 (hcfg1 ▸ hlegal) hcnt
    (fun h => absurd (by rw [hw1]) h) (by rw [hw1, Nat.zero_add, hcfg1]; exact hfit)
  have hlen := length_flatMap_lowBitList puts
  have hcap := bitcap_le_of_legal hlegal
  have hw2 : s2.wbits.toNat = (puts.map Prod.fst).sum := by
    rw [happ.1, hw1, Nat.zero_add, hlen]
    exact toNat_wordOf (by omega)
  obtain ⟨-, hflush⟩ := bwFlushRoundsUpToAByte
  obtain ⟨t, ht, hregs, -, hres, -⟩ := hflush (issued .bwFlush 0#32 0#32 s2) hp2 (hcfg2 ▸ hcfg1 ▸ hlegal)
    (by show s2.wbits.toNat ≤ 8 * s2.cfg.bitcap; rw [hw2, hcfg2, hcfg1]; exact hfit)
  have hbits : ∀ q, t.streamAt q = s2.streamAt q := fun q => by rw [hregs]; rfl
  refine ⟨t, ?_, by rw [hregs]; rfl, hres.trans (by rw [← hw2]; rfl), fun j hj => ?_, fun q hlo hhi => ?_⟩
  · rw [List.cons_append, commands_cons h1, commands_append h2, commands_singleton]
    exact ht
  · rw [hbits]
    exact happ.streamHolds hw1 j hj
  · rw [hbits]
    exact happ.streamAt_pad hw1 (hlen ▸ hlo) (hlen ▸ hhi)

/-! ### Unpacking -/

theorem getBits_one {s : State} {b : Bool} (hlim : s.rcur.toNat < s.rlim.toNat)
    (hb : s.streamAt s.rcur.toNat = some b) :
    getBits 1 0 s = .done b.toNat (s.setRcur (s.rcur.toNat + 1)) := by
  rw [getBits, getBit_done hlim hb]
  exact congrArg (Result.done · _) (by simp)

/-- R126: one bit by BR_GET. -/
theorem command_brGet_one {s : State} {b : Bool} (hp : s.srstPend = false) (hlim : s.rcur.toNat < s.rlim.toNat)
    (hb : s.streamAt s.rcur.toNat = some b) :
    ∃ t, command (.brGet 1) 0#32 0#32 s = .next t ∧ t.srstPend = false ∧ t.rcur.toNat = s.rcur.toNat + 1 ∧
      t.rlim = s.rlim ∧ (∀ q, t.streamAt q = s.streamAt q) ∧ t.status.err = false ∧ t.res0 = wordOf b.toNat := by
  have hget := getBits_one (s := begin (issued (.brGet 1) 0#32 0#32 s)) hlim hb
  exact ⟨_, exec_brGet (s := issued (.brGet 1) 0#32 0#32 s) hp hlim hget, hp,
    toNat_wordOf (show s.rcur.toNat + 1 < 2 ^ 32 by omega), rfl, fun _ => rfl, rfl, rfl⟩

/-- R126: BR_GETs of one bit each move the cursor over written bits and leave the stream. -/
theorem commands_brGets {s : State} (hp : s.srstPend = false) (k : Nat) (hlim : s.rcur.toNat + k ≤ s.rlim.toNat)
    (hw : ∀ j, j < k → (s.streamAt (s.rcur.toNat + j)).isSome) :
    ∃ t, commands (List.replicate k (.brGet 1, 0#32, 0#32)) s = .next t ∧ t.srstPend = false ∧
      t.rcur.toNat = s.rcur.toNat + k ∧ t.rlim = s.rlim ∧ ∀ q, t.streamAt q = s.streamAt q := by
  induction k with
  | zero => exact ⟨s, rfl, hp, rfl, rfl, fun _ => rfl⟩
  | succ k ih =>
    obtain ⟨t, ht, hpt, hcur, hlimt, hbits⟩ := ih (by omega) fun j hj => hw j (by omega)
    obtain ⟨b, hb⟩ := Option.isSome_iff_exists.mp (hw k (by omega))
    obtain ⟨u, hu, hpu, hcuru, hlimu, hbitsu, -⟩ :=
      command_brGet_one hpt (by rw [hcur, hlimt]; omega) (by rw [hbits, hcur]; exact hb)
    refine ⟨u, ?_, hpu, by rw [hcuru, hcur, Nat.add_assoc], hlimu.trans hlimt, fun q => (hbitsu q).trans (hbits q)⟩
    rw [List.replicate_succ', commands_append ht, commands_singleton, hu]

/-- R125: BR_INIT 0, `len` puts the reader before bit 0 of the first `len` bytes. -/
theorem command_brInit_zero {s : State} {len : Word} (hp : s.srstPend = false) (hlegal : s.cfg.legal)
    (hlen : len.toNat ≤ s.cfg.bitcap) :
    ∃ t, command .brInit 0#32 len s = .next t ∧ t.srstPend = false ∧ t.rcur.toNat = 0 ∧
      t.rlim.toNat = 8 * len.toNat ∧ ∀ q, t.streamAt q = s.streamAt q := by
  have hcap := bitcap_le_of_legal hlegal
  exact ⟨_, exec_brInit (s := issued .brInit 0#32 len s) hp hlen (Nat.zero_le _), hp, rfl,
    toNat_wordOf (show 8 * len.toNat < 2 ^ 32 by omega), fun _ => rfl⟩

/-- Settles O30: the cursor runs over the bits one by one, up to the limit, where BR_GET fails. -/
theorem unpackingReturnsTheStreamInOrder : Obligations.UnpackingReturnsTheStreamInOrder := by
  intro s len hp hlegal hlen hw
  obtain ⟨s1, h1, hp1, hcur1, hlim1, hbits1⟩ := command_brInit_zero hp hlegal hlen
  have hwritten : ∀ q, q < 8 * len.toNat → (s.streamAt q).isSome := fun q hq => by
    rw [State.streamAt, Option.isSome_map]
    exact hw (q / 8) (by omega)
  have hgets : ∀ k, k ≤ 8 * len.toNat → _ := fun k hk => commands_brGets hp1 k (by omega) fun j hj => by
    rw [hbits1, hcur1]
    exact hwritten _ (by omega)
  refine ⟨fun p hlt => ?_, ?_⟩
  · obtain ⟨t, ht, hpt, hcur, hlim, hbits⟩ := hgets p hlt.le
    obtain ⟨b, hb⟩ := Option.isSome_iff_exists.mp (hwritten p hlt)
    obtain ⟨u, hu, -, -, -, -, herr, hres⟩ := command_brGet_one hpt (by rw [hcur, hlim]; omega)
      (by rw [hbits, hcur, hcur1, Nat.zero_add, hbits1]; exact hb)
    refine ⟨u, ?_, herr, ?_⟩
    · rw [commands_cons h1, List.replicate_succ', commands_append ht, commands_singleton, hu]
    · rw [hres, hb]
      cases b <;> rfl
  · obtain ⟨t, ht, hpt, hcur, hlim, -⟩ := hgets _ le_rfl
    have hend : t.rlim.toNat < t.rcur.toNat + 1 := by rw [hcur, hlim]; omega
    have hfail := exec_of_raised (i := .brGet 1) (s := issued (.brGet 1) 0#32 0#32 t) (if_pos hend) hpt
    rw [commands_cons h1, List.replicate_succ', commands_append ht, commands_singleton]
    exact ⟨_, hfail, rfl, rfl⟩

end Sys2Proof.Machine
end

section
/-! SUPPORT. The map that BWT_INV walks as a permutation in order of (byte, position), and the forward transform it
undoes (spec/42_rankmap.md R141, R144, R145). -/

namespace Sys2Proof.Machine

/-! ### `LF` in the order of bytes and positions -/

/-- A byte counted among the first `j` that stands at an earlier position `i` is not counted among the first `i`. -/
theorem count_take_lt {xs : List Byte} {i j : Nat} (hij : i < j) (hi : i < xs.length) :
    (xs.take i).count xs[i] < (xs.take j).count xs[i] := by
  have hle : ((xs.take j).take (i + 1)).count xs[i] ≤ (xs.take j).count xs[i] := (List.take_sublist _ _).count_le _
  rw [List.take_take, min_eq_left hij, List.take_add_one, List.getElem?_eq_getElem hi, Option.toList_some,
    List.count_append, List.count_singleton_self] at hle
  exact hle

/-- R145: `LF` goes up with the byte. -/
theorem lfOf_lt_lfOf_of_byte {xs : List Byte} {i j : Nat} (hi : i < xs.length) (hlt : xs.getD i 0#8 < xs.getD j 0#8) :
    lfOf xs i < lfOf xs j := by
  have hbefore := count_take_lt hi hi
  have hsum := countP_toNat_lt_succ xs xs[i].isLt
  rw [List.take_length] at hbefore
  rw [BitVec.ofNat_toNat, BitVec.setWidth_eq] at hsum
  have hc : xs.getD i 0#8 = xs[i] := List.getD_eq_getElem _ _ hi
  rw [hc] at hlt
  have hmono : xs.countP (fun x => x.toNat < xs[i].toNat + 1) ≤ xs.countP (fun x => x < xs.getD j 0#8) := by
    refine List.countP_mono_left fun x _ hx => ?_
    simp only [decide_eq_true_eq, BitVec.lt_def] at hx hlt ⊢
    omega
  rw [lfOf, lfOf, hc, countP_lt_eq]
  omega

/-- R145: among equal bytes `LF` goes up with the position. -/
theorem lfOf_lt_lfOf_of_position {xs : List Byte} {i j : Nat} (hi : i < xs.length) (hij : i < j)
    (heq : xs.getD i 0#8 = xs.getD j 0#8) : lfOf xs i < lfOf xs j := by
  have hbefore := count_take_lt hij hi
  rw [← List.getD_eq_getElem xs 0#8 hi] at hbefore
  rw [lfOf, lfOf, ← heq]
  omega

theorem lfOf_injOn (xs : List Byte) : Set.InjOn (lfOf xs) (Set.Iio xs.length) := by
  intro i hi j hj heq
  by_contra hne
  rcases lt_trichotomy (xs.getD i 0#8).toNat (xs.getD j 0#8).toNat with hlt | hbyte | hgt
  · exact heq.not_lt (lfOf_lt_lfOf_of_byte hi hlt)
  · have hbyte' := BitVec.eq_of_toNat_eq hbyte
    rcases lt_or_gt_of_ne hne with hlt | hgt
    · exact heq.not_lt (lfOf_lt_lfOf_of_position hi hlt hbyte')
    · exact heq.not_gt (lfOf_lt_lfOf_of_position hj hgt hbyte'.symm)
  · exact heq.not_gt (lfOf_lt_lfOf_of_byte hj hgt)

/-- Settles O35: the tables' map is `LF`, which stays in the sequence and meets no index twice. -/
theorem rankMapIsAPermutation : Obligations.RankMapIsAPermutation := by
  intro xs
  have hmaps : Set.MapsTo (lfOf xs) (Set.Iio xs.length) (Set.Iio xs.length) := fun i hi => lfOf_lt hi
  have hbij := ((Set.finite_Iio xs.length).injOn_iff_bijOn_of_mapsTo hmaps).mp (lfOf_injOn xs)
  exact hbij.congr fun i hi => (lfMap_eq_lfOf hi).symm

/-! ### The forward transform -/

/-- R144: the byte at the last position of a sequence stands at no other. -/
def LastByteUnique (xs : List Byte) : Prop :=
  ∀ q, q < xs.length → xs.getD q 0#8 = xs.getD (xs.length - 1) 0#8 → q = xs.length - 1

theorem lastByteUnique_append {init : List Byte} {last : Byte} (h : last ∉ init) : LastByteUnique (init ++ [last]) := by
  intro q hq heq
  rw [List.length_append, List.length_singleton] at hq heq ⊢
  rcases Nat.lt_or_ge q init.length with hlt | hge
  · rw [List.getD_append _ _ _ _ hlt, List.getD_append_right _ _ _ _ (by omega), Nat.add_sub_cancel, Nat.sub_self,
      List.getD_cons_zero, List.getD_eq_getElem _ _ hlt] at heq
    exact absurd (heq ▸ List.getElem_mem hlt) h
  · omega

section
variable {xs ts : List Byte} {sa : List Nat}

/-- R144: the suffix array of a sequence, and the bytes before its suffixes. -/
structure SortedSuffixes (xs ts : List Byte) (sa : List Nat) : Prop where
  perm : sa.Perm (List.range xs.length)
  sorted : sa.Pairwise fun i j => xs.drop i < xs.drop j
  bytes : ts = sa.map fun j => xs.getD ((j + xs.length - 1) % xs.length) 0#8

theorem SortedSuffixes.length_eq (h : SortedSuffixes xs ts sa) : sa.length = xs.length := by
  rw [h.perm.length_eq, List.length_range]

theorem SortedSuffixes.length_ts (h : SortedSuffixes xs ts sa) : ts.length = xs.length := by
  rw [h.bytes, List.length_map, h.length_eq]

theorem SortedSuffixes.mem (h : SortedSuffixes xs ts sa) {q : Nat} (hq : q < xs.length) : q ∈ sa :=
  h.perm.mem_iff.mpr (List.mem_range.mpr hq)

/-- The rank of a position's suffix. -/
theorem SortedSuffixes.idxOf_lt (h : SortedSuffixes xs ts sa) {q : Nat} (hq : q < xs.length) :
    sa.idxOf q < xs.length := h.length_eq ▸ List.idxOf_lt_length_of_mem (h.mem hq)

theorem SortedSuffixes.idxOf_succ_lt (h : SortedSuffixes xs ts sa) {q : Nat} (hq : q < xs.length) :
    sa.idxOf ((q + 1) % xs.length) < ts.length :=
  (h.idxOf_lt (Nat.mod_lt _ (Nat.zero_lt_of_lt hq))).trans_eq h.length_ts.symm

/-- The transform holds, at the rank of a suffix, the byte before it. -/
theorem SortedSuffixes.getElem?_ts (h : SortedSuffixes xs ts sa) {q : Nat} (hq : q < xs.length) :
    ts[sa.idxOf ((q + 1) % xs.length)]? = xs[q]? := by
  have hpos : (q + 1) % xs.length < xs.length := Nat.mod_lt _ (by omega)
  have hback : ((q + 1) % xs.length + xs.length - 1) % xs.length = q := by
    rcases Nat.lt_or_ge (q + 1) xs.length with hlt | hge
    · rw [Nat.mod_eq_of_lt hlt, show q + 1 + xs.length - 1 = q + xs.length by omega, Nat.add_mod_right,
        Nat.mod_eq_of_lt hq]
    · obtain rfl : q = xs.length - 1 := by omega
      rw [Nat.sub_add_cancel (by omega), Nat.mod_self, Nat.zero_add, Nat.mod_eq_of_lt hq]
  rw [h.bytes, List.getElem?_map, List.getElem?_idxOf (h.mem hpos), Option.map_some, hback,
    List.getD_eq_getElem _ _ hq, List.getElem?_eq_getElem hq]

/-- Suffixes in order have their ranks in order. -/
theorem SortedSuffixes.idxOf_lt_idxOf (h : SortedSuffixes xs ts sa) {q r : Nat} (hq : q < xs.length)
    (hr : r < xs.length) (hlt : xs.drop q < xs.drop r) : sa.idxOf q < sa.idxOf r := by
  have hget : ∀ {p}, p < xs.length → ∃ hp, sa[sa.idxOf p]'hp = p := fun hp =>
    List.getElem?_eq_some_iff.mp (List.getElem?_idxOf (h.mem hp))
  obtain ⟨hq', hsq⟩ := hget hq
  obtain ⟨hr', hsr⟩ := hget hr
  rcases lt_trichotomy (sa.idxOf q) (sa.idxOf r) with hidx | hidx | hidx
  · exact hidx
  · obtain rfl : q = r := by rw [← hsq, ← hsr]; simp only [hidx]
    exact absurd hlt (List.lt_irrefl _)
  · have hgt := List.pairwise_iff_getElem.mp h.sorted _ _ hr' hq' hidx
    rw [hsq, hsr] at hgt
    exact absurd hlt (List.lt_asymm hgt)

/-- R144: where the last byte is unique, `LF` takes the ranks of the suffixes after two positions to places in the order
of the positions' own suffixes: the first bytes decide, or the rest does. -/
theorem SortedSuffixes.lfOf_lt_lfOf (h : SortedSuffixes xs ts sa)
    (hlast : LastByteUnique xs) {q r : Nat}
    (hq : q < xs.length) (hr : r < xs.length) (hlt : xs.drop q < xs.drop r) :
    lfOf ts (sa.idxOf ((q + 1) % xs.length)) < lfOf ts (sa.idxOf ((r + 1) % xs.length)) := by
  have hbyte : ∀ {p}, p < xs.length → ts.getD (sa.idxOf ((p + 1) % xs.length)) 0#8 = xs.getD p 0#8 := fun hp => by
    rw [List.getD_eq_getElem?_getD, h.getElem?_ts hp, ← List.getD_eq_getElem?_getD]
  have hq' := h.idxOf_succ_lt hq
  rw [List.drop_eq_getElem_cons hq, List.drop_eq_getElem_cons hr, List.cons_lt_cons_iff,
    ← List.getD_eq_getElem xs 0#8 hq, ← List.getD_eq_getElem xs 0#8 hr] at hlt
  rcases hlt with hlt | ⟨heq, hrest⟩
  · exact lfOf_lt_lfOf_of_byte hq' (by rwa [hbyte hq, hbyte hr])
  · refine lfOf_lt_lfOf_of_position hq' ?_ (by rw [hbyte hq, hbyte hr, heq])
    have hq1 : q + 1 < xs.length := by
      by_contra hend
      obtain rfl : q = xs.length - 1 := by omega
      rw [hlast r hr heq.symm] at hrest
      exact List.lt_irrefl _ hrest
    have hr1 : r + 1 < xs.length := by
      by_contra hend
      obtain rfl : r = xs.length - 1 := by omega
      rw [hlast q hq heq] at hrest
      exact List.lt_irrefl _ hrest
    rw [Nat.mod_eq_of_lt hq1, Nat.mod_eq_of_lt hr1]
    exact h.idxOf_lt_idxOf hq1 hr1 hrest

/-- R144: `LF` goes from the rank of a suffix to the rank of the suffix one position before: as a map of the ranks of
the latter it keeps their order, so it is the identity. -/
theorem SortedSuffixes.lfOf_idxOf (h : SortedSuffixes xs ts sa)
    (hlast : LastByteUnique xs) {q : Nat}
    (hq : q < xs.length) : lfOf ts (sa.idxOf ((q + 1) % xs.length)) = sa.idxOf q := by
  have hin : ∀ j : Fin sa.length, sa[j] < xs.length := fun j =>
    List.mem_range.mp (h.perm.mem_iff.mp (List.getElem_mem j.isLt))
  have hlf : ∀ j : Fin sa.length, lfOf ts (sa.idxOf ((sa[j] + 1) % xs.length)) < sa.length := fun j =>
    (lfOf_lt (h.idxOf_succ_lt (hin j))).trans_eq (h.length_ts.trans h.length_eq.symm)
  have hmono : StrictMono fun j : Fin sa.length =>
      (⟨lfOf ts (sa.idxOf ((sa[j] + 1) % xs.length)), hlf j⟩ : Fin sa.length) := fun i j hij =>
    h.lfOf_lt_lfOf hlast (hin i) (hin j) (List.pairwise_iff_getElem.mp h.sorted i j i.isLt j.isLt hij)
  have hidx : sa.idxOf q < sa.length := List.idxOf_lt_length_of_mem (h.mem hq)
  have hfix := congrArg Fin.val (hmono.apply_eq (x := ⟨sa.idxOf q, hidx⟩))
  have hget : sa[sa.idxOf q] = q := List.getElem_idxOf hidx
  simpa [hget] using hfix

/-- R144: the walk from the rank of the whole sequence meets the ranks of its suffixes, the shortest first. -/
theorem SortedSuffixes.lfOf_iterate (h : SortedSuffixes xs ts sa)
    (hlast : LastByteUnique xs) {k : Nat}
    (hk : k ≤ xs.length) : (lfOf ts)^[k] (sa.idxOf 0) = sa.idxOf ((xs.length - k) % xs.length) := by
  induction k with
  | zero => simp
  | succ k ih =>
    have hstep := h.lfOf_idxOf hlast (q := xs.length - (k + 1)) (by omega)
    rw [show xs.length - (k + 1) + 1 = xs.length - k by omega] at hstep
    rw [Function.iterate_succ_apply', ih (by omega), hstep,
      Nat.mod_eq_of_lt (by omega : xs.length - (k + 1) < xs.length)]

end

/-- Settles O36: the walk meets the suffixes from the shortest to the longest, so the output, filled back to front, is
the sequence, and the walk ends where it began. -/
theorem bwtInvUndoesTheForwardTransform : Obligations.BwtInvUndoesTheForwardTransform := by
  rintro s b xs ts hp hcap hn ⟨⟨init, last, rfl, hnot⟩, sa, hperm, hsort, hts, hzero⟩ hx
  have h : SortedSuffixes (init ++ [last]) ts sa := ⟨hperm, hsort, hts⟩
  have hlast := lastByteUnique_append hnot
  generalize hxs : init ++ [last] = xs at *
  have hpos : 0 < xs.length := by simp [← hxs]
  obtain ⟨hlt, hsa⟩ := List.getElem?_eq_some_iff.mp hzero
  have hnodup : sa.Nodup := h.perm.nodup_iff.mpr List.nodup_range
  have hidx : sa.idxOf 0 = s.argP := by rw [← hsa]; exact hnodup.idxOf_getElem _ hlt
  have hp' : s.argP < ts.length := by rw [h.length_ts, ← h.length_eq]; exact hlt
  have hwalk := fun {k} (hk : k ≤ xs.length) => hidx ▸ h.lfOf_iterate hlast hk
  refine ⟨_, exec_bwtInv hp (hn.trans h.length_ts.symm) (h.length_ts ▸ hcap) hp' hx, rfl, ?_, ?_, fun j hj => ?_⟩
  · exact (toNat_wordOf (by have := s.latch.a0.isLt; rw [h.length_ts]; omega)).trans (by rw [h.length_ts])
  · show wordOf _ = _
    rw [h.length_ts, hwalk le_rfl, Nat.sub_self, Nat.zero_mod, hidx]
    exact wordOf_toNat _
  · show (s.storeWalk b ts).byteAt _ _ = _
    rw [Nat.zero_add, byteAt_storeWalk_dst s b hp', h.length_ts, if_pos hj, hwalk (by omega),
      show xs.length - (xs.length - 1 - j) = j + 1 by omega, h.getElem?_ts hj]

end Sys2Proof.Machine
end

section
/-! SUPPORT. The slot and entry formats, field by field (spec/10_state.md R43, R44). -/

namespace Sys2Proof.Machine

theorem toNat_append_eq {m n : Nat} (x : BitVec m) (y : BitVec n) : (x ++ y).toNat = 2 ^ n * x.toNat + y.toNat := by
  rw [BitVec.toNat_append, Nat.shiftLeft_eq, Nat.mul_comm, Nat.two_pow_add_eq_or_of_lt y.isLt]

/-- R43: the low and the high word of a frequency. -/
theorem freqWords_split {f : Nat} (h : f < 2 ^ 40) :
    (BitVec.ofNat 32 f).toNat = f % 2 ^ 32 ∧ ((BitVec.ofNat 8 (f / 2 ^ 32)).setWidth 32).toNat = f / 2 ^ 32 := by
  refine ⟨BitVec.toNat_ofNat f 32, ?_⟩
  rw [BitVec.toNat_setWidth, BitVec.toNat_ofNat]
  omega

/-- R43: the tag word of a leaf is its symbol. -/
theorem leafWord_fields (c : Byte) : (0#24 ++ c).getLsbD 31 = false ∧ (0#24 ++ c).toNat = c.toNat := by
  refine ⟨?_, by rw [toNat_append_eq, BitVec.toNat_ofNat]; omega⟩
  simp only [BitVec.getLsbD_append]
  simp

/-- R43: the tag word of an internal node: its kind and its key. -/
theorem toNat_keyWord {key : Nat} (h : key < 2 ^ 9) : (1#1 ++ 0#22 ++ BitVec.ofNat 9 key).toNat = 2 ^ 31 + key := by
  simp only [toNat_append_eq, BitVec.toNat_ofNat]
  omega

/-- R43: the child word of an internal node. -/
theorem toNat_childWord {l r : Nat} (hl : l < 2 ^ 9) (hr : r < 2 ^ 9) :
    (0#7 ++ BitVec.ofNat 9 r ++ 0#7 ++ BitVec.ofNat 9 l).toNat = 2 ^ 16 * r + l := by
  simp only [toNat_append_eq, BitVec.toNat_ofNat]
  omega

/-- R44: the first word of a code entry is `LEN`. -/
theorem packCode_getElem?_zero {bits : List Bool} (h : bits.length ≤ 255) :
    ∃ w, (packCode bits)[0]? = some w ∧ w.toNat = bits.length := by
  refine ⟨_, rfl, ?_⟩
  rw [BitVec.toNat_setWidth, BitVec.toNat_ofNat]
  omega

/-- R44: words 1 to 8 of a code entry are the words of its bits. -/
theorem packCode_getElem?_word (bits : List Bool) {k : Nat} (hk : k < 8) :
    (packCode bits)[1 + k]? = some (codeWord bits k) := by
  rw [packCode, List.cons_append, Nat.add_comm, List.getElem?_cons_succ, List.getElem?_append_left (by simpa using hk)]
  simp [List.getElem?_range hk]

/-- R44: the last seven words of a code entry are 0. -/
theorem packCode_getElem?_zeros (bits : List Bool) {k : Nat} (hlo : 9 ≤ k) (hhi : k < 16) :
    (packCode bits)[k]? = some 0#32 := by
  rw [packCode, List.getElem?_append_right (by simpa using hlo), List.getElem?_replicate, if_pos (by simp; omega)]

/-- Settles O39: the words of a slot and of an entry, each by its fields. -/
theorem slotAndEntryFormats : Obligations.SlotAndEntryFormats := by
  refine ⟨fun c f hf => ?_, fun key l r f hkey hl hr hf => ?_, fun bits hlen =>
    ⟨packCode_length bits, fun w hw => ?_, fun j w hj hw => ?_, fun k => packCode_getElem?_zeros bits⟩⟩
  · obtain ⟨htag, hsym⟩ := leafWord_fields c
    obtain ⟨hlow, hhigh⟩ := freqWords_split hf
    exact ⟨_, _, _, _, rfl, unpackNode_packNode (nd := .leaf c f) hf rfl, htag, hsym, rfl, hlow, hhigh⟩
  · obtain ⟨hlow, hhigh⟩ := freqWords_split hf
    exact ⟨_, _, _, _, rfl, unpackNode_packNode (nd := .internal key l r f) ⟨hkey, hl, hr, hf⟩ rfl,
      toNat_keyWord hkey, toNat_childWord hl hr, hlow, hhigh⟩
  · obtain ⟨v, hv, hlenv⟩ := packCode_getElem?_zero hlen
    rwa [Option.some.inj (hw.symm.trans hv)]
  · rw [packCode_getElem?_word bits (by omega : j / 32 < 8)] at hw
    rw [← Option.some.inj hw, getLsbD_codeWord]

end Sys2Proof.Machine
end

section
/-! SUPPORT. HUF_ENCODE whole: the symbols before the place where it stops, and each way to stop there
(spec/43_huffman.md R163, spec/60_exceptions.md R202, R203). -/

namespace Sys2Proof.Machine

/-! ### Where the loop stops -/

section
variable {s : State} {b : Buf} {i : Nat} {c : Byte}

/-- R163: a source byte never written. -/
theorem encodeFrom_unwritten (hbyte : s.byteAt (bufWindow b) i = none) (k : Nat) :
    encodeFrom b i (k + 1) s = .stuck (.unwritten (bufWindow b)) := by
  rw [encodeFrom, hbyte]

/-- R163: a symbol without a code. -/
theorem encodeFrom_noCode (hbyte : s.byteAt (bufWindow b) i = some c) (hlen : s.codeLen c = some 0) (k : Nat) :
    encodeFrom b i (k + 1) s = .raised .noCode (s.setRes i s.wbits.toNat) := by
  rw [encodeFrom, hbyte]
  dsimp only
  rw [hlen]
  rfl

/-- R163: a code without room. -/
theorem encodeFrom_noRoom {len : Nat} (hbyte : s.byteAt (bufWindow b) i = some c) (hlen : s.codeLen c = some len)
    (hpos : len ≠ 0) (hover : 8 * s.cfg.bitcap < s.wbits.toNat + len) (k : Nat) :
    encodeFrom b i (k + 1) s = .raised .bufferOverflow (s.setRes i s.wbits.toNat) := by
  rw [encodeFrom, hbyte]
  dsimp only
  rw [hlen]
  dsimp only
  rw [if_neg hpos, if_pos hover]

end

/-! ### The symbols before it -/

section
variable {b : Buf} {xs : List Byte} {code : Byte → List Bool}

/-- R163: symbols whose codes fit are encoded one after the other, and the loop goes on behind them. -/
theorem ReadyToEncode.encodeFrom_append {i : Nat} {s : State} (h : ReadyToEncode s b i xs code)
    (hfit : s.wbits.toNat + (xs.flatMap code).length ≤ 8 * s.cfg.bitcap) :
    ∃ t, (∀ k, encodeFrom b i (xs.length + k) s = encodeFrom b (i + xs.length) k t) ∧
      BitsAppended s (xs.flatMap code) t ∧ t.wbits.toNat = s.wbits.toNat + (xs.flatMap code).length := by
  induction xs generalizing i s with
  | nil => exact ⟨s, fun k => by rw [List.length_nil, Nat.zero_add, Nat.add_zero], bitsAppended_nil s, rfl⟩
  | cons c cs ih =>
    have hcap := bitcap_le_of_legal h.legal
    rw [List.flatMap_cons, List.length_append] at hfit
    obtain ⟨t, hstep, happ, hw, hcfg, ht⟩ := h.encodeFrom_fits (by omega)
    obtain ⟨u, hu, hrest, hwu⟩ := ih ht (by rw [hw, hcfg]; omega)
    refine ⟨u, fun k => ?_, happ.append hrest (by omega), ?_⟩
    · rw [List.length_cons, Nat.add_right_comm, hstep, hu, Nat.add_assoc, Nat.add_comm 1]
    · rw [hwu, hw, List.flatMap_cons, List.length_append, Nat.add_assoc]

/-- What HUF_ENCODE has done after the symbols `xs`, about to go on with the next one: their codes are appended, and only
the writer and `BITS` have moved. -/
structure Encoded (s : State) (xs : List Byte) (code : Byte → List Bool) (t : State) : Prop where
  appended : BitsAppended s (xs.flatMap code) t
  wbits : t.wbits.toNat = s.wbits.toNat + (xs.flatMap code).length
  frame : Frame [.bits] [.writer] (begin s) (t.setRes xs.length t.wbits.toNat)

/-- R163: HUF_ENCODE with a code table and `n` in range is its loop, which goes over the symbols whose codes fit. -/
theorem runOf_hufEncode_append {s : State} {k : Nat} (hv : s.status.codev = true)
    (hn : s.latch.a0.toNat = xs.length + k) (hcap : s.latch.a0.toNat ≤ s.cfg.nbuf) (h : ReadyToEncode s b 0 xs code)
    (hfit : s.wbits.toNat + (xs.flatMap code).length ≤ 8 * s.cfg.bitcap) :
    ∃ t, runOf (.hufEncode b) (begin s) = encodeFrom b xs.length k t ∧ Encoded s xs code t := by
  have hready : ReadyToEncode (begin s) b 0 xs code := ⟨h.legal, h.source, h.partialByte, h.codes⟩
  obtain ⟨t, ht, happ, hw⟩ := hready.encodeFrom_append hfit
  rw [Nat.zero_add] at ht
  have hrun : runOf (.hufEncode b) (begin s) = encodeFrom b 0 s.latch.a0.toNat (begin s) :=
    (if_neg (by simp [hv])).trans (if_neg hcap.not_gt)
  have hframe := encodeFrom_framed b 0 (xs.length + 0) (begin s)
  rw [ht 0] at hframe
  exact ⟨t, hrun.trans (hn ▸ ht k), happ, hw, hframe⟩

variable {s t : State}

/-- R203: what HUF_ENCODE leaves where it stops, with the flags of its completion. -/
theorem Encoded.stopped_eq (h : Encoded s xs code t) (f : Status → Status) :
    { t.setRes xs.length t.wbits.toNat with status := f (t.setRes xs.length t.wbits.toNat).status } =
      { s with
        wbits := t.wbits, res0 := wordOf xs.length, res1 := t.wbits, status := f s.status, mem := t.mem } := by
  rw [h.frame.eq_of_writer, State.setRes, wordOf_toNat]
  rfl

theorem Encoded.sameBut (h : Encoded s xs code t) : SameBut [.bits] s t := h.frame.mem

theorem Encoded.cfg_eq (h : Encoded s xs code t) : t.cfg = s.cfg := h.frame.cfg

/-- The source reads as before. -/
theorem Encoded.byteAt_source (h : Encoded s xs code t) (o : Nat) :
    t.byteAt (bufWindow b) o = s.byteAt (bufWindow b) o := h.sameBut _ (by cases b <;> decide) o

/-- So does the code table. -/
theorem Encoded.codeLen (h : Encoded s xs code t) {c : Byte} (hlen : (code c).length ≤ 255)
    (hcode : s.codeIs c (code c)) : t.codeLen c = some (code c).length :=
  codeLen_of_codeIs (codeIs_congr hcode fun o => h.sameBut _ (by decide) o) hlen

end

/-- Settles O42: the loop over all symbols, which ends there. -/
theorem hufEncodeAppendsTheCodes : Obligations.HufEncodeAppendsTheCodes := by
  intro s b xs code hp hlegal hv hn hcap hsrc hs hcodes hfit
  obtain ⟨t, hrun, ht⟩ := runOf_hufEncode_append (k := 0) hv hn (hn ▸ hcap) ⟨hlegal, hsrc, hs, hcodes⟩ hfit
  rw [encodeFrom] at hrun
  refine ⟨_, exec_of_done hrun hp, ?_, ht.appended, ht.sameBut⟩
  rw [ht.stopped_eq Status.succeeded, ← hn, wordOf_toNat]

/-- Settles O43: the loop over the symbols before, and the check of the next one that fails. -/
theorem hufEncodeStopsAtTheFirstFailure : Obligations.HufEncodeStopsAtTheFirstFailure := by
  intro s b xs c code hp hlegal hv hlt hcap hsrc hs hne hcodes hfit hfail
  obtain ⟨k, hk⟩ := Nat.exists_eq_add_of_lt hlt
  have hready : ReadyToEncode s b 0 xs code :=
    ⟨hlegal, fun j hj => (hsrc j (by rw [List.length_append]; omega)).trans (List.getElem?_append_left hj), hs,
      fun x hx => ⟨hne x hx, hcodes x (List.mem_append_left _ hx)⟩⟩
  obtain ⟨t, hrun, ht⟩ := runOf_hufEncode_append (k := k + 1) hv hk hcap hready hfit
  obtain ⟨hlen, hcode⟩ := hcodes c (by simp)
  have hbyte : t.byteAt (bufWindow b) xs.length = some c := by
    have hc := hsrc xs.length (by simp)
    rw [ht.byteAt_source]
    simpa using hc
  have hcl := ht.codeLen hlen hcode
  by_cases hnil : code c = []
  · rw [encodeFrom_noCode hbyte (by rw [hcl, hnil]; rfl)] at hrun
    refine ⟨_, exec_of_raised hrun hp, ?_, ht.appended, ht.sameBut⟩
    rw [if_pos hnil, ht.stopped_eq (Status.failed _)]
    rfl
  · have hover := hfail.resolve_left hnil
    rw [encodeFrom_noRoom hbyte hcl (fun h => hnil (List.length_eq_zero_iff.mp h))
      (by rw [ht.cfg_eq, ht.wbits]; exact hover)] at hrun
    refine ⟨_, exec_of_raised hrun hp, ?_, ht.appended, ht.sameBut⟩
    rw [if_neg hnil, ht.stopped_eq (Status.failed _)]
    rfl

/-- R163, 93_implementation_defined.md item 6: HUF_ENCODE that reaches a source byte never written. -/
theorem exec_hufEncode_unwritten {s : State} {b : Buf} {xs : List Byte} {code : Byte → List Bool}
    (hv : s.status.codev = true) (hlt : xs.length < s.latch.a0.toNat) (hcap : s.latch.a0.toNat ≤ s.cfg.nbuf)
    (h : ReadyToEncode s b 0 xs code) (hnone : s.byteAt (bufWindow b) xs.length = none)
    (hfit : s.wbits.toNat + (xs.flatMap code).length ≤ 8 * s.cfg.bitcap) :
    exec (.hufEncode b) s = .fault (.unwritten (bufWindow b)) := by
  obtain ⟨k, hk⟩ := Nat.exists_eq_add_of_lt hlt
  obtain ⟨t, hrun, ht⟩ := runOf_hufEncode_append (k := k + 1) hv hk hcap h hfit
  exact exec_of_stuck (hrun.trans (encodeFrom_unwritten ((ht.byteAt_source _).trans hnone) k))

end Sys2Proof.Machine
end

section
/-! SUPPORT. HUF_DECODE whole: the symbols whose paths the stream spells, and each way to stop behind them
(spec/43_huffman.md R164, spec/60_exceptions.md R203). -/

namespace Sys2Proof.Machine

/-- What moves the reader alone changes `RCUR`, the results and the memories alone. -/
theorem Frame.eq_of_reader {ws : List Window} {s u : State} (h : Frame ws [.reader] s u) :
    u = { s with rcur := u.rcur, res0 := u.res0, res1 := u.res1, mem := u.mem } := by
  calc u = u.onto s := h.onto_self.symm
    _ = _ := by
      simp only [State.onto, h.cfg, h.latch, h.wbits (by decide), h.rlim (by decide), h.nleaf (by decide),
        h.nnode (by decide), h.root (by decide), h.treev (by decide), h.codev (by decide), h.lone (by decide)]

/-- R121, 93_implementation_defined.md item 6: `GetBit` before the end, over a bit never written. -/
theorem getBit_unwritten {s : State} (hlim : s.rcur.toNat < s.rlim.toNat) (hbit : s.streamAt s.rcur.toNat = none) :
    getBit s = .stuck (.unwritten .bits) := by
  rcases getBit_cases s with ⟨-, v, hv, -⟩ | ⟨hle, -⟩ | ⟨-, -, h⟩
  · exact absurd (hbit.symm.trans hv) nofun
  · exact absurd hlim hle.not_gt
  · exact h

/-! ### One walk -/

section
variable {nodes : List Node} {s : State}

/-- R164: the inner loop follows the stream as far as it leads. -/
theorem walkDown_descend {bits : List Bool} (i start : Nat) {node j : Nat} (hs : TreeStored s nodes)
    (hdown : descend nodes node bits = some j) (hbits : s.streamHolds s.rcur.toNat bits)
    (hlim : s.rcur.toNat + bits.length ≤ s.rlim.toNat) :
    walkDown i start (s.rlim.toNat - s.rcur.toNat) node s =
      walkDown i start (s.rlim.toNat - (s.rcur.toNat + bits.length)) j (s.setRcur (s.rcur.toNat + bits.length)) := by
  induction bits generalizing s node with
  | nil =>
    obtain rfl : node = j := Option.some.inj hdown
    rw [List.length_nil, Nat.add_zero, State.setRcur, wordOf_toNat]
  | cons v bits ih =>
    rw [List.length_cons] at hlim
    obtain ⟨key, l, r, f, hnode, hnext⟩ := descend_cons_eq_some hdown
    have hcur : (s.setRcur (s.rcur.toNat + 1)).rcur.toNat = s.rcur.toNat + 1 := toNat_wordOf (by omega)
    obtain ⟨hfirst, hrest⟩ := streamHolds_append (xs := [v]).mp hbits
    have hget := getBit_done (by omega) (hfirst 0 Nat.zero_lt_one)
    obtain ⟨left, hleft⟩ : ∃ left, s.rlim.toNat - s.rcur.toNat = left + 1 := ⟨_, (Nat.sub_add_cancel (by omega)).symm⟩
    have htail := ih (s := s.setRcur (s.rcur.toNat + 1)) (node := bif v then r else l)
      (treeStored_congr hs fun _ => rfl) hnext (by rw [hcur]; exact streamHolds_congr hrest fun _ => rfl)
      (by rw [hcur, State.setRcur_rlim]; omega)
    rw [hcur, State.setRcur_rlim, show s.rlim.toNat - (s.rcur.toNat + 1) = left by omega, Nat.add_assoc,
      Nat.add_comm 1] at htail
    rw [hleft, walkDown, slotAt_of_treeStored hs hnode]
    dsimp only
    rw [hget]
    exact htail

section
variable {i start node key l r f : Nat} (hslot : s.slotAt node = some (.internal key l r f))
include hslot

/-- R164: at an internal node with no bit left. -/
theorem walkDown_exhausted :
    walkDown i start 0 node s = .raised .streamExhausted (s.setRes i (s.rcur.toNat - start)) := by
  rw [walkDown, hslot]

/-- R164: at an internal node whose next bit has never been written. -/
theorem walkDown_unwritten (hlim : s.rcur.toNat < s.rlim.toNat) (hbit : s.streamAt s.rcur.toNat = none) (left : Nat) :
    walkDown i start (left + 1) node s = .stuck (.unwritten .bits) := by
  rw [walkDown, hslot]
  dsimp only
  rw [getBit_unwritten hlim hbit]

end

/-! ### The symbols spelled -/

/-- R164: from the cursor on the stream spells paths from the root to leaves of the symbols `xs`. -/
structure Spells (nodes : List Node) (s : State) (xs : List Byte) (codes : List (List Bool)) : Prop where
  tree : TreeStored s nodes
  paths : List.Forall₂ (fun x code => LeadsTo nodes s.root.toNat code x) xs codes
  bits : s.streamHolds s.rcur.toNat codes.flatten
  limit : s.rcur.toNat + codes.flatten.length ≤ s.rlim.toNat

/-- R164: the outer loop writes the symbol of the first path, and goes on behind it. -/
theorem Spells.decodeFrom_cons {b : Buf} {x : Byte} {xs : List Byte} {code : List Bool} {codes : List (List Bool)}
    (h : Spells nodes s (x :: xs) (code :: codes)) (start i : Nat) :
    ∃ t, t = (s.setRcur (s.rcur.toNat + code.length)).storeBytes (bufWindow b) i [x] ∧
      (∀ k, decodeFrom b start i (k + 1) s = decodeFrom b start (i + 1) k t) ∧
      t.rcur.toNat = s.rcur.toNat + code.length ∧ Spells nodes t xs codes := by
  obtain ⟨hs, hpaths, hbits, hlim⟩ := h
  rw [List.flatten_cons] at hbits hlim
  rw [List.length_append] at hlim
  obtain ⟨hlead, hpaths⟩ := List.forall₂_cons.mp hpaths
  obtain ⟨hfirst, hrest⟩ := streamHolds_append.mp hbits
  have hcur : (wordOf (s.rcur.toNat + code.length)).toNat = s.rcur.toNat + code.length := toNat_wordOf (by omega)
  refine ⟨_, rfl, fun k => ?_, hcur, treeStored_congr hs fun o => ?_, hpaths, ?_, ?_⟩
  · rw [decodeFrom, walkDown_leadsTo i start hs hlead hfirst (by omega)]
  · exact State.byteAt_storeBytes_ne _ i o [x] (tree_ne_bufWindow b)
  · rw [State.storeBytes_rcur, State.setRcur_rcur, hcur]
    exact streamHolds_congr hrest fun o => State.byteAt_storeBytes_ne _ i o [x] (bits_ne_bufWindow b)
  · rw [State.storeBytes_rcur, State.setRcur_rcur, hcur, State.storeBytes_rlim, State.setRcur_rlim]
    omega

/-- R164: the outer loop writes the symbols spelled and goes on behind them. -/
theorem Spells.decodeFrom_append {b : Buf} {xs : List Byte} {codes : List (List Bool)} (h : Spells nodes s xs codes)
    (start i : Nat) :
    ∃ t, (∀ k, decodeFrom b start i (xs.length + k) s = decodeFrom b start (i + xs.length) k t) ∧
      t.rcur.toNat = s.rcur.toNat + codes.flatten.length ∧
      ∀ o, t.byteAt (bufWindow b) o =
        if i ≤ o ∧ o < i + xs.length then xs[o - i]? else s.byteAt (bufWindow b) o := by
  induction xs generalizing i s codes with
  | nil =>
    obtain rfl : codes = [] := List.forall₂_nil_left_iff.mp h.paths
    exact ⟨s, fun k => by rw [List.length_nil, Nat.zero_add, Nat.add_zero], rfl,
      fun o => (if_neg (by rw [List.length_nil]; omega)).symm⟩
  | cons x xs ih =>
    obtain ⟨code, codes, -, -, rfl⟩ := List.forall₂_cons_left_iff.mp h.paths
    obtain ⟨t, rfl, hstep, hcur, ht⟩ := h.decodeFrom_cons (b := b) start i
    obtain ⟨u, hu, hcuru, hbytes⟩ := ih ht (i + 1)
    refine ⟨u, fun k => ?_, ?_, fun o => ?_⟩
    · rw [List.length_cons, Nat.add_right_comm, hstep, hu, Nat.add_assoc, Nat.add_comm 1]
    · rw [hcuru, hcur, List.flatten_cons, List.length_append, Nat.add_assoc]
    · rw [hbytes, State.byteAt_storeBytes, State.byteAt_setRcur, List.length_singleton, List.length_cons]
      rcases lt_trichotomy o i with ho | rfl | ho
      · rw [if_neg (by omega), if_neg (by omega), if_neg (by omega)]
      · rw [if_neg (by omega), if_pos ⟨rfl, by omega⟩, if_pos (by omega), Nat.sub_self]
        rfl
      · obtain ⟨d, rfl⟩ := Nat.exists_eq_add_of_lt ho
        rw [show i + d + 1 - i = d + 1 by omega, show i + d + 1 - (i + 1) = d by omega, List.getElem?_cons_succ,
          if_neg (c := _ ∧ _ ∧ i + d + 1 < i + 1) (by omega)]
        exact if_congr (by omega) rfl rfl

end

/-! ### The command -/

section
variable {nodes : List Node} {b : Buf} {s t u : State} {xs : List Byte} {codes : List (List Bool)}

theorem Spells.of_getElem? (hs : TreeStored s nodes) (hlen : codes.length = xs.length)
    (hlead : ∀ (i : Nat) (x : Byte) (code : List Bool), xs[i]? = some x → codes[i]? = some code →
      LeadsTo nodes s.root.toNat code x)
    (hbits : s.streamHolds s.rcur.toNat codes.flatten)
    (hlim : s.rcur.toNat + codes.flatten.length ≤ s.rlim.toNat) : Spells nodes s xs codes where
  tree := hs
  paths := List.forall₂_of_length_eq_of_get hlen.symm fun i _ _ =>
    hlead i _ _ (List.getElem?_eq_getElem _) (List.getElem?_eq_getElem _)
  bits := hbits
  limit := hlim

/-- What HUF_DECODE has done after the symbols `xs`, about to go on with the next one. -/
structure Decoded (b : Buf) (s : State) (xs : List Byte) (codes : List (List Bool)) (t : State) : Prop where
  rcur : t.rcur.toNat = s.rcur.toNat + codes.flatten.length
  written : Overwritten (bufWindow b) xs s t
  frame : Frame [bufWindow b] [.reader] (begin s) (t.setRes xs.length (t.rcur.toNat - s.rcur.toNat))

/-- R164: HUF_DECODE past its checks is its loop, unless the tree is a lone leaf, and the loop goes over the symbols
that the stream spells. -/
theorem Spells.runOf_hufDecode {k : Nat} (h : Spells nodes s xs codes) (hv : s.status.treev = true)
    (hn : s.latch.a0.toNat = xs.length + k) (hcap : s.latch.a0.toNat ≤ s.cfg.nbuf) (hone : s.nleaf.toNat ≠ 1)
    (hzero : 0 < s.latch.a0.toNat → s.nleaf.toNat ≠ 0) (hmin : s.latch.a0.toNat ≤ s.rlim.toNat - s.rcur.toNat) :
    ∃ t, runOf (.hufDecode b) (begin s) = decodeFrom b s.rcur.toNat xs.length k t ∧ Decoded b s xs codes t := by
  have hrun : runOf (.hufDecode b) (begin s) = decodeFrom b s.rcur.toNat 0 s.latch.a0.toNat (begin s) :=
    (if_neg (by simp [hv])).trans ((if_neg hcap.not_gt).trans ((if_neg fun h => hzero h.1 h.2).trans
      ((if_neg fun h => hmin.not_gt h.2).trans (if_neg hone))))
  have hbegin : Spells nodes (begin s) xs codes := ⟨h.tree, h.paths, h.bits, h.limit⟩
  obtain ⟨t, ht, hcur, hbytes⟩ := hbegin.decodeFrom_append (b := b) s.rcur.toNat 0
  rw [Nat.zero_add] at ht
  have hframe := decodeFrom_framed b s.rcur.toNat 0 (xs.length + 0) (begin s)
  rw [ht 0] at hframe
  refine ⟨t, hrun.trans (hn ▸ ht k), hcur, fun o => ?_, hframe⟩
  rw [hbytes, Nat.zero_add, Nat.sub_zero]
  exact if_congr (by omega) rfl rfl

/-- What a stop of HUF_DECODE's rule leaves, with the flags of its completion. -/
theorem stopped_eq_of_reader (hf : Frame [bufWindow b] [.reader] (begin s) u) (f : Status → Status) :
    { u with status := f u.status } =
      { s with rcur := u.rcur, res0 := u.res0, res1 := u.res1, status := f s.status, mem := u.mem } := by
  rw [hf.eq_of_reader]
  rfl

theorem Decoded.rlim_eq (h : Decoded b s xs codes t) : t.rlim = s.rlim := h.frame.rlim (by decide)
theorem Decoded.root_eq (h : Decoded b s xs codes t) : t.root = s.root := h.frame.root (by decide)
theorem Decoded.sameBut (h : Decoded b s xs codes t) : SameBut [bufWindow b] s t := h.frame.mem

/-! ### Where the stream ends inside a path -/

/-- R164: a symbol whose bits run out on the way down. -/
theorem decodeFrom_exhausted {tail : List Bool} {start n k i key l r f : Nat} (hs : TreeStored t nodes)
    (hdown : descend nodes t.root.toNat tail = some i) (hnode : nodes[i]? = some (.internal key l r f))
    (hbits : t.streamHolds t.rcur.toNat tail) (hlim : t.rcur.toNat + tail.length = t.rlim.toNat) :
    decodeFrom b start n (k + 1) t =
      .raised .streamExhausted ((t.setRcur t.rlim.toNat).setRes n (t.rlim.toNat - start)) := by
  have hslot := slotAt_of_treeStored (s := t.setRcur t.rlim.toNat) (treeStored_congr hs fun _ => rfl) hnode
  rw [decodeFrom, walkDown_descend n start hs hdown hbits hlim.le, hlim, Nat.sub_self, walkDown_exhausted hslot,
    State.setRcur_rcur, wordOf_toNat]

/-- 93_implementation_defined.md item 6: a symbol whose next bit on the way down has never been written. -/
theorem decodeFrom_unwritten {tail : List Bool} {start n k i key l r f : Nat} (hs : TreeStored t nodes)
    (hdown : descend nodes t.root.toNat tail = some i) (hnode : nodes[i]? = some (.internal key l r f))
    (hbits : t.streamHolds t.rcur.toNat tail) (hlim : t.rcur.toNat + tail.length < t.rlim.toNat)
    (hbit : t.streamAt (t.rcur.toNat + tail.length) = none) :
    decodeFrom b start n (k + 1) t = .stuck (.unwritten .bits) := by
  have hcur : (t.setRcur (t.rcur.toNat + tail.length)).rcur.toNat = t.rcur.toNat + tail.length :=
    toNat_wordOf (by omega)
  have hslot := slotAt_of_treeStored (s := t.setRcur (t.rcur.toNat + tail.length)) (treeStored_congr hs fun _ => rfl)
    hnode
  obtain ⟨left, hleft⟩ := Nat.exists_eq_add_of_lt hlim
  rw [decodeFrom, walkDown_descend n start hs hdown hbits hlim.le,
    show t.rlim.toNat - (t.rcur.toNat + tail.length) = left + 1 by omega,
    walkDown_unwritten hslot (by rw [hcur]; exact hlim) (by rw [hcur]; exact hbit)]

/-- The next walk starts where the symbols end. -/
theorem Decoded.next_walk {tail : List Bool} {i : Nat} (h : Decoded b s xs codes t) (hs : TreeStored s nodes)
    (hdown : descend nodes s.root.toNat tail = some i)
    (hbits : s.streamHolds (s.rcur.toNat + codes.flatten.length) tail) :
    TreeStored t nodes ∧ descend nodes t.root.toNat tail = some i ∧ t.streamHolds t.rcur.toNat tail := by
  have hsame : ∀ w, w ≠ bufWindow b → ∀ o, t.byteAt w o = s.byteAt w o := fun w hw => h.sameBut w (by simpa using hw)
  rw [h.root_eq, h.rcur]
  exact ⟨treeStored_congr hs (hsame _ (tree_ne_bufWindow b)), hdown,
    streamHolds_congr hbits (hsame _ (bits_ne_bufWindow b))⟩

theorem wordOf_toNat_sub {a c : Word} (h : c.toNat ≤ a.toNat) : wordOf (a.toNat - c.toNat) = a - c := by
  rw [wordOf]
  bv_omega

/-- R164, 93_implementation_defined.md item 6: the loop over the symbols before, and the walk that needs an unwritten
bit. -/
theorem exec_hufDecode_unwritten {tail : List Bool} {i key l r f : Nat} (hv : s.status.treev = true)
    (hk : 2 ≤ s.nleaf.toNat) (hlt : xs.length < s.latch.a0.toNat) (hcap : s.latch.a0.toNat ≤ s.cfg.nbuf)
    (hmin : s.latch.a0.toNat ≤ s.rlim.toNat - s.rcur.toNat) (h : Spells nodes s xs codes)
    (hdown : descend nodes s.root.toNat tail = some i) (hnode : nodes[i]? = some (.internal key l r f))
    (htail : s.streamHolds (s.rcur.toNat + codes.flatten.length) tail)
    (hlim : s.rcur.toNat + (codes.flatten ++ tail).length < s.rlim.toNat)
    (hbit : s.streamAt (s.rcur.toNat + (codes.flatten ++ tail).length) = none) :
    exec (.hufDecode b) s = .fault (.unwritten .bits) := by
  rw [List.length_append, ← Nat.add_assoc] at hlim hbit
  obtain ⟨k, hn⟩ := Nat.exists_eq_add_of_lt hlt
  obtain ⟨t, hrun, ht⟩ := h.runOf_hufDecode (k := k + 1) (b := b) hv hn hcap (by omega) (by omega) hmin
  obtain ⟨hts, htdown, htbits⟩ := ht.next_walk h.tree hdown htail
  refine exec_of_stuck (hrun.trans (decodeFrom_unwritten hts htdown hnode htbits ?_ ?_))
  · rw [ht.rcur, ht.rlim_eq]
    exact hlim
  · rw [ht.rcur, State.streamAt, ht.sameBut .bits (by simpa using bits_ne_bufWindow b)]
    exact hbit

end

/-- Settles O44: the loop over all symbols, which ends there. -/
theorem hufDecodeFollowsTheTree : Obligations.HufDecodeFollowsTheTree := by
  intro s b nodes xs codes hp hv hn hcap hone hzero hs hlen hlead hbits hlim hmin
  have hspells := Spells.of_getElem? hs hlen hlead hbits hlim
  obtain ⟨t, hrun, ht⟩ := hspells.runOf_hufDecode (k := 0) (b := b) hv hn (hn ▸ hcap) hone
    (fun hpos => hzero (List.ne_nil_of_length_pos (hn ▸ hpos))) (hn ▸ hmin)
  rw [decodeFrom] at hrun
  refine ⟨_, exec_of_done hrun hp, ?_, ht.rcur, ht.written, ht.sameBut⟩
  rw [stopped_eq_of_reader ht.frame Status.succeeded, State.setRes, ht.rcur, Nat.add_sub_cancel_left, ← hn,
    wordOf_toNat]
  rfl

/-- Settles O46: the loop over the symbols before, and the walk that meets the end. -/
theorem hufDecodeStopsWhenBitsRunOut : Obligations.HufDecodeStopsWhenBitsRunOut := by
  intro s b nodes xs codes tail i key l r f hp hv hk hlt hcap hmin hs hlen hlead hdown hnode hbits hlim
  obtain ⟨hbefore, htail⟩ := streamHolds_append.mp hbits
  rw [List.length_append] at hlim
  obtain ⟨k, hn⟩ := Nat.exists_eq_add_of_lt hlt
  have hspells := Spells.of_getElem? hs hlen hlead hbefore (by omega)
  obtain ⟨t, hrun, ht⟩ := hspells.runOf_hufDecode (k := k + 1) (b := b) hv hn hcap (by omega) (by omega) hmin
  obtain ⟨hts, htdown, htbits⟩ := ht.next_walk hs hdown htail
  rw [decodeFrom_exhausted hts htdown hnode htbits (by rw [ht.rcur, ht.rlim_eq, Nat.add_assoc]; exact hlim),
    ht.rlim_eq] at hrun
  have hframe := runOf_framed (.hufDecode b) (begin s)
  rw [hrun] at hframe
  refine ⟨_, exec_of_raised hrun hp, ?_, ht.written, ht.sameBut⟩
  rw [stopped_eq_of_reader hframe (Status.failed _), State.setRes, State.setRcur, wordOf_toNat,
    wordOf_toNat_sub (by omega)]
  rfl

end Sys2Proof.Machine
end

section
/-! SUPPORT. The lone leaf of HUF_DECODE, the checks before any write, and the faults on unwritten entries
(spec/43_huffman.md R164, spec/60_exceptions.md R202, spec/93_implementation_defined.md section 1). -/

namespace Sys2Proof.Machine

/-! ### The lone leaf -/

/-- Settles O45: with no symbol to write the memories stay; else the copies are stored at once. -/
theorem hufDecodeOfALoneLeafReadsNoBit : Obligations.HufDecodeOfALoneLeafReadsNoBit := by
  intro s b c f hp hv hone hslot hcap
  have hrun : runOf (.hufDecode b) (begin s) = decodeLone b s.latch.a0.toNat (begin s) :=
    (if_neg (by simp [hv])).trans ((if_neg hcap.not_gt).trans ((if_neg (by rw [begin_nleaf]; omega)).trans
      ((if_neg (by rw [begin_nleaf]; omega)).trans (if_pos hone))))
  by_cases hn : s.latch.a0.toNat = 0
  · rw [decodeLone, if_pos hn] at hrun
    refine ⟨_, exec_of_done hrun hp, ?_, fun o => ?_, fun _ _ _ => rfl⟩
    · rw [show s.latch.a0 = 0#32 from BitVec.eq_of_toNat_eq hn]
      rfl
    · rw [hn]
      rfl
  · have hread : (begin s).slotAt (begin s).root.toNat = some (.leaf c f) := (slotAt_congr (fun _ => rfl) _).trans hslot
    rw [decodeLone, if_neg hn, hread] at hrun
    simp only [Node.key, BitVec.ofNat_toNat, BitVec.setWidth_eq] at hrun
    have he := exec_of_done hrun hp
    obtain ⟨-, -, -, -, hsame⟩ := exec_next he
    refine ⟨_, he, ?_, overwritten_storeBytes (begin s) _ _, hsame⟩
    rw [State.setRes, wordOf_toNat]
    rfl

/-! ### The checks before any write -/

/-- Settles O47: the flag first, then `n`, then the header of HUF_DECODE. -/
theorem failedChecksChangeNothingElse : Obligations.FailedChecksChangeNothingElse := by
  intro s b hp
  refine ⟨fun hv i hi => exec_missesFlag ?_ hp, fun hv => exec_missesFlag (.inr (.inl ⟨b, rfl, hv⟩)) hp,
    fun hcap i hi => ?_, fun hcap hv => ?_, fun hcap hv => ?_, fun hv hcap hbad => ?_⟩
  · simp only [List.mem_cons, List.not_mem_nil, or_false] at hi
    rcases hi with rfl | rfl
    · exact .inl ⟨rfl, hv⟩
    · exact .inr (.inr ⟨b, rfl, hv⟩)
  · simp only [List.mem_cons, List.not_mem_nil, or_false] at hi
    rcases hi with rfl | rfl | rfl | rfl
    · exact exec_freqCount_badArg hp hcap
    · exact exec_rankList_badArg (i := .mtfFwd b) rfl hp hcap
    · exact exec_rankList_badArg (i := .mtfInv b) rfl hp hcap
    · exact exec_bwtInv_badArg hp (.inr hcap)
  · have hrun : runOf (.hufEncode b) (begin s) = .raised .badArg (begin s) :=
      (if_neg (by simp [hv])).trans (if_pos hcap)
    exact exec_of_raised hrun hp
  · have hrun : runOf (.hufDecode b) (begin s) = .raised .badArg (begin s) :=
      (if_neg (by simp [hv])).trans (if_pos hcap)
    exact exec_of_raised hrun hp
  · have hrun : runOf (.hufDecode b) (begin s) = .raised .malformedHeader (begin s) := by
      refine (if_neg (by simp [hv])).trans ((if_neg hcap.not_gt).trans ?_)
      by_cases hempty : 0 < s.latch.a0.toNat ∧ s.nleaf.toNat = 0
      · exact if_pos hempty
      · exact (if_neg hempty).trans (if_pos (hbad.resolve_left hempty))
    exact exec_of_raised hrun hp

/-! ### Unwritten entries -/

section
variable {s : State} {b : Buf}

section
variable (hcap : s.latch.a0.toNat ≤ s.cfg.nbuf) (hsrc : s.source b s.latch.a0.toNat = none)
include hcap hsrc

/-- R160: FREQ_COUNT over an unwritten source byte. -/
theorem exec_freqCount_unwritten : exec (.freqCount b) s = .fault (.unwritten (bufWindow b)) := by
  have hsrc' : (begin s).source b s.latch.a0.toNat = none := hsrc
  refine exec_of_stuck (i := .freqCount b) ?_
  simp only [runOf, runFreqCount, State.argN, begin_latch, begin_cfg, if_neg hcap.not_gt, hsrc']

/-- R142, R143: a rank-list command over an unwritten source byte. -/
theorem exec_rankList_unwritten {i : Instr} {f : List Byte → List Byte → List Byte × List Byte}
    (hi : runOf i = runRankList f b) : exec i s = .fault (.unwritten (bufWindow b)) := by
  have hsrc' : (begin s).source b s.latch.a0.toNat = none := hsrc
  refine exec_of_stuck ?_
  simp only [hi, runRankList, State.argN, begin_latch, begin_cfg, if_neg hcap.not_gt, hsrc']

/-- R141: BWT_INV over an unwritten source byte. -/
theorem exec_bwtInv_unwritten (hp : s.latch.a1.toNat < s.latch.a0.toNat) :
    exec (.bwtInv b) s = .fault (.unwritten (bufWindow b)) := by
  have hsrc' : (begin s).source b s.latch.a0.toNat = none := hsrc
  have harg : ¬ (s.latch.a0.toNat = 0 ∨ s.cfg.nbuf < s.latch.a0.toNat) := by omega
  refine exec_of_stuck (i := .bwtInv b) ?_
  simp only [runOf, runBwtInv, State.argN, State.argP, begin_latch, begin_cfg, if_neg harg, if_neg hp.not_ge, hsrc']

end

/-- A run of words with one unwritten is unwritten. -/
theorem wordsAt_eq_none {w : Window} {i j n : Nat} (hj : j < n) (h : s.wordAt w (i + j) = none) :
    s.wordsAt w i n = none := by
  refine Option.eq_none_iff_forall_ne_some.mpr fun vs hvs => ?_
  obtain ⟨hlen, hwords⟩ := wordsAt_eq_some.mp hvs
  have hword := (hwords j hj).symm.trans h
  rw [List.getElem?_eq_none_iff] at hword
  omega

/-- R161: HUF_BUILD over an unwritten count. -/
theorem exec_hufBuild_unwritten {c : Nat} (hc : c < 256) (h : s.wordAt .freq c = none) :
    exec .hufBuild s = .fault (.unwritten .freq) := by
  have hsame : (begin s).wordAt .freq c = s.wordAt .freq c := wordAt_congr fun _ _ => rfl
  have hnone : (begin s).wordAt .freq (0 + c) = none := by rw [Nat.zero_add, hsame, h]
  exact exec_of_stuck (i := .hufBuild) (runHufBuild_stuck (wordsAt_eq_none hc hnone))

/-- R121: calls of `GetBit` that reach an unwritten bit before the end. -/
theorem getBits_unwritten {cnt j : Nat} (v : Nat) (hj : j < cnt) (hlim : s.rcur.toNat + cnt ≤ s.rlim.toNat)
    (hbit : s.streamAt (s.rcur.toNat + j) = none) : getBits cnt v s = .stuck (.unwritten .bits) := by
  induction cnt generalizing v j s with
  | zero => exact absurd hj (Nat.not_lt_zero j)
  | succ cnt ih =>
    cases hfirst : s.streamAt s.rcur.toNat with
    | none => rw [getBits, getBit_unwritten (by omega) hfirst]
    | some x =>
      have hcur : (s.setRcur (s.rcur.toNat + 1)).rcur.toNat = s.rcur.toNat + 1 := toNat_wordOf (by omega)
      cases j with
      | zero => exact absurd (hbit.symm.trans hfirst) nofun
      | succ j =>
        rw [getBits, getBit_done (by omega) hfirst]
        refine ih _ (Nat.lt_of_succ_lt_succ hj) (by rw [hcur, State.setRcur_rlim]; omega) ?_
        rw [hcur, Nat.add_assoc, Nat.add_comm 1]
        exact hbit

/-- R126: BR_GET over an unwritten bit before the end. -/
theorem exec_brGet_unwritten {cnt j : Nat} (hj : j < cnt) (hlim : s.rcur.toNat + cnt ≤ s.rlim.toNat)
    (hbit : s.streamAt (s.rcur.toNat + j) = none) : exec (.brGet cnt) s = .fault (.unwritten .bits) := by
  have hget : getBits cnt 0 (begin s) = .stuck (.unwritten .bits) := getBits_unwritten 0 hj hlim hbit
  refine exec_of_stuck (i := .brGet cnt) ?_
  simp only [runOf, runBrGet, begin_rlim, begin_rcur, if_neg hlim.not_gt, hget]

end

/-- Settles O48: each command by the read that finds no value. -/
theorem readingUnwrittenEntriesFaults : Obligations.ReadingUnwrittenEntriesFaults := by
  intro s b
  refine ⟨fun o ho hcap hnone => ⟨fun i hi => ?_, ?_⟩, fun c => exec_hufBuild_unwritten,
    fun cnt j => exec_brGet_unwritten, fun xs code hlegal hv hlt hcap hsrc hnone hs hcodes hfit => ?_,
    fun nodes xs codes tail i key l r f hv hk hlt hcap hmin hs hlen hlead hdown hnode hbits hlim hbit => ?_⟩
  · have hsrc : s.source b s.latch.a0.toNat = none := source_eq_none.mpr ⟨o, ho, hnone⟩
    simp only [List.mem_cons, List.not_mem_nil, or_false] at hi
    rcases hi with rfl | rfl | rfl
    · exact exec_freqCount_unwritten hcap hsrc
    · exact exec_rankList_unwritten (i := .mtfFwd b) hcap hsrc rfl
    · exact exec_rankList_unwritten (i := .mtfInv b) hcap hsrc rfl
  · exact exec_bwtInv_unwritten hcap (source_eq_none.mpr ⟨o, ho, hnone⟩)
  · exact exec_hufEncode_unwritten hv hlt hcap ⟨hlegal, hsrc, hs, hcodes⟩ hnone hfit
  · obtain ⟨hbefore, htail⟩ := streamHolds_append.mp hbits
    have hspells := Spells.of_getElem? hs hlen hlead hbefore (by rw [List.length_append] at hlim; omega)
    exact exec_hufDecode_unwritten hv hk hlt hcap hmin hspells hdown hnode htail hlim hbit

end Sys2Proof.Machine
end
